-- ==== Sys2Proof/Word.lean ====
section
/-! DEFINITION. The words of the block: the 64-bit command and response words, and the binary32 datum with its
classification and its IEEE comparisons (00_scope.md R11, R14, R16). -/

namespace Sys2Proof

/-- A command word `CMD[63:0]` (30_encoding.md R75, R76). -/
abbrev CmdWord := BitVec 64

/-- A response word `RSP[63:0]` (30_encoding.md R75, R84). -/
abbrev RspWord := BitVec 64

/-- An IEEE 754 binary32 datum, held as its bit pattern: `f32(w)` is `⟨w⟩` and `bitsOf(x)` is `x.bits`
(00_scope.md R12, R14). -/
structure F32 where
  bits : BitVec 32
deriving DecidableEq, Repr, Inhabited

/-- The sign bit, bit 31 (R14). -/
def F32.sign (x : F32) : Bool := decide (0x80000000 ≤ x.bits.toNat)

/-- Bits 30 to 0: exponent and fraction as one number. Among numbers of one sign it orders the magnitudes. -/
def F32.mag (x : F32) : Nat := x.bits.toNat % 0x80000000

/-- The magnitude pattern of infinity: exponent 255, fraction 0. -/
abbrev infMag : Nat := 0x7F800000

/-- A NaN: exponent 255, fraction not 0 (R14). -/
def F32.isNaN (x : F32) : Bool := decide (infMag < x.mag)

/-- An infinity (R14). -/
def F32.isInf (x : F32) : Bool := decide (x.mag = infMag)

/-- Neither NaN nor infinity: the exponent field is not 255 (30_encoding.md R77). -/
def F32.isFinite (x : F32) : Bool := decide (x.mag < infMag)

/-- A zero of either sign. -/
def F32.isZero (x : F32) : Bool := decide (x.mag = 0)

/-- The place of a datum that is not a NaN in the IEEE order; both zeros share a place (R16). -/
def F32.key (x : F32) : Int := if x.sign then -(x.mag : Int) else (x.mag : Int)

/-- `a < b` as IEEE compares: false with a NaN operand (R16). -/
def F32.lt (a b : F32) : Bool := !a.isNaN && !b.isNaN && decide (a.key < b.key)

/-- `a <= b` as IEEE compares (R16). -/
def F32.le (a b : F32) : Bool := !a.isNaN && !b.isNaN && decide (a.key ≤ b.key)

/-- `a > b` (R16). -/
abbrev F32.gt (a b : F32) : Bool := b.lt a

/-- `a >= b` (R16). -/
abbrev F32.ge (a b : F32) : Bool := b.le a

/-- A datum from a sign and a magnitude pattern below `2^31`. -/
def F32.ofMag (negative : Bool) (p : Nat) : F32 :=
  ⟨BitVec.ofNat 32 ((if negative then 0x80000000 else 0) + p)⟩

/-- Unary minus flips the sign bit (R15). -/
def F32.neg (x : F32) : F32 := .ofMag (!x.sign) x.mag

/-- `abs` clears the sign bit (R15). -/
def F32.abs (x : F32) : F32 := .ofMag false x.mag

/-- `+0.0` -/
abbrev F32.zero : F32 := ⟨0x00000000#32⟩
/-- `-0.0` -/
abbrev F32.negZero : F32 := ⟨0x80000000#32⟩
/-- `1.0` -/
abbrev F32.one : F32 := ⟨0x3F800000#32⟩

/-- `x` lies between `lo` and `hi` in the IEEE order (so `x` is no NaN). -/
def F32.within (x lo hi : F32) : Bool := lo.le x && x.le hi

end Sys2Proof
end

