-- ==== Sys2Proof/Syntax.lean ====
section
/-! DEFINITION. The commands: one constructor for each row of spec/opcode_table.json, carrying the operand that the
row's operand type gives it (30_encoding.md R77, R80). -/

namespace Sys2Proof

/-- The three ways a command reads its `arg` field (30_encoding.md R77). -/
inductive OperandType where
  | none
  | f32
  | u32
deriving DecidableEq, Repr

/-- The 38 commands of `P16CORE-CMD v1` (30_encoding.md R80). An `F32` operand is the datum `f32(arg)`, a
`BitVec 32` operand the number `arg` itself. -/
inductive Instr where
  -- unit 0, global
  | nop
  | getStatus
  -- unit 1, OSC
  | oscInit (fs : F32)
  | oscSetFreq (f : F32)
  | oscSetWave (w : BitVec 32)
  | oscPhaseAdd (d : F32)
  | oscProcess
  -- unit 2, LAD
  | ladInit (fs : F32)
  | ladSetFreq (f : F32)
  | ladSetRes (r : F32)
  | ladSetMode (m : BitVec 32)
  | ladProcess (x : F32)
  -- unit 3, ENVX
  | envxInit (fs : F32)
  | envxSetCtl (c : F32)
  | envxSetKnob (x : F32)
  | envxTrigger
  | envxProcess
  -- unit 4, ENVL
  | envlInit (fs : F32)
  | envlSetTime (t : F32)
  | envlTrigger
  | envlProcess
  -- unit 5, SEQ
  | seqInit
  | seqSetLen (n : BitVec 32)
  | seqSetComplexity (n : BitVec 32)
  | seqSetDensity (d : F32)
  | seqProcess
  | seqSetSpread (x : F32)
  | seqSetBias (b : F32)
  | seqSetCvSeed (n : BitVec 32)
  | seqSetPalSeed (n : BitVec 32)
  | seqRegenCv
  | seqReadCv (idx : BitVec 32)
  | seqReadGates
  -- unit 6, MET
  | metInit (fs : F32)
  | metSetFreq (f : F32)
  | metReset
  | metProcess
  | metGetPhase
deriving DecidableEq, Repr

end Sys2Proof
end

