-- ==== Sys2Proof/WellFormed.lean ====
section
/-! DEFINITION. When a 64-bit word is a well-formed command: the three checks of 60_exceptions.md R223, written from
the field table of 30_encoding.md R76 and the operand types of R80, apart from the decoder. Every term of `Instr` is a
well-formed command by its type: an operand is exactly the 32 bits that the field `arg` holds. -/

namespace Sys2Proof

/-- `op = CMD[63:56]` (30_encoding.md R76). -/
def CmdWord.op (w : CmdWord) : BitVec 8 := w.extractLsb' 56 8
/-- `rsv = CMD[55:32]` (R76). -/
def CmdWord.rsv (w : CmdWord) : BitVec 24 := w.extractLsb' 32 24
/-- `arg = CMD[31:0]` (R76). -/
def CmdWord.arg (w : CmdWord) : BitVec 32 := w.extractLsb' 0 32

/-- The 14 opcodes of operand type `none` (30_encoding.md R80). -/
def noneOpcodes : List (BitVec 8) :=
  [0x00, 0x01, 0x14, 0x33, 0x34, 0x43, 0x44, 0x50, 0x54, 0x59, 0x5B, 0x62, 0x64, 0x65]
/-- The 17 opcodes of operand type `f32` (R80; 60_exceptions.md R225). -/
def f32Opcodes : List (BitVec 8) :=
  [0x10, 0x11, 0x13, 0x20, 0x21, 0x22, 0x24, 0x30, 0x31, 0x32, 0x40, 0x41, 0x53, 0x55, 0x56, 0x60, 0x61]
/-- The 7 opcodes of operand type `u32` (R80). -/
def u32Opcodes : List (BitVec 8) := [0x12, 0x23, 0x51, 0x52, 0x57, 0x58, 0x5A]

/-- Check (a) of R223: the opcode is one of the 38. -/
def opcodeListed (w : CmdWord) : Bool :=
  noneOpcodes.contains w.op || f32Opcodes.contains w.op || u32Opcodes.contains w.op
/-- Check (b) of R223: the reserved field is zero (30_encoding.md R82). -/
def reservedClear (w : CmdWord) : Bool := w.rsv == 0#24
/-- Check (c) of R223: a command without operand has `arg = 0` (30_encoding.md R83). -/
def operandClear (w : CmdWord) : Bool := !noneOpcodes.contains w.op || w.arg == 0#32

/-- The word is a well-formed command (60_exceptions.md R223). -/
def wellFormed (w : CmdWord) : Bool := opcodeListed w && reservedClear w && operandClear w

end Sys2Proof
end

