-- ==== Sys2Proof/Decode.lean ====
section
/-! DEFINITION. The decoder, total on all `2^64` command words and rejecting by name, and after it the encoder
(30_encoding.md R76 to R83; 60_exceptions.md R223). A command word is a parallel 64-bit word: no byte order arises
(20_memory.md R63). -/

namespace Sys2Proof

/-- Why a word is no command: the three causes of `BADCMD` (60_exceptions.md R223). -/
inductive DecodeError where
  /-- Cause (a): the opcode is not one of the 38 (30_encoding.md R81). -/
  | reservedOpcode
  /-- Cause (b): `CMD[55:32]` is not zero (R82). -/
  | reservedField
  /-- Cause (c): a command without operand has a non-zero `arg` (R83). -/
  | strayOperand
deriving DecidableEq, Repr

/-- The opcode map (30_encoding.md R80): the command an opcode and an operand field stand for. -/
def instrOf (op : BitVec 8) (arg : BitVec 32) : Option Instr :=
  match op.toNat with
  | 0x00 => some .nop
  | 0x01 => some .getStatus
  | 0x10 => some (.oscInit ⟨arg⟩)
  | 0x11 => some (.oscSetFreq ⟨arg⟩)
  | 0x12 => some (.oscSetWave arg)
  | 0x13 => some (.oscPhaseAdd ⟨arg⟩)
  | 0x14 => some .oscProcess
  | 0x20 => some (.ladInit ⟨arg⟩)
  | 0x21 => some (.ladSetFreq ⟨arg⟩)
  | 0x22 => some (.ladSetRes ⟨arg⟩)
  | 0x23 => some (.ladSetMode arg)
  | 0x24 => some (.ladProcess ⟨arg⟩)
  | 0x30 => some (.envxInit ⟨arg⟩)
  | 0x31 => some (.envxSetCtl ⟨arg⟩)
  | 0x32 => some (.envxSetKnob ⟨arg⟩)
  | 0x33 => some .envxTrigger
  | 0x34 => some .envxProcess
  | 0x40 => some (.envlInit ⟨arg⟩)
  | 0x41 => some (.envlSetTime ⟨arg⟩)
  | 0x43 => some .envlTrigger
  | 0x44 => some .envlProcess
  | 0x50 => some .seqInit
  | 0x51 => some (.seqSetLen arg)
  | 0x52 => some (.seqSetComplexity arg)
  | 0x53 => some (.seqSetDensity ⟨arg⟩)
  | 0x54 => some .seqProcess
  | 0x55 => some (.seqSetSpread ⟨arg⟩)
  | 0x56 => some (.seqSetBias ⟨arg⟩)
  | 0x57 => some (.seqSetCvSeed arg)
  | 0x58 => some (.seqSetPalSeed arg)
  | 0x59 => some .seqRegenCv
  | 0x5A => some (.seqReadCv arg)
  | 0x5B => some .seqReadGates
  | 0x60 => some (.metInit ⟨arg⟩)
  | 0x61 => some (.metSetFreq ⟨arg⟩)
  | 0x62 => some .metReset
  | 0x64 => some .metProcess
  | 0x65 => some .metGetPhase
  | _ => none

/-- The operand type of a command (R77, R80). -/
def operandTypeOf (i : Instr) : OperandType :=
  match i with
  | .nop => .none
  | .getStatus => .none
  | .oscInit _ => .f32
  | .oscSetFreq _ => .f32
  | .oscSetWave _ => .u32
  | .oscPhaseAdd _ => .f32
  | .oscProcess => .none
  | .ladInit _ => .f32
  | .ladSetFreq _ => .f32
  | .ladSetRes _ => .f32
  | .ladSetMode _ => .u32
  | .ladProcess _ => .f32
  | .envxInit _ => .f32
  | .envxSetCtl _ => .f32
  | .envxSetKnob _ => .f32
  | .envxTrigger => .none
  | .envxProcess => .none
  | .envlInit _ => .f32
  | .envlSetTime _ => .f32
  | .envlTrigger => .none
  | .envlProcess => .none
  | .seqInit => .none
  | .seqSetLen _ => .u32
  | .seqSetComplexity _ => .u32
  | .seqSetDensity _ => .f32
  | .seqProcess => .none
  | .seqSetSpread _ => .f32
  | .seqSetBias _ => .f32
  | .seqSetCvSeed _ => .u32
  | .seqSetPalSeed _ => .u32
  | .seqRegenCv => .none
  | .seqReadCv _ => .u32
  | .seqReadGates => .none
  | .metInit _ => .f32
  | .metSetFreq _ => .f32
  | .metReset => .none
  | .metProcess => .none
  | .metGetPhase => .none

/-- The decoder: the 8-bit opcode is matched whole (R78), then the reserved field and the operand field are tested. -/
def decode (w : CmdWord) : Except DecodeError Instr :=
  match instrOf w.op w.arg with
  | none => .error .reservedOpcode
  | some i =>
    if w.rsv ≠ 0#24 then .error .reservedField
    else if operandTypeOf i = .none ∧ w.arg ≠ 0#32 then .error .strayOperand
    else .ok i

/-- The opcode of a command (30_encoding.md R80). -/
def opcodeOf (i : Instr) : BitVec 8 :=
  match i with
  | .nop => 0x00
  | .getStatus => 0x01
  | .oscInit _ => 0x10
  | .oscSetFreq _ => 0x11
  | .oscSetWave _ => 0x12
  | .oscPhaseAdd _ => 0x13
  | .oscProcess => 0x14
  | .ladInit _ => 0x20
  | .ladSetFreq _ => 0x21
  | .ladSetRes _ => 0x22
  | .ladSetMode _ => 0x23
  | .ladProcess _ => 0x24
  | .envxInit _ => 0x30
  | .envxSetCtl _ => 0x31
  | .envxSetKnob _ => 0x32
  | .envxTrigger => 0x33
  | .envxProcess => 0x34
  | .envlInit _ => 0x40
  | .envlSetTime _ => 0x41
  | .envlTrigger => 0x43
  | .envlProcess => 0x44
  | .seqInit => 0x50
  | .seqSetLen _ => 0x51
  | .seqSetComplexity _ => 0x52
  | .seqSetDensity _ => 0x53
  | .seqProcess => 0x54
  | .seqSetSpread _ => 0x55
  | .seqSetBias _ => 0x56
  | .seqSetCvSeed _ => 0x57
  | .seqSetPalSeed _ => 0x58
  | .seqRegenCv => 0x59
  | .seqReadCv _ => 0x5A
  | .seqReadGates => 0x5B
  | .metInit _ => 0x60
  | .metSetFreq _ => 0x61
  | .metReset => 0x62
  | .metProcess => 0x64
  | .metGetPhase => 0x65

/-- The operand field of a command: the datum's bits, the number, or zero (R77, R83). -/
def argOf (i : Instr) : BitVec 32 :=
  match i with
  | .nop => 0
  | .getStatus => 0
  | .oscInit x => x.bits
  | .oscSetFreq x => x.bits
  | .oscSetWave n => n
  | .oscPhaseAdd x => x.bits
  | .oscProcess => 0
  | .ladInit x => x.bits
  | .ladSetFreq x => x.bits
  | .ladSetRes x => x.bits
  | .ladSetMode n => n
  | .ladProcess x => x.bits
  | .envxInit x => x.bits
  | .envxSetCtl x => x.bits
  | .envxSetKnob x => x.bits
  | .envxTrigger => 0
  | .envxProcess => 0
  | .envlInit x => x.bits
  | .envlSetTime x => x.bits
  | .envlTrigger => 0
  | .envlProcess => 0
  | .seqInit => 0
  | .seqSetLen n => n
  | .seqSetComplexity n => n
  | .seqSetDensity x => x.bits
  | .seqProcess => 0
  | .seqSetSpread x => x.bits
  | .seqSetBias x => x.bits
  | .seqSetCvSeed n => n
  | .seqSetPalSeed n => n
  | .seqRegenCv => 0
  | .seqReadCv n => n
  | .seqReadGates => 0
  | .metInit x => x.bits
  | .metSetFreq x => x.bits
  | .metReset => 0
  | .metProcess => 0
  | .metGetPhase => 0

/-- The encoder: opcode, 24 zero bits, operand; `CMD = (op << 56) | arg` (30_encoding.md R76, R87). -/
def encode (i : Instr) : CmdWord := opcodeOf i ++ 0#24 ++ argOf i

/-- The instruction the decoder reads from a word given as a number of `nbits` bits (bit 0 the least significant; every
bit from `nbits` up is 0). The block's word has 64 bits and is presented whole, so nothing is laid out in bytes. -/
def decodeTableWord (nbits w : Nat) : Option Instr :=
  match decode (BitVec.ofNat 64 (w % 2 ^ nbits)) with
  | .ok i => some i
  | .error _ => none

end Sys2Proof
end

