-- ==== Sys2Proof/Config.lean ====
section
/-! DEFINITION. What is fixed for one implementation: the shape of the parameter record `CFG` (00_scope.md R9), the
numerics record `NUM` with its named properties (R19, R20), and the free values, each an opaque constant without a
body. The values of the `doc`, `decided` and `gk` rows of R9 are in Sys2Proof/Machine/Params.lean. -/

namespace Sys2Proof

/-- The parameters of the block, one field for each row of the table of 00_scope.md R9. -/
structure Cfg where
  seqSteps : Nat
  seqLenMin : Nat
  seqLenMax : Nat
  seqCpxMin : Nat
  seqCpxMax : Nat
  seqBiasSteps : F32
  seqSigma : F32
  ladResMax : F32
  ladKMax : F32
  ladFcMin : F32
  ladFcMaxRatio : F32
  ladOs : Nat
  ladStages : Nat
  envxLogTarget : F32
  envxTMax : F32
  envxZoneLo : F32
  envxZoneHi : F32
  envxHoldLevel : F32
  envxTimeExp : F32
  twoPi : F32
  oscPw : F32
  oscPbSqGain : F32
  oscPbTriGain : F32
  ladA1 : F32
  ladA2 : F32
  ladA3 : F32
  ladA4 : F32
  ladQ0 : F32
  ladQ1 : F32
  ladQ2 : F32
  ladQ4 : F32
  ladC1 : F32
  ladC2 : F32
  ladFcInit : F32
  metFMaxRatio : F32
  fsMin : F32
  prngMix : BitVec 32
  prngWarmup : Nat
  /-- `none` is the table's "none". -/
  tCmdMax : Option Nat

/-- The numerics record `NUM`: total functions on F32 (00_scope.md R19). -/
structure Numerics where
  sin : F32 → F32
  cos : F32 → F32
  tanh : F32 → F32
  exp : F32 → F32
  ln : F32 → F32
  pow : F32 → F32 → F32

/-- A numerics record with the named properties of 00_scope.md R20, one field for each. A range such as `[-1, 1]` is
read in the IEEE order, in which `-0 == +0`; where the rule writes `+0` as the bound, `-0.0` is excluded (log entry 7). -/
structure LawfulNumerics extends Numerics where
  /-- `P_SIN0` -/
  sin_zero : sin .zero = .zero
  /-- `P_SINR`, for SIN -/
  sin_range : ∀ x : F32, x.isFinite → (sin x).within F32.one.neg .one
  /-- `P_SINR`, for COS -/
  cos_range : ∀ x : F32, x.isFinite → (cos x).within F32.one.neg .one
  /-- `P_TANH0`, at `+0` -/
  tanh_zero : tanh .zero = .zero
  /-- `P_TANH0`, at `-0` -/
  tanh_negZero : tanh .negZero = .negZero
  /-- `P_TANHR`, for a number or an infinity -/
  tanh_range : ∀ x : F32, x.isNaN = false → (tanh x).within F32.one.neg .one
  /-- `P_TANHR`, for a NaN -/
  tanh_nan : ∀ x : F32, x.isNaN → (tanh x).isNaN
  /-- `P_TANHODD`, for every operand: negation flips the sign bit, of a NaN too (R15) -/
  tanh_odd : ∀ x : F32, tanh x.neg = (tanh x).neg
  /-- `P_TANHMONO` -/
  tanh_mono : ∀ x y : F32, x.le y → (tanh x).le (tanh y)
  /-- `P_EXP0`, at `+0` -/
  exp_zero : exp .zero = .one
  /-- `P_EXP0`, at `-0` -/
  exp_negZero : exp .negZero = .one
  /-- `P_EXPR`: in `[+0, 1.0]`, so never `-0.0` -/
  exp_range : ∀ x : F32, x.isFinite → x.le .zero → (exp x).within .zero .one ∧ exp x ≠ .negZero
  /-- `P_EXPMONO` -/
  exp_mono : ∀ x y : F32, x.le y → (exp x).le (exp y)
  /-- `P_LN1` -/
  ln_one : ln .one = .zero
  /-- `P_LNR` -/
  ln_range : ∀ x : F32, F32.zero.lt x → x.le .one → (ln x).isFinite ∧ (ln x).le .zero
  /-- `P_POW01`, the range -/
  pow_range : ∀ x k : F32, x.within .zero .one → k.isFinite → F32.zero.lt k → (pow x k).within .zero .one
  /-- `P_POW01`, at `+0` -/
  pow_zero : ∀ k : F32, k.isFinite → F32.zero.lt k → pow .zero k = .zero
  /-- `P_POW01`, at `1.0` -/
  pow_one : ∀ k : F32, k.isFinite → F32.zero.lt k → pow .one k = .one
  /-- `P_POW01`, non-decreasing in `x` -/
  pow_mono : ∀ x y k : F32, x.within .zero .one → y.within .zero .one → k.isFinite → F32.zero.lt k →
    x.le y → (pow x k).le (pow y k)

/-- A positive finite binary32, the domain of `ENVX_TIME_EXP` (92_eei_decisions.md, "Open parameters in one place"). -/
def PositiveFinite (x : F32) : Prop := x.isFinite ∧ F32.zero.lt x

/-- The five arithmetic operations of 00_scope.md R15 that can be invalid. -/
inductive FpOp where
  | add
  | sub
  | mul
  | div
  | sqrt
deriving DecidableEq, Repr

namespace Config

/-- FREE VALUE: some numerics record with the named properties, no one knows which (00_scope.md R19, U12). The
bracketed argument only shows that such a record exists; `num` gives it. -/
opaque someNumerics [Inhabited LawfulNumerics] : LawfulNumerics

/-- FREE VALUE: `ENVX_TIME_EXP`, an open parameter (R9, U13): some positive finite binary32. -/
opaque someTimeExp [Inhabited (Subtype PositiveFinite)] : Subtype PositiveFinite

/-- FREE VALUE: `T_CMD_MAX`, an open parameter that no rule depends on (R9, U14). -/
opaque tCmdMax : Option Nat

/-- FREE VALUE: the sign and the 22 low fraction bits of the quiet NaN that an operation answers when it is invalid or
has a NaN operand, for each operation and each pair of operands (00_scope.md R15, U3). -/
opaque nanBits : FpOp → F32 → F32 → BitVec 23

/-- FREE VALUE: `floor` of an infinity or a NaN, which R17 does not define. -/
opaque floorOutside : F32 → F32

/-- FREE VALUE: `ROUNDI` of an operand that is not finite or not below `2^31` in magnitude, which R17 does not
define. -/
opaque roundiOutside : F32 → Int

end Config

/-- Properties of the witness below, where the IEEE order on bit patterns is needed. -/
theorem F32.le_of_mag_zero (a b : F32) (ha : a.mag = 0) (hb : b.mag = 0) : a.le b = true := by
  simp [F32.le, F32.isNaN, F32.key, ha, hb]

/-- A datum that is no NaN is compared with itself as equal. -/
theorem F32.le_refl_of_not_nan (a : F32) (ha : a.isNaN = false) : a.le a = true := by
  simp [F32.le, ha]

/-- The zero that carries the sign of `x`. -/
def F32.signedZero (x : F32) : F32 := .ofMag x.sign 0

theorem F32.mag_lt (x : F32) : x.mag < 0x80000000 := Nat.mod_lt _ (by norm_num)

theorem F32.toNat_ofMag (s : Bool) (p : Nat) (hp : p < 0x80000000) :
    (F32.ofMag s p).bits.toNat = (if s then 0x80000000 else 0) + p := by
  unfold F32.ofMag
  rw [BitVec.toNat_ofNat]
  cases s <;> simp only [Bool.false_eq_true, if_false, if_true] <;> omega

theorem F32.mag_ofMag (s : Bool) (p : Nat) (hp : p < 0x80000000) : (F32.ofMag s p).mag = p := by
  unfold F32.mag
  rw [F32.toNat_ofMag s p hp]
  cases s <;> simp only [Bool.false_eq_true, if_false, if_true] <;> omega

theorem F32.sign_ofMag (s : Bool) (p : Nat) (hp : p < 0x80000000) : (F32.ofMag s p).sign = s := by
  unfold F32.sign
  rw [F32.toNat_ofMag s p hp]
  cases s <;> simp only [Bool.false_eq_true, if_false, if_true, decide_eq_true_eq, decide_eq_false_iff_not] <;> omega

theorem F32.mag_signedZero (x : F32) : x.signedZero.mag = 0 := F32.mag_ofMag _ _ (by norm_num)

/-- Flipping the sign bit keeps the magnitude. -/
theorem F32.mag_neg (x : F32) : x.neg.mag = x.mag := F32.mag_ofMag _ _ x.mag_lt

/-- Flipping the sign bit changes the sign. -/
theorem F32.sign_neg (x : F32) : x.neg.sign = !x.sign := F32.sign_ofMag _ _ x.mag_lt

theorem F32.signedZero_neg (x : F32) : x.neg.signedZero = x.signedZero.neg := by
  unfold F32.signedZero
  rw [F32.sign_neg]
  cases x.sign <;> decide

theorem F32.within_signedZero (x : F32) : x.signedZero.within F32.one.neg .one = true := by
  unfold F32.signedZero
  cases x.sign <;> decide

/-- A numerics record with every named property exists: this one, which is far from the functions' names, shows that
the properties of R20 do not contradict one another. It is NOT the block's numerics; nothing can be proved from it. -/
def numericsWitness : LawfulNumerics where
  sin := fun _ => .zero
  cos := fun _ => .zero
  tanh := fun x => if x.isNaN then x else x.signedZero
  exp := fun _ => .one
  ln := fun _ => .zero
  pow := fun x _ => x
  sin_zero := rfl
  sin_range := fun _ _ => by decide
  cos_range := fun _ _ => by decide
  tanh_zero := by decide
  tanh_negZero := by decide
  tanh_range := fun x h => by simp [h, x.within_signedZero]
  tanh_nan := fun x h => by simp [h]
  tanh_odd := fun x => by
    have hn : x.neg.isNaN = x.isNaN := by unfold F32.isNaN; rw [x.mag_neg]
    rw [hn, x.signedZero_neg]
    split <;> rfl
  tanh_mono := fun x y h => by
    simp only [F32.le, Bool.and_eq_true, Bool.not_eq_true'] at h
    simp only [h.1.1, h.1.2, Bool.false_eq_true, if_false]
    exact F32.le_of_mag_zero _ _ x.mag_signedZero y.mag_signedZero
  exp_zero := rfl
  exp_negZero := rfl
  exp_range := fun _ _ _ => by decide
  exp_mono := fun _ _ _ => by decide
  ln_one := rfl
  ln_range := fun _ _ _ => by decide
  pow_range := fun _ _ h _ _ => h
  pow_zero := fun _ _ _ => rfl
  pow_one := fun _ _ _ => rfl
  pow_mono := fun _ _ _ _ _ _ _ h => h

namespace Config

/-- The block's numerics `NUM` (00_scope.md R19): a free record with the named properties of R20. -/
def num : LawfulNumerics := @someNumerics ⟨numericsWitness⟩

/-- `ENVX_TIME_EXP` (R9): a free positive finite binary32. -/
def timeExp : Subtype PositiveFinite := @someTimeExp ⟨⟨⟨0x40000000#32⟩, by unfold PositiveFinite; decide⟩⟩

end Config

end Sys2Proof
end

