-- ==== Sys2Proof/Machine/Float.lean ====
section
/-! DEFINITION. Binary32 arithmetic (00_scope.md R14 to R18). A finite datum is a whole number of units of `2^-149`, so
a sum is exact as an integer and a product, quotient or root is exact as a ratio of integers; the exact result is then
rounded once, to nearest even. -/

namespace Sys2Proof

/-- How many units of `2^-149` make 1. -/
def unitsPerOne : Nat := 2 ^ 149

/-- The units of `2^-149` in a finite magnitude pattern: a subnormal counts its fraction, a normal number has the
hidden bit and the weight of its exponent (R14). -/
def magUnits (p : Nat) : Nat :=
  if p < 2 ^ 23 then p else (2 ^ 23 + p % 2 ^ 23) * 2 ^ (p / 2 ^ 23 - 1)

/-- The value of a finite datum, in units of `2^-149`. -/
def F32.units (x : F32) : Int := if x.sign then -(magUnits x.mag : Int) else (magUnits x.mag : Int)

/-- `n / d` rounded to the nearest integer, ties to even (R15). -/
def roundEven (n d : Nat) : Nat :=
  if 2 * (n % d) < d ∨ (2 * (n % d) = d ∧ n / d % 2 = 0) then n / d else n / d + 1

/-- The magnitude pattern nearest to `n / d` units of `2^-149`, ties to even; infinity where that overflows (R15).
Patterns below `2^24` are their own number of units; above, each doubling of the magnitude doubles the spacing. -/
def roundMag (n d : Nat) : Nat :=
  let e := Nat.log2 (n / d) - 23
  min (e * 2 ^ 23 + roundEven n (d * 2 ^ e)) infMag

/-- An integer number of units of `2^-149` rounded to binary32; `negativeZero` is the sign of an exact zero. -/
def roundUnits (v : Int) (negativeZero : Bool) : F32 :=
  if v = 0 then .ofMag negativeZero 0 else .ofMag (decide (v < 0)) (roundMag v.natAbs 1)

/-- The quiet NaN whose sign and payload are `v` (R15, U3). -/
def quietNaN (v : BitVec 23) : F32 := ⟨v.extractLsb' 22 1 ++ 0x1FF#9 ++ v.extractLsb' 0 22⟩

/-- The NaN that an invalid operation answers: a quiet NaN, nothing else is known of it (R15, U3). -/
def invalid (op : FpOp) (a b : F32) : F32 := quietNaN (Config.nanBits op a b)

/-- `a + b`, or none where the operation is invalid or has a NaN operand. An exact zero sum is `-0` only of two
negative zeros (R15). -/
def F32.addNum (a b : F32) : Option F32 :=
  if a.isNaN || b.isNaN then none
  else if a.isInf then (if b.isInf && (a.sign != b.sign) then none else some a)
  else if b.isInf then some b
  else some (roundUnits (a.units + b.units) (a.sign && b.sign))

/-- `a + b` (R15). -/
def F32.add (a b : F32) : F32 := (a.addNum b).getD (invalid .add a b)

/-- `a - b` (R15). -/
def F32.sub (a b : F32) : F32 := (a.addNum b.neg).getD (invalid .sub a b)

/-- `a * b`, or none where the operation is invalid or has a NaN operand (R15). -/
def F32.mulNum (a b : F32) : Option F32 :=
  if a.isNaN || b.isNaN then none
  else if a.isInf || b.isInf then
    (if a.isZero || b.isZero then none else some (.ofMag (a.sign != b.sign) infMag))
  else some (.ofMag (a.sign != b.sign) (roundMag (magUnits a.mag * magUnits b.mag) unitsPerOne))

/-- `a * b` (R15). -/
def F32.mul (a b : F32) : F32 := (a.mulNum b).getD (invalid .mul a b)

/-- `a / b`, or none where the operation is invalid or has a NaN operand; a finite non-zero number over a zero is an
infinity (R15). -/
def F32.divNum (a b : F32) : Option F32 :=
  if a.isNaN || b.isNaN then none
  else if a.isInf then (if b.isInf then none else some (.ofMag (a.sign != b.sign) infMag))
  else if b.isInf then some (.ofMag (a.sign != b.sign) 0)
  else if b.isZero then (if a.isZero then none else some (.ofMag (a.sign != b.sign) infMag))
  else some (.ofMag (a.sign != b.sign) (roundMag (magUnits a.mag * unitsPerOne) (magUnits b.mag)))

/-- `a / b` (R15). -/
def F32.div (a b : F32) : F32 := (a.divNum b).getD (invalid .div a b)

/-- The integer square root, found bit by bit from bit `k - 1` down; `r` holds the bits found so far. -/
def isqrtFrom (n : Nat) : Nat → Nat → Nat
  | 0, r => r
  | k + 1, r => isqrtFrom n k (if (r + 2 ^ k) * (r + 2 ^ k) ≤ n then r + 2 ^ k else r)

/-- The magnitude pattern of the square root of `m` units of `2^-149`: the root of `m * 2^149` is at least `2^74`
units, so half a unit for a remainder decides every tie. -/
def sqrtMag (m : Nat) : Nat :=
  let n := m * unitsPerOne
  let q := isqrtFrom n 214 0
  roundMag (2 * q + (if q * q < n then 1 else 0)) 2

/-- `SQRT(x)`, correctly rounded; `SQRT(-0) = -0`, and a negative number has none (R15). -/
def F32.sqrtNum (x : F32) : Option F32 :=
  if x.isNaN then none
  else if x.isZero then some x
  else if x.sign then none
  else if x.isInf then some x
  else some (.ofMag false (sqrtMag (magUnits x.mag)))

/-- `SQRT(x)` (R15). -/
def F32.sqrt (x : F32) : F32 := x.sqrtNum.getD (invalid .sqrt x x)

/-- `toF32(n)`: exact for `|n| <= 2^24`, the only integers the block converts (R17); rounded beyond (log entry 10). -/
def F32.ofInt (n : Int) : F32 := roundUnits (n * (unitsPerOne : Int)) false

/-- `floor(x)`: the largest integral number not above `x`, exact; an integral number, `-0` among them, is its own
floor (R17). Of a number that is not finite it is a free value (log entry 10). -/
def F32.floor (x : F32) : F32 :=
  if x.isFinite then
    if x.units % (unitsPerOne : Int) = 0 then x
    else roundUnits (x.units / (unitsPerOne : Int) * (unitsPerOne : Int)) false
  else Config.floorOutside x

/-- The magnitude pattern of `2^31`. -/
abbrev magTwo31 : Nat := 0x4F000000

/-- `ROUNDI(x)`: the nearest integer, ties away from zero, for `|x| < 2^31` (R17). Beyond, a free value
(log entry 10). -/
def F32.roundi (x : F32) : Int :=
  if x.mag < magTwo31 then
    let n : Int := ((2 * magUnits x.mag + unitsPerOne) / (2 * unitsPerOne) : Nat)
    if x.sign then -n else n
  else Config.roundiOutside x

/-- `clamp(x, lo, hi)`: a NaN and a `-0` against `lo = +0` pass unchanged (R16). -/
def F32.clamp (x lo hi : F32) : F32 := if x.lt lo then lo else if x.gt hi then hi else x

/-- `max(a, b)` (R16). -/
def F32.max (a b : F32) : F32 := if a.lt b then b else a

/-- `WRAP1(x)`: the phase wrap into `[0, 1)` (R18). -/
def F32.wrap1 (x : F32) : F32 :=
  let y := x.sub x.floor
  if y.ge .one then .zero else y

end Sys2Proof
end

