-- ==== Sys2Proof/Machine/Params.lean ====
section
/-! DEFINITION. The values of the parameter record: the table of 00_scope.md R9, each binary32 by its pattern, and the
other decimal constants of the rules (R21). Rows of origin `gk` are the table's defaults (log entry 11); rows of
origin OPEN are free values (log entries 8 and 9). -/

namespace Sys2Proof.Machine

/-- The block's parameters `CFG` (00_scope.md R9). -/
def cfg : Cfg where
  seqSteps := 32
  seqLenMin := 1
  seqLenMax := 32
  seqCpxMin := 1
  seqCpxMax := 32
  seqBiasSteps := ⟨0x41C80000#32⟩    -- 25.0
  seqSigma := ⟨0x3E4CCCCD#32⟩        -- 0.2
  ladResMax := ⟨0x3FE66666#32⟩       -- 1.8
  ladKMax := ⟨0x40800000#32⟩         -- 4.0
  ladFcMin := ⟨0x40A00000#32⟩        -- 5.0
  ladFcMaxRatio := ⟨0x3ED9999A#32⟩   -- 0.425
  ladOs := 4
  ladStages := 4
  envxLogTarget := ⟨0x41280000#32⟩   -- 10.5
  envxTMax := ⟨0x41A00000#32⟩        -- 20.0
  envxZoneLo := ⟨0x3EE66666#32⟩      -- 0.45
  envxZoneHi := ⟨0x3F0CCCCD#32⟩      -- 0.55
  envxHoldLevel := ⟨0x3F000000#32⟩   -- 0.5
  envxTimeExp := Config.timeExp.val  -- OPEN
  twoPi := ⟨0x40C90FDB#32⟩           -- 2 pi
  oscPw := ⟨0x3F000000#32⟩           -- 0.5
  oscPbSqGain := ⟨0x3F34FDF4#32⟩     -- 0.707, gk
  oscPbTriGain := ⟨0x40800000#32⟩    -- 4.0, gk
  ladA1 := ⟨0x3F7D3C36#32⟩           -- 0.9892, gk
  ladA2 := ⟨0x3EDD6388#32⟩           -- 0.4324, gk
  ladA3 := ⟨0x3E0D6A16#32⟩           -- 0.1381, gk
  ladA4 := ⟨0x3CA57A78#32⟩           -- 0.0202, gk
  ladQ0 := ⟨0x3F80C49C#32⟩           -- 1.006, gk
  ladQ1 := ⟨0x3D5B8BAC#32⟩           -- 0.0536, gk
  ladQ2 := ⟨0x3DC28F5C#32⟩           -- 0.095, gk
  ladQ4 := ⟨0x3D4CCCCD#32⟩           -- 0.05, gk
  ladC1 := ⟨0x3F44EC4F#32⟩           -- 1.0 / 1.3, gk
  ladC2 := ⟨0x3E6C4EC6#32⟩           -- 0.3 / 1.3, gk
  ladFcInit := ⟨0x447A0000#32⟩       -- 1000.0
  metFMaxRatio := ⟨0x3F000000#32⟩    -- 0.5
  fsMin := ⟨0x3F800000#32⟩           -- 1.0
  prngMix := 0x9E3779B9#32
  prngWarmup := 4
  tCmdMax := Config.tCmdMax          -- OPEN, read by nothing

/-- `0.25` (00_scope.md R21) -/
abbrev quarter : F32 := ⟨0x3E800000#32⟩
/-- `0.5` -/
abbrev half : F32 := ⟨0x3F000000#32⟩
/-- `-1.0` -/
abbrev minusOne : F32 := ⟨0xBF800000#32⟩
/-- `2.0` -/
abbrev two : F32 := ⟨0x40000000#32⟩
/-- `-2.0` -/
abbrev minusTwo : F32 := ⟨0xC0000000#32⟩
/-- `4.0` -/
abbrev four : F32 := ⟨0x40800000#32⟩
/-- `6.0` -/
abbrev six : F32 := ⟨0x40C00000#32⟩
/-- `8.0` -/
abbrev eight : F32 := ⟨0x41000000#32⟩
/-- `32.0` -/
abbrev thirtyTwo : F32 := ⟨0x42000000#32⟩
/-- `16777216.0`, that is `2^24` -/
abbrev twoPow24 : F32 := ⟨0x4B800000#32⟩

end Sys2Proof.Machine
end

