-- ==== Sys2Proof/Machine/State.lean ====
section
/-! DEFINITION. The state of the block as plain data (10_state.md, 20_memory.md R60), its reset value
(70_reset_and_hazards.md R240), and the two reason types of a step. -/

namespace Sys2Proof.Machine

/-- The eight waveforms, in the order of their codes 0 to 7 (40_oscillator.md R103). -/
inductive Wave where
  | sine
  | tri
  | saw
  | ramp
  | square
  | pbTri
  | pbSaw
  | pbSquare
deriving DecidableEq, Repr

/-- The six filter responses, in the order of their codes 0 to 5 (41_ladder_filter.md R124). -/
inductive FilterMode where
  | lp24
  | lp12
  | bp24
  | bp12
  | hp24
  | hp12
deriving DecidableEq, Repr

/-- `OSC` registers (10_state.md R37). -/
structure OscState where
  init : Bool
  fs : F32
  freq : F32
  inc : F32
  wave : Wave
  phase : F32
  last : F32
  eoc : Bool
  eor : Bool
deriving DecidableEq, Repr

/-- `LAD` registers and its two arrays (10_state.md R39); `k` is `S.lad.K`. -/
structure LadState where
  init : Bool
  fs : F32
  fc : F32
  res : F32
  k : F32
  alpha : F32
  qadj : F32
  mode : FilterMode
  z0 : Vector F32 4
  z1 : Vector F32 4
  oldin : F32
deriving DecidableEq, Repr

/-- `ENVX` registers (10_state.md R41); `dir` is 0 for decay and 1 for attack. -/
structure EnvxState where
  init : Bool
  fs : F32
  value : F32
  coef : F32
  dir : Bool
  hold : Bool
deriving DecidableEq, Repr

/-- `ENVL` registers (10_state.md R42). -/
structure EnvlState where
  init : Bool
  fs : F32
  value : F32
  rate : F32
deriving DecidableEq, Repr

/-- `SEQ` registers and its three arrays (10_state.md R44). -/
structure SeqState where
  init : Bool
  len : BitVec 6
  cpx : BitVec 6
  density : F32
  spread : F32
  bias : F32
  cvseed : BitVec 32
  palseed : BitVec 32
  cur : BitVec 5
  gateflag : Bool
  gate : Vector Bool 32
  cv : Vector F32 32
  pal : Vector F32 32
deriving DecidableEq, Repr

/-- `MET` registers (10_state.md R46). -/
structure MetState where
  init : Bool
  fs : F32
  freq : F32
  inc : F32
  phase : F32
  tick : Bool
deriving DecidableEq, Repr

/-- What the host can do to the block at its port. -/
inductive HostEvent where
  /-- A command word is presented and accepted (30_encoding.md R75). -/
  | command (w : CmdWord)
  /-- `rst` is asserted; the argument is the command that was in progress, if there was one: it is abandoned
  (70_reset_and_hazards.md R241). -/
  | reset (inProgress : Option CmdWord)
deriving DecidableEq, Repr

/-- The command and response port (30_encoding.md R75). `inbox` and `log` are the model's own fields (log entries 1
and 3): what the host will do next, and the response words so far, oldest first (00_scope.md R24). `rsp` is the response
port: a word while `rsp_valid` is 1. -/
structure Port where
  inbox : List HostEvent
  rsp : Option RspWord
  log : List RspWord
deriving DecidableEq, Repr

/-- The whole state: six units, the sticky error bit (10_state.md R30, R48), and the port. -/
structure State where
  osc : OscState
  lad : LadState
  envx : EnvxState
  envl : EnvlState
  seq : SeqState
  met : MetState
  err : Bool
  port : Port
deriving DecidableEq, Repr

/-- Why the machine would stop with a fault. There is no such reason: "There are no fatal conditions in the core", no
arithmetic condition stops a command, and every command word has a defined outcome (60_exceptions.md R220, R221, R227).
A step that never faults is safe here: the spec gives every word a next state. -/
inductive Fault where
deriving DecidableEq, Repr

/-- Why a command has no meaning in the model. -/
inductive Refusal where
  /-- Raised by `exec` for a command whose meaning is not written. No arm raises it: every command has its meaning.
  Safe: a refused command proves nothing. (The spec's own refusals, `BADCMD`, `NOTINIT`, `BADARG`, are next states.) -/
  | notModelled (mnemonic : String)
deriving DecidableEq, Repr

/-- The machine right after hardware reset: every register and array element is the all-zero pattern
(70_reset_and_hazards.md R240), the response port is not valid (R241), no host event is waiting and no response has been
given. -/
def State.reset : State where
  osc := { init := false, fs := .zero, freq := .zero, inc := .zero, wave := .sine, phase := .zero, last := .zero,
           eoc := false, eor := false }
  lad := { init := false, fs := .zero, fc := .zero, res := .zero, k := .zero, alpha := .zero, qadj := .zero,
           mode := .lp24, z0 := #v[.zero, .zero, .zero, .zero], z1 := #v[.zero, .zero, .zero, .zero], oldin := .zero }
  envx := { init := false, fs := .zero, value := .zero, coef := .zero, dir := false, hold := false }
  envl := { init := false, fs := .zero, value := .zero, rate := .zero }
  seq := { init := false, len := 0, cpx := 0, density := .zero, spread := .zero, bias := .zero, cvseed := 0,
           palseed := 0, cur := 0, gateflag := false, gate := .replicate 32 false, cv := .replicate 32 .zero,
           pal := .replicate 32 .zero }
  met := { init := false, fs := .zero, freq := .zero, inc := .zero, phase := .zero, tick := false }
  err := false
  port := { inbox := [], rsp := none, log := [] }

end Sys2Proof.Machine
end

