-- ==== Sys2Proof/Machine/Flags.lean ====
section
/-! DEFINITION. The `STATUS` view, the response word, the output pins, and the computation of every flag. -/

namespace Sys2Proof.Machine

/-- The 8-bit `STATUS` view (10_state.md R34; 46_core_control.md R211): ERR, two hard-wired zeros (R36), HOLD, GATE,
TICK, EOR, EOC from bit 7 down. -/
def State.status (s : State) : BitVec 8 :=
  BitVec.ofBool s.err ++ 0#2 ++ BitVec.ofBool s.envx.hold ++ BitVec.ofBool s.seq.gateflag ++
    BitVec.ofBool s.met.tick ++ BitVec.ofBool s.osc.eor ++ BitVec.ofBool s.osc.eoc

/-- The outcome codes (30_encoding.md R85). -/
inductive OutcomeCode where
  | ok
  | badCmd
  | notInit
  | badArg
deriving DecidableEq, Repr

/-- The byte of an outcome code (R85). -/
def codeByte : OutcomeCode → BitVec 8
  | .ok => 0x00
  | .badCmd => 0x01
  | .notInit => 0x02
  | .badArg => 0x03

/-- The response word: opcode, code, `STATUS`, a zero byte, data (30_encoding.md R84). -/
def rspWord (op : BitVec 8) (code : OutcomeCode) (status : BitVec 8) (data : BitVec 32) : RspWord :=
  op ++ codeByte code ++ status ++ 0#8 ++ data

/-- The output pins of the port that are not the clock (30_encoding.md R75). -/
structure Pins where
  cmdReady : Bool
  rspValid : Bool
  rsp : Option RspWord
  status : BitVec 8
deriving DecidableEq, Repr

/-- The pins between two steps: ready for a command, the response of the last one, and `STATUS` as levels
(R75; 60_exceptions.md R229). -/
def State.pins (s : State) : Pins :=
  { cmdReady := true, rspValid := s.port.rsp.isSome, rsp := s.port.rsp, status := s.status }

/-- The pins while `rst` is 1 (70_reset_and_hazards.md R241). -/
def pinsInReset : Pins := { cmdReady := false, rspValid := false, rsp := none, status := 0x00 }

/-- `EOC`: the rounded sum of phase and increment left `[0, 1)`, on either side (40_oscillator.md R107). -/
def eocOf (x : F32) : Bool := x.ge .one || x.lt .zero

/-- `EOR`: the new phase `pn` has just reached or passed one half (40_oscillator.md R107). DESIGN CHOICE (log entry 20):
R109 (c) says that for `0 < inc <= 0.5` the flag is set exactly where the phase first reaches `[0.5, 1)`; the pseudocode of
R107, each operation rounded (R15), differs from that in a few phases next to one half. The model follows the
pseudocode. -/
def eorOf (pn dt : F32) : Bool := (pn.sub dt).lt half && pn.ge half

/-- `TICK`: the rounded sum of phase and increment reached 1.0 (45_metronome.md R198). -/
def tickOf (x : F32) : Bool := x.ge .one

/-- `HOLD` after `ENVX_SETKNOB`: the clamped knob is in the closed centre zone (42_envelope_exponential.md R142). -/
def holdOf (xc : F32) : Bool := !xc.lt cfg.envxZoneLo && !xc.gt cfg.envxZoneHi

end Sys2Proof.Machine
end

