-- ==== Sys2Proof/Machine/Operands.lean ====
section
/-! DEFINITION. The operand forms: which operands a command accepts (60_exceptions.md R225) and how an accepted one is
brought into its legal range (R220; 10_state.md R49). -/

namespace Sys2Proof.Machine

/-- The operand of every `f32` command: neither NaN nor infinity, that is `CMD[30:23] != 0xFF` (R225 (a)). -/
def acceptsNumber (x : F32) : Bool := x.isFinite

/-- The operand of the five `*_INIT` commands with a sample rate: finite and at least `FS_MIN` (R225 (a), (b)). -/
def acceptsRate (fs : F32) : Bool := fs.isFinite && !fs.lt cfg.fsMin

/-- The operand of `SEQ_READCV`: an index of at most 31 (R225 (c); 20_memory.md R62). -/
def acceptsIndex (i : BitVec 32) : Bool := decide (i.toNat ≤ 31)

/-- The waveform of a code; every code above 7 is clamped to 7 (40_oscillator.md R103). -/
def waveOf (w : BitVec 32) : Wave :=
  match w.toNat with
  | 0 => .sine
  | 1 => .tri
  | 2 => .saw
  | 3 => .ramp
  | 4 => .square
  | 5 => .pbTri
  | 6 => .pbSaw
  | _ => .pbSquare

/-- The code of a waveform (40_oscillator.md R103). -/
def waveCode : Wave → BitVec 3
  | .sine => 0
  | .tri => 1
  | .saw => 2
  | .ramp => 3
  | .square => 4
  | .pbTri => 5
  | .pbSaw => 6
  | .pbSquare => 7

/-- The response of a code; every code above 5 is clamped to 5 (41_ladder_filter.md R124). -/
def modeOf (m : BitVec 32) : FilterMode :=
  match m.toNat with
  | 0 => .lp24
  | 1 => .lp12
  | 2 => .bp24
  | 3 => .bp12
  | 4 => .hp24
  | _ => .hp12

/-- The code of a response (41_ladder_filter.md R124). -/
def modeCode : FilterMode → BitVec 3
  | .lp24 => 0
  | .lp12 => 1
  | .bp24 => 2
  | .bp12 => 3
  | .hp24 => 4
  | .hp12 => 5

/-- A count clamped to `[lo, hi]` (44_sequencer.md R178, R179). -/
def clampCount (lo hi : Nat) (n : BitVec 32) : Nat := if n.toNat < lo then lo else if n.toNat > hi then hi else n.toNat

/-- An amount clamped to `[+0.0, 1.0]` (44_sequencer.md R180, R181; 42_envelope_exponential.md R142). -/
def clampUnit (x : F32) : F32 := x.clamp .zero .one

/-- The filter's cutoff clamp: upper bound first, lower bound last (41_ladder_filter.md R121). -/
def fcClamp (f fs : F32) : F32 :=
  let hi := fs.mul cfg.ladFcMaxRatio
  let g := if f.gt hi then hi else f
  if g.lt cfg.ladFcMin then cfg.ladFcMin else g

/-- The resonance clamp (41_ladder_filter.md R123). -/
def resClamp (r : F32) : F32 := r.clamp .zero cfg.ladResMax

/-- The metronome's frequency clamp, 0 to Nyquist (45_metronome.md R196). -/
def metClamp (f fs : F32) : F32 := f.clamp .zero (fs.mul cfg.metFMaxRatio)

/-- The bias quantised to steps of 1/25 (44_sequencer.md R171). -/
def quantBias (b : F32) : F32 :=
  (F32.ofInt ((clampUnit b).mul cfg.seqBiasSteps).roundi).div cfg.seqBiasSteps

end Sys2Proof.Machine
end

