-- ==== Sys2Proof/Machine/Ops.lean ====
section
/-! DEFINITION. The named operations that the meanings share: access to the internal arrays, answering a command, and the
refusal, which stands in this block where a processor takes an exception. -/

namespace Sys2Proof.Machine

/-- What one step of the machine answers. -/
abbrev StepResult := Host.Outcome State Fault Refusal

/-- A fixed array from a list: element `i` is entry `i` of the list, `d` where the list has none. -/
def vectorOf {α : Type} (n : Nat) (d : α) (l : List α) : Vector α n :=
  ⟨((List.range n).map (fun i => l.getD i d)).toArray, by simp⟩

/-- `MemRead(space, i)` (00_scope.md R12): the whole element at an index of the array. -/
def memRead {α : Type} {n : Nat} (a : Vector α n) (i : Fin n) : α := a[i]

/-- `MemWrite(space, i, v)` (00_scope.md R12): one whole element, every other kept. -/
def memWrite {α : Type} {n : Nat} (a : Vector α n) (i : Fin n) (v : α) : Vector α n := a.set i v

/-- Give the response of a command: it stands at the response port and is the next word of the observation. `STATUS` is
that of the state after the command (30_encoding.md R84). -/
def State.answer (s : State) (op : BitVec 8) (code : OutcomeCode) (data : BitVec 32) : State :=
  let w := rspWord op code s.status data
  { s with port := { s.port with rsp := some w, log := s.port.log ++ [w] } }

/-- `respond(data)`: end a command normally (00_scope.md R12; 30_encoding.md R84). -/
def respond (op : BitVec 8) (data : BitVec 32) (s : State) : StepResult :=
  .next (s.answer op .ok data)

/-- `raise Refuse(code)`: the one abnormal outcome. Nothing changes but `S.err <- 1`; the response carries the echo of
the opcode, the code, `STATUS` with `ERR` set, and zero data; the next command is taken as usual (60_exceptions.md R221,
R222). There is no saved state, no handler and no return: nothing to resume (R228). -/
def refuse (op : BitVec 8) (code : OutcomeCode) (s : State) : StepResult :=
  .next ({ s with err := true }.answer op code 0#32)

/-- Test the unit's `init` bit, before the operand (60_exceptions.md R224, R226). -/
def whenInit (op : BitVec 8) (init : Bool) (s : State) (k : StepResult) : StepResult :=
  if init then k else refuse op .notInit s

/-- Test the operand (60_exceptions.md R225). -/
def whenAccepted (op : BitVec 8) (accepted : Bool) (s : State) (k : StepResult) : StepResult :=
  if accepted then k else refuse op .badArg s

/-- A word that is no well-formed command: `BADCMD`, from the word alone, before any state is consulted
(60_exceptions.md R223, R226). -/
def refuseBadCommand (w : CmdWord) (s : State) : StepResult := refuse w.op .badCmd s

/-- `rst`: the whole state becomes the reset state, whatever the block was doing; a command in progress leaves no write
and no response (70_reset_and_hazards.md R241). What the host will do next and what it has already been told stay. -/
def hardwareReset (s : State) : State :=
  { State.reset with port := { State.reset.port with inbox := s.port.inbox, log := s.port.log } }

end Sys2Proof.Machine
end

