-- ==== Sys2Proof/Machine/Control.lean ====
section
/-! DEFINITION. The two global commands (46_core_control.md). -/

namespace Sys2Proof.Machine

/-- `NOP` (R210): no state changes; the answer shows `STATUS`. -/
def execNop (s : State) : StepResult := respond (opcodeOf .nop) 0#32 s

/-- `GET_STATUS` (R211): `STATUS` zero-extended as data; a pure read that clears nothing. -/
def execGetStatus (s : State) : StepResult := respond (opcodeOf .getStatus) (s.status.setWidth 32) s

end Sys2Proof.Machine
end

