-- ==== Sys2Proof/Machine/Envl.lean ====
section
/-! DEFINITION. `ENVL`, the linear decay envelope (43_envelope_linear.md). -/

namespace Sys2Proof.Machine

/-- `ENVL_INIT fs` (R155): at rest, the fastest rate. -/
def execEnvlInit (fs : F32) (s : State) : StepResult :=
  whenAccepted (opcodeOf (.envlInit fs)) (acceptsRate fs) s <|
    respond (opcodeOf (.envlInit fs)) fs.bits
      { s with envl := { init := true, fs := fs, value := .zero, rate := .one } }

/-- The rate of a decay time: `1 - EXP(-1 / (fs * Tc))`, the time floored at one sample period (R156). -/
def envlRate (t fs : F32) : F32 :=
  let flr := F32.one.div fs
  let tc := if t.lt flr then flr else t
  F32.one.sub (Config.num.exp (minusOne.div (fs.mul tc)))

/-- `ENVL_SETTIME T` (R156). -/
def execEnvlSetTime (t : F32) (s : State) : StepResult :=
  whenInit (opcodeOf (.envlSetTime t)) s.envl.init s <|
  whenAccepted (opcodeOf (.envlSetTime t)) (acceptsNumber t) s <|
    let rate := envlRate t s.envl.fs
    respond (opcodeOf (.envlSetTime t)) rate.bits { s with envl := { s.envl with rate := rate } }

/-- `ENVL_TRIGGER` (R157). -/
def execEnvlTrigger (s : State) : StepResult :=
  whenInit (opcodeOf .envlTrigger) s.envl.init s <|
    respond (opcodeOf .envlTrigger) F32.one.bits { s with envl := { s.envl with value := .one } }

/-- The value one sample on: the rate subtracted, floored at `+0.0` (R158). -/
def envlNext (value rate : F32) : F32 :=
  let v := value.sub rate
  if v.lt .zero then .zero else v

/-- `ENVL_PROCESS` (R158): subtract first; the output is the new value. -/
def execEnvlProcess (s : State) : StepResult :=
  whenInit (opcodeOf .envlProcess) s.envl.init s <|
    let v := envlNext s.envl.value s.envl.rate
    respond (opcodeOf .envlProcess) v.bits { s with envl := { s.envl with value := v } }

end Sys2Proof.Machine
end

