-- ==== Sys2Proof/Machine/Envx.lean ====
section
/-! DEFINITION. `ENVX`, the exponential attack-or-decay envelope (42_envelope_exponential.md). -/

namespace Sys2Proof.Machine

/-- `ENVX_INIT fs` (R140). -/
def execEnvxInit (fs : F32) (s : State) : StepResult :=
  whenAccepted (opcodeOf (.envxInit fs)) (acceptsRate fs) s <|
    respond (opcodeOf (.envxInit fs)) fs.bits
      { s with envx := { init := true, fs := fs, value := .zero, coef := .zero, dir := false, hold := false } }

/-- The control of `XCOEF` clamped to `[-1, 1]` (R141). -/
def ctlClamp (c : F32) : F32 := c.clamp minusOne .one

/-- The time of a clamped control: the power curve over 20 s, floored at one sample period (R141). -/
def envxTime (cc fs : F32) : F32 :=
  let traw := (Config.num.pow cc.abs cfg.envxTimeExp).mul cfg.envxTMax
  let flr := F32.one.div fs
  if traw.lt flr then flr else traw

/-- `coef` of `XCOEF(c, fs)` (R141). -/
def envxCoef (c fs : F32) : F32 :=
  Config.num.exp (cfg.envxLogTarget.neg.div ((envxTime (ctlClamp c) fs).mul fs))

/-- `dir` of `XCOEF(c, fs)` (R141): attack for a control below zero; `-0.0` is decay. -/
def envxDir (c : F32) : Bool := (ctlClamp c).lt .zero

/-- `ENVX_SETCTL c` (R141). -/
def execEnvxSetCtl (c : F32) (s : State) : StepResult :=
  whenInit (opcodeOf (.envxSetCtl c)) s.envx.init s <|
  whenAccepted (opcodeOf (.envxSetCtl c)) (acceptsNumber c) s <|
    let coef := envxCoef c s.envx.fs
    respond (opcodeOf (.envxSetCtl c)) coef.bits
      { s with envx := { s.envx with coef := coef, dir := envxDir c, hold := false } }

/-- The control that a clamped knob outside the centre zone stands for (R142): attack below it, decay above. -/
def knobControl (xc : F32) : F32 :=
  if xc.lt cfg.envxZoneLo then (xc.sub cfg.envxZoneLo).div cfg.envxZoneLo
  else (xc.sub cfg.envxZoneHi).div cfg.envxZoneLo

/-- `ENVX_SETKNOB x` (R142): inside the closed centre zone only `HOLD` is set; outside, as `XCOEF` of the control. -/
def execEnvxSetKnob (x : F32) (s : State) : StepResult :=
  whenInit (opcodeOf (.envxSetKnob x)) s.envx.init s <|
  whenAccepted (opcodeOf (.envxSetKnob x)) (acceptsNumber x) s <|
    let xc := clampUnit x
    if holdOf xc then
      respond (opcodeOf (.envxSetKnob x)) s.envx.coef.bits { s with envx := { s.envx with hold := true } }
    else
      let coef := envxCoef (knobControl xc) s.envx.fs
      respond (opcodeOf (.envxSetKnob x)) coef.bits
        { s with envx := { s.envx with coef := coef, dir := envxDir (knobControl xc), hold := false } }

/-- `ENVX_TRIGGER` (R144): the value restarts from 1.0, held or not (R143). -/
def execEnvxTrigger (s : State) : StepResult :=
  whenInit (opcodeOf .envxTrigger) s.envx.init s <|
    respond (opcodeOf .envxTrigger) F32.one.bits { s with envx := { s.envx with value := .one } }

/-- `ENVX_PROCESS` (R145): while held, exactly 0.5 and nothing changes (R143); else multiply first, then the value (decay)
or one minus it (attack). DESIGN CHOICE (log entry 19): the prose of R145 says that for every `coef < 1` the value
underflows to `+0.0`; its pseudocode, with R14 and R15, stalls at a subnormal above zero where `0.5 < coef < 1`. The
model follows the pseudocode. -/
def execEnvxProcess (s : State) : StepResult :=
  whenInit (opcodeOf .envxProcess) s.envx.init s <|
    if s.envx.hold then respond (opcodeOf .envxProcess) cfg.envxHoldLevel.bits s
    else
      let v := s.envx.value.mul s.envx.coef
      let out := if s.envx.dir then F32.one.sub v else v
      respond (opcodeOf .envxProcess) out.bits { s with envx := { s.envx with value := v } }

end Sys2Proof.Machine
end

