-- ==== Sys2Proof/Machine/Lad.lean ====
section
/-! DEFINITION. `LAD`, the 4-stage nonlinear ladder filter (41_ladder_filter.md). The stage equation, the polynomials and
the mix weights are the rules' own, which the spec marks as general knowledge (log entry 12). -/

namespace Sys2Proof.Machine

/-- `wc`, the cutoff in radians per oversampled sample (R122). -/
def ladWc (fc fs : F32) : F32 := fc.mul (cfg.twoPi.div (four.mul fs))

/-- `alpha` of `COEF(fc, fs)` (R122). -/
def ladAlpha (fc fs : F32) : F32 :=
  let wc := ladWc fc fs
  let wc2 := wc.mul wc
  (((cfg.ladA1.mul wc).sub (cfg.ladA2.mul wc2)).add ((cfg.ladA3.mul wc).mul wc2)).sub ((cfg.ladA4.mul wc2).mul wc2)

/-- `qadj` of `COEF(fc, fs)` (R122). -/
def ladQadj (fc fs : F32) : F32 :=
  let wc := ladWc fc fs
  let wc2 := wc.mul wc
  ((cfg.ladQ0.add (cfg.ladQ1.mul wc)).sub (cfg.ladQ2.mul wc2)).sub ((cfg.ladQ4.mul wc2).mul wc2)

/-- Four elements of `+0.0`: a cleared filter memory. -/
def clearedStages : Vector F32 4 := #v[.zero, .zero, .zero, .zero]

/-- `LAD_INIT fs` (R120). -/
def execLadInit (fs : F32) (s : State) : StepResult :=
  whenAccepted (opcodeOf (.ladInit fs)) (acceptsRate fs) s <|
    let fc := fcClamp cfg.ladFcInit fs
    respond (opcodeOf (.ladInit fs)) fs.bits
      { s with lad := { init := true, fs := fs, fc := fc, res := .zero, k := .zero, alpha := ladAlpha fc fs,
                        qadj := ladQadj fc fs, mode := .lp24, z0 := clearedStages, z1 := clearedStages,
                        oldin := .zero } }

/-- `LAD_SETFREQ f` (R121): the clamped cutoff and its two coefficients; the memory is kept. -/
def execLadSetFreq (f : F32) (s : State) : StepResult :=
  whenInit (opcodeOf (.ladSetFreq f)) s.lad.init s <|
  whenAccepted (opcodeOf (.ladSetFreq f)) (acceptsNumber f) s <|
    let fc := fcClamp f s.lad.fs
    respond (opcodeOf (.ladSetFreq f)) fc.bits
      { s with lad := { s.lad with fc := fc, alpha := ladAlpha fc s.lad.fs, qadj := ladQadj fc s.lad.fs } }

/-- The feedback gain of a clamped resonance, `(res * 4.0) / 1.8` (R123). -/
def ladGain (res : F32) : F32 := (res.mul cfg.ladKMax).div cfg.ladResMax

/-- `LAD_SETRES r` (R123). -/
def execLadSetRes (r : F32) (s : State) : StepResult :=
  whenInit (opcodeOf (.ladSetRes r)) s.lad.init s <|
  whenAccepted (opcodeOf (.ladSetRes r)) (acceptsNumber r) s <|
    let res := resClamp r
    respond (opcodeOf (.ladSetRes r)) (ladGain res).bits
      { s with lad := { s.lad with res := res, k := ladGain res } }

/-- `LAD_SETMODE m` (R124): a code above 5 is clamped to 5; the recursion is untouched. -/
def execLadSetMode (m : BitVec 32) (s : State) : StepResult :=
  whenInit (opcodeOf (.ladSetMode m)) s.lad.init s <|
    respond (opcodeOf (.ladSetMode m)) ((modeCode (modeOf m)).setWidth 32)
      { s with lad := { s.lad with mode := modeOf m } }

/-- The output of one stage `LPF(x, i)` (R125). -/
def stageOut (l : LadState) (x : F32) (i : Fin 4) : F32 :=
  let ft := ((x.mul cfg.ladC1).add (cfg.ladC2.mul (memRead l.z0 i))).sub (memRead l.z1 i)
  (ft.mul l.alpha).add (memRead l.z1 i)

/-- The memory after one stage `LPF(x, i)` (R125): `z1[i]` its output, `z0[i]` its input. -/
def stageStore (l : LadState) (x : F32) (i : Fin 4) : LadState :=
  { l with z0 := memWrite l.z0 i x, z1 := memWrite l.z1 i (stageOut l x i) }

/-- The mode mix `MIX(mode, u, s1, s2, s3, s4)` (R127). -/
def mixTaps (mode : FilterMode) (u s1 s2 s3 s4 : F32) : F32 :=
  match mode with
  | .lp24 => s4
  | .lp12 => s2
  | .bp24 => ((s2.add s4).mul four).sub (s3.mul eight)
  | .bp12 => (s1.sub s2).mul two
  | .hp24 => ((u.add s4).sub ((s1.add s3).mul four)).add (s2.mul six)
  | .hp12 => (u.add s2).sub (s1.mul two)

/-- The saturated input node `u` of one pass (R126): the input interpolated from the new sample back toward the old
one, less the fed-back fourth stage. -/
def inputNode (l : LadState) (x interp : F32) : F32 :=
  let xin := (interp.mul l.oldin).add ((F32.one.sub interp).mul x)
  Config.num.tanh (xin.sub (((memRead l.z1 3).mul l.k).mul l.qadj))

/-- The first stage's output in a pass, its input being `u`; and the filter after that stage (R126). -/
def stage1 (l : LadState) (u : F32) : F32 := stageOut l u 0
def after1 (l : LadState) (u : F32) : LadState := stageStore l u 0
/-- The second stage's output, its input being the first's; and the filter after it. -/
def stage2 (l : LadState) (u : F32) : F32 := stageOut (after1 l u) (stage1 l u) 1
def after2 (l : LadState) (u : F32) : LadState := stageStore (after1 l u) (stage1 l u) 1
/-- The third stage's output; and the filter after it. -/
def stage3 (l : LadState) (u : F32) : F32 := stageOut (after2 l u) (stage2 l u) 2
def after3 (l : LadState) (u : F32) : LadState := stageStore (after2 l u) (stage2 l u) 2
/-- The fourth stage's output; and the filter after it. -/
def stage4 (l : LadState) (u : F32) : F32 := stageOut (after3 l u) (stage3 l u) 3
def after4 (l : LadState) (u : F32) : LadState := stageStore (after3 l u) (stage3 l u) 3

/-- The filter after one pass of the core recursion: the four stages in series (R126). -/
def passState (l : LadState) (x interp : F32) : LadState := after4 l (inputNode l x interp)

/-- The mix of the five taps of one pass (R126, R127). -/
def passMix (l : LadState) (x interp : F32) : F32 :=
  let u := inputNode l x interp
  mixTaps l.mode u (stage1 l u) (stage2 l u) (stage3 l u) (stage4 l u)

/-- The filter after `n` passes, each seeing the memory the one before it left (R126). -/
def passesState (x : F32) : Nat → LadState → F32 → LadState
  | 0, l, _ => l
  | n + 1, l, interp => passesState x n (passState l x interp) (interp.add quarter)

/-- The output after `n` passes: each adds a quarter of its mix (R126). -/
def passesTotal (x : F32) : Nat → LadState → F32 → F32 → F32
  | 0, _, _, total => total
  | n + 1, l, interp, total =>
    passesTotal x n (passState l x interp) (interp.add quarter) (total.add ((passMix l x interp).mul quarter))

/-- `LAD_PROCESS x` (R126): four passes from `interp = 0`, then the new sample becomes the old one. -/
def execLadProcess (x : F32) (s : State) : StepResult :=
  whenInit (opcodeOf (.ladProcess x)) s.lad.init s <|
  whenAccepted (opcodeOf (.ladProcess x)) (acceptsNumber x) s <|
    respond (opcodeOf (.ladProcess x)) (passesTotal x cfg.ladOs s.lad .zero .zero).bits
      { s with lad := { passesState x cfg.ladOs s.lad .zero with oldin := x } }

end Sys2Proof.Machine
end

