-- ==== Sys2Proof/Machine/Met.lean ====
section
/-! DEFINITION. `MET`, the phase-tick metronome (45_metronome.md). -/

namespace Sys2Proof.Machine

/-- `MET_INIT fs` (R195): stopped at phase 0. -/
def execMetInit (fs : F32) (s : State) : StepResult :=
  whenAccepted (opcodeOf (.metInit fs)) (acceptsRate fs) s <|
    respond (opcodeOf (.metInit fs)) fs.bits
      { s with met := { init := true, fs := fs, freq := .zero, inc := .zero, phase := .zero, tick := false } }

/-- `MET_SETFREQ f` (R196): clamped to `[0, fs / 2]`; the phase is kept. -/
def execMetSetFreq (f : F32) (s : State) : StepResult :=
  whenInit (opcodeOf (.metSetFreq f)) s.met.init s <|
  whenAccepted (opcodeOf (.metSetFreq f)) (acceptsNumber f) s <|
    let fr := metClamp f s.met.fs
    let inc := fr.div s.met.fs
    respond (opcodeOf (.metSetFreq f)) inc.bits { s with met := { s.met with freq := fr, inc := inc } }

/-- `MET_RESET` (R197): the phase alone; `TICK` is kept. -/
def execMetReset (s : State) : StepResult :=
  whenInit (opcodeOf .metReset) s.met.init s <|
    respond (opcodeOf .metReset) 0#32 { s with met := { s.met with phase := .zero } }

/-- `MET_PROCESS` (R198): advance first; a tick when the sum reaches 1.0, the phase keeping the remainder. -/
def execMetProcess (s : State) : StepResult :=
  whenInit (opcodeOf .metProcess) s.met.init s <|
    let x := s.met.phase.add s.met.inc
    if tickOf x then
      respond (opcodeOf .metProcess) 1#32 { s with met := { s.met with phase := x.sub .one, tick := true } }
    else
      respond (opcodeOf .metProcess) 0#32 { s with met := { s.met with phase := x, tick := false } }

/-- `MET_GETPHASE` (R200): a pure read. -/
def execMetGetPhase (s : State) : StepResult :=
  whenInit (opcodeOf .metGetPhase) s.met.init s <|
    respond (opcodeOf .metGetPhase) s.met.phase.bits s

end Sys2Proof.Machine
end

