-- ==== Sys2Proof/Machine/Osc.lean ====
section
/-! DEFINITION. `OSC`, the phase-accumulator oscillator (40_oscillator.md). The waveform formulas, the polyBLEP
polynomial and the end-of-rise test are the rules' own, which the spec marks as general knowledge (log entry 12). -/

namespace Sys2Proof.Machine

/-- `OSC_INIT fs` (R101). -/
def execOscInit (fs : F32) (s : State) : StepResult :=
  whenAccepted (opcodeOf (.oscInit fs)) (acceptsRate fs) s <|
    respond (opcodeOf (.oscInit fs)) fs.bits
      { s with osc := { init := true, fs := fs, freq := .zero, inc := .zero, wave := .sine, phase := .zero,
                        last := .zero, eoc := false, eor := false } }

/-- `OSC_SETFREQ f` (R102): no clamp of a finite frequency. -/
def execOscSetFreq (f : F32) (s : State) : StepResult :=
  whenInit (opcodeOf (.oscSetFreq f)) s.osc.init s <|
  whenAccepted (opcodeOf (.oscSetFreq f)) (acceptsNumber f) s <|
    let inc := f.div s.osc.fs
    respond (opcodeOf (.oscSetFreq f)) inc.bits { s with osc := { s.osc with freq := f, inc := inc } }

/-- `OSC_SETWAVE w` (R103): a code above 7 is clamped to 7. -/
def execOscSetWave (w : BitVec 32) (s : State) : StepResult :=
  whenInit (opcodeOf (.oscSetWave w)) s.osc.init s <|
    respond (opcodeOf (.oscSetWave w)) ((waveCode (waveOf w)).setWidth 32)
      { s with osc := { s.osc with wave := waveOf w } }

/-- `OSC_PHASEADD d` (R104): cycles are added to the accumulator and wrapped at once; no flag changes. -/
def execOscPhaseAdd (d : F32) (s : State) : StepResult :=
  whenInit (opcodeOf (.oscPhaseAdd d)) s.osc.init s <|
  whenAccepted (opcodeOf (.oscPhaseAdd d)) (acceptsNumber d) s <|
    let p := (s.osc.phase.add d).wrap1
    respond (opcodeOf (.oscPhaseAdd d)) p.bits { s with osc := { s.osc with phase := p } }

/-- The polyBLEP correction `PB(dt, t)` (R105): `dt` the phase increment, `t` the phase position. -/
def polyBlep (dt t : F32) : F32 :=
  if t.lt dt then
    let u := t.div dt
    ((u.add u).sub (u.mul u)).sub .one
  else if t.gt (F32.one.sub dt) then
    let u := (t.sub .one).div dt
    (((u.mul u).add u).add u).add .one
  else .zero

/-- `SQ(p)` (R106): `1.0` on the first half of the cycle, `-1.0` on the second. -/
def squareOf (p : F32) : F32 := if p.lt cfg.oscPw then .one else minusOne

/-- The square with a correction at each of its two edges, shared by `PB_TRI` and `PB_SQUARE` (R106). -/
def blepSquare (dt p : F32) : F32 :=
  ((squareOf p).add (polyBlep dt p)).sub (polyBlep dt (p.add half).wrap1)

/-- `y` of `PB_TRI`: the leaky integral of the corrected square (R106). DESIGN CHOICE (log entry 21): R109 (b) says that for
every `inc < 0` the factor `1.0 - dt` is above 1 and the memory grows without bound; the pseudocode, each operation rounded
(R15), has the factor exactly 1.0 for `-2^-24 <= inc < 0`. The model follows the pseudocode. -/
def leakyIntegral (p dt last : F32) : F32 := (dt.mul (blepSquare dt p)).add ((F32.one.sub dt).mul last)

/-- `out` of `WAVE(w, p, dt, last)`: the output sample (R106). -/
def waveOut (w : Wave) (p dt last : F32) : F32 :=
  match w with
  | .sine => Config.num.sin (p.mul cfg.twoPi)
  | .tri => two.mul ((minusOne.add (two.mul p)).abs.sub half)
  | .saw => minusOne.mul ((p.mul two).sub .one)
  | .ramp => (p.mul two).sub .one
  | .square => squareOf p
  | .pbTri => (leakyIntegral p dt last).mul cfg.oscPbTriGain
  | .pbSaw => (((two.mul p).sub .one).sub (polyBlep dt p)).mul minusOne
  | .pbSquare => (blepSquare dt p).mul cfg.oscPbSqGain

/-- `last'` of `WAVE(w, p, dt, last)`: the integrator memory, which only `PB_TRI` changes (R106). -/
def waveLast (w : Wave) (p dt last : F32) : F32 :=
  match w with
  | .sine => last
  | .tri => last
  | .saw => last
  | .ramp => last
  | .square => last
  | .pbTri => leakyIntegral p dt last
  | .pbSaw => last
  | .pbSquare => last

/-- The phase after `ADV(p, dt)` (R107). With a very small `dt < 0` the rounded sum or `WRAP1` may leave the phase where it
is, though R109 (b) says that it runs backwards: the pseudocode is followed (log entry 21). -/
def advancePhase (p dt : F32) : F32 := (p.add dt).wrap1

/-- `OSC_PROCESS` (R108): the sample from the phase as it stands, then the advance `ADV` and its two flags (R107). -/
def execOscProcess (s : State) : StepResult :=
  whenInit (opcodeOf .oscProcess) s.osc.init s <|
    let pn := advancePhase s.osc.phase s.osc.inc
    respond (opcodeOf .oscProcess) (waveOut s.osc.wave s.osc.phase s.osc.inc s.osc.last).bits
      { s with osc := { s.osc with
        last := waveLast s.osc.wave s.osc.phase s.osc.inc s.osc.last, phase := pn,
        eoc := eocOf (s.osc.phase.add s.osc.inc), eor := eorOf pn s.osc.inc } }

end Sys2Proof.Machine
end

