-- ==== Sys2Proof/Machine/Prng.lean ====
section
/-! DEFINITION. The pseudo-random generator of `SEQ` and the three regeneration functions `GATES`, `PALETTE` and `CVS`
(44_sequencer.md R166 to R175). The generator state is a local value of a command, never a register (10_state.md R50). -/

namespace Sys2Proof.Machine

/-- The generator step `XS` (R166). -/
def xorshift (x0 : BitVec 32) : BitVec 32 :=
  let x1 := x0 ^^^ (x0 <<< 13)
  let x2 := x1 ^^^ (x1 >>> 17)
  x2 ^^^ (x2 <<< 5)

/-- `n` generator steps. -/
def xorshifts : Nat → BitVec 32 → BitVec 32
  | 0, x => x
  | n + 1, x => xorshifts n (xorshift x)

/-- `SEED(sd)` (R167): whitened, never zero, warmed up. -/
def seedState (sd : BitVec 32) : BitVec 32 :=
  let x := sd ^^^ cfg.prngMix
  xorshifts cfg.prngWarmup (if x = 0#32 then cfg.prngMix else x)

/-- The top 24 bits of a generator output. -/
def top24 (a : BitVec 32) : Nat := (a >>> 8).toNat

/-- `U1(a)`, in `(0, 1]` (R168). -/
def uniform1 (a : BitVec 32) : F32 := ((F32.ofInt (top24 a)).add .one).div twoPow24

/-- `U2(a)`, in `[0, 1)` (R168). -/
def uniform2 (a : BitVec 32) : F32 := (F32.ofInt (top24 a)).div twoPow24

/-- One Gaussian draw from two generator outputs (R172). -/
def gauss (a b : BitVec 32) : F32 :=
  (minusTwo.mul (Config.num.ln (uniform1 a))).sqrt.mul (Config.num.cos (cfg.twoPi.mul (uniform2 b)))

/-- The number of gates of a density (R170). -/
def gateCount (density : F32) : Nat := (density.mul thirtyTwo).roundi.toNat

/-- The place of gate `i` of `n`: `round(32 i / n) mod 32`, ties up (R170). -/
def gatePos (n i : Nat) : Nat := (64 * i + n) / (2 * n) % 32

/-- `GATES(density)` (R170): step `k` is gated when some gate has its place there. -/
def gatesOf (density : F32) : List Bool :=
  let n := gateCount density
  (List.range cfg.seqSteps).map fun k => (List.range n).any fun i => gatePos n i == k

/-- One palette value: the Gaussian draw about the bias, clamped to `[0, 1]` (R173). -/
def paletteValue (bias : F32) (a b : BitVec 32) : F32 := clampUnit (bias.add (cfg.seqSigma.mul (gauss a b)))

/-- The next `n` palette values in draw order, two generator steps each (R173). -/
def paletteDraws (bias : F32) : Nat → BitVec 32 → List F32
  | 0, _ => []
  | n + 1, st =>
    let a := xorshift st
    let b := xorshift a
    paletteValue bias a b :: paletteDraws bias n b

/-- Insert `v` into a palette held last entry first: past every entry that `v` is below, from the top down (R173). -/
def insertFromTop (v : F32) : List F32 → List F32
  | [] => [v]
  | x :: xs => if v.lt x then x :: insertFromTop v xs else v :: x :: xs

/-- The stable insertion sort on `<`, ascending (R173). -/
def sortAscending (vs : List F32) : List F32 := (vs.foldl (fun p v => insertFromTop v p) []).reverse

/-- `PALETTE(palseed, cpx, bias)` (R173): the sorted draws; the array holds `+0.0` beyond them. -/
def paletteOf (palseed : BitVec 32) (cpx : Nat) (bias : F32) : List F32 :=
  sortAscending (paletteDraws bias cpx (seedState palseed))

/-- `TOTALRUNS(cpx, spread)` (R174). -/
def totalRuns (cpx : Nat) (spread : F32) : Nat :=
  ((F32.ofInt cpx).add (spread.mul (F32.ofInt ((cfg.seqCpxMax : Int) - cpx)))).roundi.toNat

/-- Exchange two entries of an index list. -/
def swapAt (l : List Nat) (i j : Nat) : List Nat := (l.set i (l.getD j 0)).set j (l.getD i 0)

/-- The Fisher-Yates shuffle from entry `k` down to entry 1, one generator step for each swap (R174). -/
def shuffleDown : Nat → BitVec 32 → List Nat → List Nat
  | 0, _, l => l
  | k + 1, st, l =>
    let st' := xorshift st
    shuffleDown k st' (swapAt l (k + 1) (top24 st' % (k + 2)))

/-- `SHUFFLE(tr, cpx, cvseed)` (R174). -/
def shuffledRuns (tr cpx : Nat) (cvseed : BitVec 32) : List Nat :=
  shuffleDown (tr - 1) (seedState cvseed) ((List.range tr).map (· % cpx))

/-- The length of a run when `steps` steps and `runs` runs remain: their quotient, ties up (R175). -/
def runLength (steps runs : Nat) : Nat := (2 * steps + runs) / (2 * runs)

/-- The control voltages of the remaining runs, from step `step` on (R175). -/
def runValues (pal : Vector F32 32) : List Nat → Nat → List F32
  | [], _ => []
  | i :: rest, step =>
    let len := runLength (cfg.seqSteps - step) (rest.length + 1)
    List.replicate len (pal.toList.getD i .zero) ++ runValues pal rest (step + len)

/-- `CVS(pal, cpx, spread, cvseed)` (R175). -/
def cvsOf (pal : Vector F32 32) (cpx : Nat) (spread : F32) (cvseed : BitVec 32) : List F32 :=
  runValues pal (shuffledRuns (totalRuns cpx spread) cpx cvseed) 0

end Sys2Proof.Machine
end

