-- ==== Sys2Proof/Machine/Seq.lean ====
section
/-! DEFINITION. `SEQ`, the gate and control-voltage generator (44_sequencer.md R176 to R189). -/

namespace Sys2Proof.Machine

/-- Write all of `SEQ.gate` from the density register (R170, R180). -/
def regenGates (q : SeqState) : SeqState := { q with gate := vectorOf 32 false (gatesOf q.density) }

/-- `REGEN_CV` (R176): write all of `SEQ.cv` from the palette array and the registers. -/
def regenCv (q : SeqState) : SeqState :=
  { q with cv := vectorOf 32 .zero (cvsOf q.pal q.cpx.toNat q.spread q.cvseed) }

/-- `REGEN_PAL_CV` (R176): write all of `SEQ.pal` from the registers, then all of `SEQ.cv`. -/
def regenPalCv (q : SeqState) : SeqState :=
  regenCv { q with pal := vectorOf 32 .zero (paletteOf q.palseed q.cpx.toNat q.bias) }

/-- The bias after `SEQ_INIT`: `13.0 / 25.0` (R177). -/
abbrev biasMid : F32 := ⟨0x3F051EB8#32⟩

/-- The parameter registers after `SEQ_INIT` (R177), before the arrays are regenerated from them. -/
def seqDefaults (q : SeqState) : SeqState :=
  { q with init := true, len := 32, cpx := 1, density := .zero, spread := .zero, bias := biasMid, cvseed := 0,
           palseed := 0, cur := 0, gateflag := false }

/-- `SEQ_INIT` (R177). -/
def execSeqInit (s : State) : StepResult :=
  respond (opcodeOf .seqInit) 0#32 { s with seq := regenGates (regenPalCv (seqDefaults s.seq)) }

/-- `SEQ_SETLEN n` (R178): the cursor is reduced at once. -/
def execSeqSetLen (n : BitVec 32) (s : State) : StepResult :=
  whenInit (opcodeOf (.seqSetLen n)) s.seq.init s <|
    let l := clampCount cfg.seqLenMin cfg.seqLenMax n
    respond (opcodeOf (.seqSetLen n)) (BitVec.ofNat 32 l)
      { s with seq := { s.seq with len := BitVec.ofNat 6 l, cur := BitVec.ofNat 5 (s.seq.cur.toNat % l) } }

/-- `SEQ_SETCOMPLEXITY n` (R179). -/
def execSeqSetComplexity (n : BitVec 32) (s : State) : StepResult :=
  whenInit (opcodeOf (.seqSetComplexity n)) s.seq.init s <|
    let c := clampCount cfg.seqCpxMin cfg.seqCpxMax n
    respond (opcodeOf (.seqSetComplexity n)) (BitVec.ofNat 32 c)
      { s with seq := regenPalCv { s.seq with cpx := BitVec.ofNat 6 c } }

/-- `SEQ_SETDENSITY d` (R180): only the gates are regenerated. -/
def execSeqSetDensity (d : F32) (s : State) : StepResult :=
  whenInit (opcodeOf (.seqSetDensity d)) s.seq.init s <|
  whenAccepted (opcodeOf (.seqSetDensity d)) (acceptsNumber d) s <|
    respond (opcodeOf (.seqSetDensity d)) (clampUnit d).bits
      { s with seq := regenGates { s.seq with density := clampUnit d } }

/-- `SEQ_SETSPREAD s` (R181): only the control voltages are regenerated. -/
def execSeqSetSpread (x : F32) (s : State) : StepResult :=
  whenInit (opcodeOf (.seqSetSpread x)) s.seq.init s <|
  whenAccepted (opcodeOf (.seqSetSpread x)) (acceptsNumber x) s <|
    respond (opcodeOf (.seqSetSpread x)) (clampUnit x).bits
      { s with seq := regenCv { s.seq with spread := clampUnit x } }

/-- `SEQ_SETBIAS b` (R182). -/
def execSeqSetBias (b : F32) (s : State) : StepResult :=
  whenInit (opcodeOf (.seqSetBias b)) s.seq.init s <|
  whenAccepted (opcodeOf (.seqSetBias b)) (acceptsNumber b) s <|
    respond (opcodeOf (.seqSetBias b)) (quantBias b).bits
      { s with seq := regenPalCv { s.seq with bias := quantBias b } }

/-- `SEQ_SETCVSEED n` (R183): only the run assignment changes. -/
def execSeqSetCvSeed (n : BitVec 32) (s : State) : StepResult :=
  whenInit (opcodeOf (.seqSetCvSeed n)) s.seq.init s <|
    respond (opcodeOf (.seqSetCvSeed n)) n { s with seq := regenCv { s.seq with cvseed := n } }

/-- `SEQ_SETPALSEED n` (R184). -/
def execSeqSetPalSeed (n : BitVec 32) (s : State) : StepResult :=
  whenInit (opcodeOf (.seqSetPalSeed n)) s.seq.init s <|
    respond (opcodeOf (.seqSetPalSeed n)) n { s with seq := regenPalCv { s.seq with palseed := n } }

/-- `SEQ_REGENCV` (R185). -/
def execSeqRegenCv (s : State) : StepResult :=
  whenInit (opcodeOf .seqRegenCv) s.seq.init s <|
    respond (opcodeOf .seqRegenCv) 0#32 { s with seq := regenCv s.seq }

/-- `SEQ_PROCESS` (R187): the step under the cursor, then the cursor advances modulo the length. -/
def execSeqProcess (s : State) : StepResult :=
  whenInit (opcodeOf .seqProcess) s.seq.init s <|
    respond (opcodeOf .seqProcess) (memRead s.seq.cv s.seq.cur.toFin).bits
      { s with seq := { s.seq with
        gateflag := memRead s.seq.gate s.seq.cur.toFin,
        cur := BitVec.ofNat 5 ((s.seq.cur.toNat + 1) % s.seq.len.toNat) } }

/-- `SEQ_READCV i` (R188): a pure read. -/
def execSeqReadCv (idx : BitVec 32) (s : State) : StepResult :=
  whenInit (opcodeOf (.seqReadCv idx)) s.seq.init s <|
  whenAccepted (opcodeOf (.seqReadCv idx)) (acceptsIndex idx) s <|
    respond (opcodeOf (.seqReadCv idx)) (memRead s.seq.cv (Fin.ofNat 32 idx.toNat)).bits s

/-- The 32 gates as a mask, bit `i` being step `i` (R189; 20_memory.md R62). -/
def gateMask (gate : Vector Bool 32) : BitVec 32 :=
  BitVec.ofNat 32 ((List.range 32).map (fun i => if gate.toList.getD i false then 2 ^ i else 0)).sum

/-- `SEQ_READGATES` (R189): a pure read. -/
def execSeqReadGates (s : State) : StepResult :=
  whenInit (opcodeOf .seqReadGates) s.seq.init s <|
    respond (opcodeOf .seqReadGates) (gateMask s.seq.gate) s

end Sys2Proof.Machine
end

