-- ==== Sys2Proof/Machine/Dispatch.lean ====
section
/-! DEFINITION. One arm per command: the meaning of each (00_scope.md R23). -/

namespace Sys2Proof.Machine

/-- Execute one command, completely (00_scope.md R13, R23). -/
def exec (i : Instr) (s : State) : Host.Outcome State Fault Refusal :=
  match i with
  | .nop => Sys2Proof.Machine.execNop s
  | .getStatus => Sys2Proof.Machine.execGetStatus s
  | .oscInit fs => Sys2Proof.Machine.execOscInit fs s
  | .oscSetFreq f => Sys2Proof.Machine.execOscSetFreq f s
  | .oscSetWave w => Sys2Proof.Machine.execOscSetWave w s
  | .oscPhaseAdd d => Sys2Proof.Machine.execOscPhaseAdd d s
  | .oscProcess => Sys2Proof.Machine.execOscProcess s
  | .ladInit fs => Sys2Proof.Machine.execLadInit fs s
  | .ladSetFreq f => Sys2Proof.Machine.execLadSetFreq f s
  | .ladSetRes r => Sys2Proof.Machine.execLadSetRes r s
  | .ladSetMode m => Sys2Proof.Machine.execLadSetMode m s
  | .ladProcess x => Sys2Proof.Machine.execLadProcess x s
  | .envxInit fs => Sys2Proof.Machine.execEnvxInit fs s
  | .envxSetCtl c => Sys2Proof.Machine.execEnvxSetCtl c s
  | .envxSetKnob x => Sys2Proof.Machine.execEnvxSetKnob x s
  | .envxTrigger => Sys2Proof.Machine.execEnvxTrigger s
  | .envxProcess => Sys2Proof.Machine.execEnvxProcess s
  | .envlInit fs => Sys2Proof.Machine.execEnvlInit fs s
  | .envlSetTime t => Sys2Proof.Machine.execEnvlSetTime t s
  | .envlTrigger => Sys2Proof.Machine.execEnvlTrigger s
  | .envlProcess => Sys2Proof.Machine.execEnvlProcess s
  | .seqInit => Sys2Proof.Machine.execSeqInit s
  | .seqSetLen n => Sys2Proof.Machine.execSeqSetLen n s
  | .seqSetComplexity n => Sys2Proof.Machine.execSeqSetComplexity n s
  | .seqSetDensity d => Sys2Proof.Machine.execSeqSetDensity d s
  | .seqProcess => Sys2Proof.Machine.execSeqProcess s
  | .seqSetSpread x => Sys2Proof.Machine.execSeqSetSpread x s
  | .seqSetBias b => Sys2Proof.Machine.execSeqSetBias b s
  | .seqSetCvSeed n => Sys2Proof.Machine.execSeqSetCvSeed n s
  | .seqSetPalSeed n => Sys2Proof.Machine.execSeqSetPalSeed n s
  | .seqRegenCv => Sys2Proof.Machine.execSeqRegenCv s
  | .seqReadCv idx => Sys2Proof.Machine.execSeqReadCv idx s
  | .seqReadGates => Sys2Proof.Machine.execSeqReadGates s
  | .metInit fs => Sys2Proof.Machine.execMetInit fs s
  | .metSetFreq f => Sys2Proof.Machine.execMetSetFreq f s
  | .metReset => Sys2Proof.Machine.execMetReset s
  | .metProcess => Sys2Proof.Machine.execMetProcess s
  | .metGetPhase => Sys2Proof.Machine.execMetGetPhase s

end Sys2Proof.Machine
end

