-- ==== Sys2Proof/Machine/Step.lean ====
section
/-! DEFINITION. One step: what the block does with the next thing the host does at its port (30_encoding.md R75;
20_memory.md R68; 70_reset_and_hazards.md R241, R243). -/

namespace Sys2Proof.Machine

/-- Take the next host event. A command word is executed whole, or answered `BADCMD` where it is none; `rst` resets; with
nothing presented the block holds its state and `rsp_valid` is 0 (60_exceptions.md R233; log entry 2). -/
def step (s : State) : Host.Outcome State Fault Refusal :=
  match s.port.inbox with
  | [] => .next { s with port := { s.port with rsp := none } }
  | .reset _ :: rest => .next (hardwareReset { s with port := { s.port with inbox := rest } })
  | .command w :: rest =>
    match decode w with
    | .ok i => exec i { s with port := { s.port with inbox := rest } }
    | .error _ => refuseBadCommand w { s with port := { s.port with inbox := rest } }

/-- `s` with the command word of the given bits presented next at the command port, before what the host already has
in mind: the block has no program counter and no program store (10_state.md R33; log entry 1). -/
def State.withFetchWord (s : State) (nbits w : Nat) : State :=
  { s with port := { s.port with inbox := .command (BitVec.ofNat 64 (w % 2 ^ nbits)) :: s.port.inbox } }

end Sys2Proof.Machine
end

