-- ==== Sys2Proof/Safety.lean ====
section
/-! DEFINITION. The terms that claims about the block use: what a response says, what an accepted and a refused command
leave alone, which states keep the invariants of 10_state.md, and what a clean run is. -/

namespace Sys2Proof.Machine

/-! ### The fields of a response word (30_encoding.md R84) -/

/-- `RSP[63:56]`, the echo of the opcode. -/
def rspOp (w : RspWord) : BitVec 8 := w.extractLsb' 56 8
/-- `RSP[55:48]`, the outcome code. -/
def rspCode (w : RspWord) : BitVec 8 := w.extractLsb' 48 8
/-- `RSP[47:40]`, `STATUS`. -/
def rspStatus (w : RspWord) : BitVec 8 := w.extractLsb' 40 8
/-- `RSP[39:32]`, always zero. -/
def rspZero (w : RspWord) : BitVec 8 := w.extractLsb' 32 8
/-- `RSP[31:0]`, the datum. -/
def rspData (w : RspWord) : BitVec 32 := w.extractLsb' 0 32

/-- From `s` to `t` the block gave exactly one response, with this opcode, code and datum, a zero byte, and the `STATUS`
of `t`; the host's further events are untouched. -/
def Answered (s t : State) (op code : BitVec 8) (data : BitVec 32) : Prop :=
  t.port.inbox = s.port.inbox ∧
  ∃ w, t.port.rsp = some w ∧ t.port.log = s.port.log ++ [w] ∧
    rspOp w = op ∧ rspCode w = code ∧ rspStatus w = t.status ∧ rspZero w = 0 ∧ rspData w = data

/-! ### Units and what a command leaves alone -/

/-- The unit selectors that are in use (30_encoding.md R79). -/
inductive UnitId where
  | control
  | osc
  | lad
  | envx
  | envl
  | seq
  | met
deriving DecidableEq, Repr

/-- The unit a command belongs to (R79). -/
def unitOf : Instr → UnitId
  | .nop | .getStatus => .control
  | .oscInit _ | .oscSetFreq _ | .oscSetWave _ | .oscPhaseAdd _ | .oscProcess => .osc
  | .ladInit _ | .ladSetFreq _ | .ladSetRes _ | .ladSetMode _ | .ladProcess _ => .lad
  | .envxInit _ | .envxSetCtl _ | .envxSetKnob _ | .envxTrigger | .envxProcess => .envx
  | .envlInit _ | .envlSetTime _ | .envlTrigger | .envlProcess => .envl
  | .seqInit | .seqSetLen _ | .seqSetComplexity _ | .seqSetDensity _ | .seqProcess | .seqSetSpread _
  | .seqSetBias _ | .seqSetCvSeed _ | .seqSetPalSeed _ | .seqRegenCv | .seqReadCv _ | .seqReadGates => .seq
  | .metInit _ | .metSetFreq _ | .metReset | .metProcess | .metGetPhase => .met

/-- The six `*_INIT` commands. -/
def isInitCommand : Instr → Bool
  | .oscInit _ | .ladInit _ | .envxInit _ | .envlInit _ | .seqInit | .metInit _ => true
  | _ => false

/-- The `init` bit of a unit (10_state.md R31); the global commands need none. -/
def State.initOf (s : State) : UnitId → Bool
  | .control => true
  | .osc => s.osc.init
  | .lad => s.lad.init
  | .envx => s.envx.init
  | .envl => s.envl.init
  | .seq => s.seq.init
  | .met => s.met.init

/-- Every register and array of every unit but `u` is in `t` what it is in `s`. -/
def KeepsUnitsBut (u : UnitId) (s t : State) : Prop :=
  (u ≠ .osc → t.osc = s.osc) ∧ (u ≠ .lad → t.lad = s.lad) ∧ (u ≠ .envx → t.envx = s.envx) ∧
  (u ≠ .envl → t.envl = s.envl) ∧ (u ≠ .seq → t.seq = s.seq) ∧ (u ≠ .met → t.met = s.met)

/-- Every register and array of every unit is in `t` what it is in `s`. -/
def SameUnits (s t : State) : Prop := KeepsUnitsBut .control s t

/-- `s` to `t` is an accepted command of unit `u`: code `OK`, this datum, no other unit touched, `ERR` as it was. -/
def Accepted (u : UnitId) (s t : State) (op : BitVec 8) (data : BitVec 32) : Prop :=
  Answered s t op 0x00 data ∧ KeepsUnitsBut u s t ∧ t.err = s.err

/-- `s` to `t` is a refused command: no unit changed, `ERR` set, zero data (60_exceptions.md R221). -/
def Refused (s t : State) (op code : BitVec 8) : Prop :=
  Answered s t op code 0 ∧ SameUnits s t ∧ t.err = true

/-- `s` and `t` hold the same registers and arrays in unit `u`. -/
def SameUnit (u : UnitId) (s t : State) : Prop :=
  match u with
  | .control => True
  | .osc => s.osc = t.osc
  | .lad => s.lad = t.lad
  | .envx => s.envx = t.envx
  | .envl => s.envl = t.envl
  | .seq => s.seq = t.seq
  | .met => s.met = t.met

/-- The setters: the commands that store a parameter (20_memory.md R65). `OSC_PHASEADD` accumulates and is none. -/
def isSetter : Instr → Bool
  | .oscSetFreq _ | .oscSetWave _ | .ladSetFreq _ | .ladSetRes _ | .ladSetMode _ | .envxSetCtl _ | .envxSetKnob _
  | .envlSetTime _ | .seqSetLen _ | .seqSetComplexity _ | .seqSetDensity _ | .seqSetSpread _ | .seqSetBias _
  | .seqSetCvSeed _ | .seqSetPalSeed _ | .metSetFreq _ => true
  | _ => false

/-- The step that takes the command word `w`, presented before whatever the host already has in mind. -/
def stepOnWord (s : State) (w : CmdWord) : StepResult :=
  step { s with port := { s.port with inbox := .command w :: s.port.inbox } }

/-! ### The outcome code of a word, read from the word and the `init` bits alone -/

/-- The opcodes of the six `*_INIT` commands (30_encoding.md R80). -/
def initOpcodes : List (BitVec 8) := [0x10, 0x20, 0x30, 0x40, 0x50, 0x60]
/-- The opcodes of the five `*_INIT` commands with a sample rate (60_exceptions.md R225 (b)). -/
def rateOpcodes : List (BitVec 8) := [0x10, 0x20, 0x30, 0x40, 0x60]

/-- The `init` bit of the unit that an opcode selects by its high four bits (30_encoding.md R79). -/
def selectedInit (s : State) (op : BitVec 8) : Bool :=
  match op.toNat / 16 with
  | 1 => s.osc.init
  | 2 => s.lad.init
  | 3 => s.envx.init
  | 4 => s.envl.init
  | 5 => s.seq.init
  | 6 => s.met.init
  | _ => true

/-- The operand is outside what the command can take: the three causes of `BADARG` (60_exceptions.md R225). -/
def operandRejected (w : CmdWord) : Bool :=
  (f32Opcodes.contains w.op && w.arg.extractLsb' 23 8 == 0xFF#8) ||
  (rateOpcodes.contains w.op && F32.lt ⟨w.arg⟩ .one) ||
  (w.op == 0x5A#8 && decide (31 < w.arg.toNat))

/-- The code a word is answered with, by the order of tests of 60_exceptions.md R226. -/
def outcomeOf (s : State) (w : CmdWord) : BitVec 8 :=
  if wellFormed w = false then 0x01
  else if selectedInit s w.op = false ∧ w.op ∉ initOpcodes then 0x02
  else if operandRejected w then 0x03
  else 0x00

/-! ### Two computations as relations, in the rules' own words -/

/-- `XCOEF(c, fs) = (coef, dir)` (42_envelope_exponential.md R141). -/
def XCoef (c fs coef : F32) (dir : Bool) : Prop :=
  ∃ cc traw time : F32, cc = c.clamp ⟨0xBF800000#32⟩ ⟨0x3F800000#32⟩ ∧
    traw = (Config.num.pow cc.abs Config.timeExp.val).mul ⟨0x41A00000#32⟩ ∧
    (traw.lt (F32.one.div fs) = true → time = F32.one.div fs) ∧
    (traw.lt (F32.one.div fs) = false → time = traw) ∧
    coef = Config.num.exp (F32.div ⟨0xC1280000#32⟩ (time.mul fs)) ∧
    (dir = true ↔ cc.lt .zero = true)

/-- One stage `LPF` as an equation: its output from its input and its two memory cells (41_ladder_filter.md R125). -/
def stageEquation (alpha z0 z1 x : F32) : F32 :=
  ((((x.mul ⟨0x3F44EC4F#32⟩).add (F32.mul ⟨0x3E6C4EC6#32⟩ z0)).sub z1).mul alpha).add z1

/-- One pass of the filter core as a relation: the four stages see the memory the pass found, and each leaves its input
and its output in it (41_ladder_filter.md R125 to R127). -/
def LadPass (l l' : LadState) (x interp mix : F32) : Prop :=
  ∃ u s1 s2 s3 s4 : F32,
    u = Config.num.tanh (((interp.mul l.oldin).add ((F32.one.sub interp).mul x)).sub
      ((l.z1[3].mul l.k).mul l.qadj)) ∧
    s1 = stageEquation l.alpha l.z0[0] l.z1[0] u ∧ s2 = stageEquation l.alpha l.z0[1] l.z1[1] s1 ∧
    s3 = stageEquation l.alpha l.z0[2] l.z1[2] s2 ∧ s4 = stageEquation l.alpha l.z0[3] l.z1[3] s3 ∧
    l' = { l with z0 := #v[u, s1, s2, s3], z1 := #v[s1, s2, s3, s4] } ∧
    (l.mode = .lp24 → mix = s4) ∧ (l.mode = .lp12 → mix = s2) ∧
    (l.mode = .bp24 → mix = ((s2.add s4).mul ⟨0x40800000#32⟩).sub (s3.mul ⟨0x41000000#32⟩)) ∧
    (l.mode = .bp12 → mix = (s1.sub s2).mul ⟨0x40000000#32⟩) ∧
    (l.mode = .hp24 → mix = ((u.add s4).sub ((s1.add s3).mul ⟨0x40800000#32⟩)).add (s2.mul ⟨0x40C00000#32⟩)) ∧
    (l.mode = .hp12 → mix = (u.add s2).sub (s1.mul ⟨0x40000000#32⟩))

/-! ### The invariants of 10_state.md, one for each unit -/

/-- A sample rate as an `*_INIT` stores it (R32). -/
def RateOk (fs : F32) : Prop := fs.isFinite ∧ F32.one.le fs

/-- R38, first sentence; `wave <= 7` holds by the type. -/
def OscInv (o : OscState) : Prop :=
  o.init = true → RateOk o.fs ∧ o.freq.isFinite ∧ o.inc.isFinite ∧
    o.phase.isFinite ∧ F32.zero.le o.phase ∧ o.phase.lt .one

/-- R40; `mode <= 5` holds by the type. -/
def LadInv (l : LadState) : Prop :=
  l.init = true → RateOk l.fs ∧ l.fc.within ⟨0x40A00000#32⟩ (F32.max ⟨0x40A00000#32⟩ (l.fs.mul ⟨0x3ED9999A#32⟩)) ∧
    l.res.within .zero ⟨0x3FE66666#32⟩ ∧ l.k.within .zero ⟨0x40800000#32⟩

/-- The two coefficients are finite, which 41_ladder_filter.md R128 (P1) uses without saying it. -/
def LadCoefsFinite (l : LadState) : Prop := l.init = true → l.alpha.isFinite ∧ l.qadj.isFinite

/-- R43, the `ENVX` part, with R32. -/
def EnvxInv (e : EnvxState) : Prop :=
  e.init = true → RateOk e.fs ∧ e.value.within .zero .one ∧ e.coef.within .zero .one

/-- R43, the `ENVL` part, with R32. -/
def EnvlInv (e : EnvlState) : Prop :=
  e.init = true → RateOk e.fs ∧ e.value.within .zero .one ∧ e.value ≠ .negZero ∧ e.rate.within .zero .one

/-- R45: the ranges of the registers, and the arrays as the functions of the registers that they are. -/
def SeqInv (q : SeqState) : Prop :=
  q.init = true → (1 ≤ q.len.toNat ∧ q.len.toNat ≤ 32) ∧ (1 ≤ q.cpx.toNat ∧ q.cpx.toNat ≤ 32) ∧
    q.cur.toNat < q.len.toNat ∧ q.density.within .zero .one ∧ q.spread.within .zero .one ∧
    (∃ k : Nat, k ≤ 25 ∧ q.bias = (F32.ofInt k).div ⟨0x41C80000#32⟩) ∧
    q.gate = vectorOf 32 false (gatesOf q.density) ∧
    q.pal = vectorOf 32 .zero (paletteOf q.palseed q.cpx.toNat q.bias) ∧
    q.cv = vectorOf 32 .zero (cvsOf q.pal q.cpx.toNat q.spread q.cvseed)

/-- R47. -/
def MetInv (m : MetState) : Prop :=
  m.init = true → RateOk m.fs ∧ m.freq.isFinite ∧ m.freq.within .zero (m.fs.mul ⟨0x3F000000#32⟩) ∧
    m.inc.isFinite ∧ m.inc.within .zero ⟨0x3F000000#32⟩ ∧
    m.phase.isFinite ∧ F32.zero.le m.phase ∧ m.phase.lt .one

/-- All six. -/
def Inv (s : State) : Prop :=
  OscInv s.osc ∧ LadInv s.lad ∧ EnvxInv s.envx ∧ EnvlInv s.envl ∧ SeqInv s.seq ∧ MetInv s.met

/-! ### Runs -/

/-- The run of a list of command words from `s`: the fold of the step over the list (00_scope.md R23). -/
def runWords (s : State) (ws : List CmdWord) : StepResult :=
  core.run ws.length { s with port := { s.port with inbox := ws.map HostEvent.command } }

/-- A run in which no command was refused (10_state.md R48; 60_exceptions.md R222). -/
def CleanRun (s : State) (ws : List CmdWord) : Prop :=
  ∃ t, runWords s ws = .next t ∧ t.err = false

end Sys2Proof.Machine
end

