-- ==== Sys2Proof/Certificates/Slice0/Obligations.lean ====
section
/-! DEFINITION. What is claimed of the block: the statements for the provers, from the numbered rules of the spec. -/

section
open Sys2Proof Sys2Proof.Machine

/-! ### Encoding -/

/-- Decoding the word of any command gives the command back, whatever its operand (30_encoding.md R76, R77, R80). -/
def Obligations.DecodeInvertsEncode : Prop :=
  ∀ i : Instr, decode (encode i) = .ok i

/-- A word that decodes is the word of the command it decodes to: each command has one word (R76, R82, R83). -/
def Obligations.EncodeInvertsDecode : Prop :=
  ∀ (w : CmdWord) (i : Instr), decode w = .ok i → encode i = w

/-- The decoder accepts exactly the well-formed words, and names the first of the three checks that fails
(60_exceptions.md R223). -/
def Obligations.DecodeAcceptsExactlyWellFormed : Prop :=
  ∀ w : CmdWord,
    ((∃ i, decode w = .ok i) ↔ wellFormed w = true) ∧
    (decode w = .error .reservedOpcode ↔ opcodeListed w = false) ∧
    (decode w = .error .reservedField ↔ opcodeListed w = true ∧ w.rsv ≠ 0#24) ∧
    (decode w = .error .strayOperand ↔ w.op ∈ noneOpcodes ∧ w.rsv = 0#24 ∧ w.arg ≠ 0#32)

/-- The decode predicates: a command of type `none` matches on all 64 bits and with `arg != 0` is refused with
`BADCMD`; one of type `f32` or `u32` matches on the high 32 bits (30_encoding.md R83). -/
def Obligations.DecodePredicates : Prop :=
  ∀ (i : Instr) (w : CmdWord),
    (operandTypeOf i = .none →
      (decode w = .ok i ↔ w &&& 0xFFFFFFFFFFFFFFFF#64 = (opcodeOf i).setWidth 64 <<< 56)) ∧
    (operandTypeOf i = .none → ∀ s : State, w.op = opcodeOf i → w.rsv = 0#24 → w.arg ≠ 0#32 →
      ∃ t, stepOnWord s w = .next t ∧ Refused s t w.op 0x01) ∧
    (operandTypeOf i ≠ .none →
      ((∃ j, opcodeOf j = opcodeOf i ∧ decode w = .ok j) ↔
        w &&& 0xFFFFFFFF00000000#64 = (opcodeOf i).setWidth 64 <<< 56))

/-- Words written out in the spec decode to the commands they stand for. -/
def Obligations.SpecWordsDecode : Prop :=
  decode 0x0000000000000000#64 = .ok .nop ∧
  decode 0x10000000473B8000#64 = .ok (.oscInit ⟨0x473B8000#32⟩) ∧
  decode 0x1200000000000006#64 = .ok (.oscSetWave 6#32) ∧
  decode 0x220000003FE66666#64 = .ok (.ladSetRes ⟨0x3FE66666#32⟩) ∧
  decode 0x3300000000000000#64 = .ok .envxTrigger ∧
  decode 0x410000003F800000#64 = .ok (.envlSetTime ⟨0x3F800000#32⟩) ∧
  decode 0x5A00000000000008#64 = .ok (.seqReadCv 8#32) ∧
  decode 0x6100000040000000#64 = .ok (.metSetFreq ⟨0x40000000#32⟩) ∧
  decode 0xFF00000000000000#64 = .error .reservedOpcode ∧
  decode 0x1100000100000000#64 = .error .reservedField ∧
  decode 0x1400000000000001#64 = .error .strayOperand

/-! ### The step, responses, refusals -/

/-- A step that takes the word of a command is that command's execution in the same state; so is a step that finds any
word that decodes (00_scope.md R23; 20_memory.md R71). -/
def Obligations.StepRunsDecodedCommand : Prop :=
  (∀ (s : State) (w : CmdWord) (i : Instr) (rest : List HostEvent), s.port.inbox = .command w :: rest →
    decode w = .ok i → step s = exec i { s with port := { s.port with inbox := rest } }) ∧
  (∀ (s : State) (i : Instr), stepOnWord s (encode i) = exec i s ∧
    step (s.withFetchWord 64 (encode i).toNat) = exec i s)

/-- `BADCMD` is the answer exactly when one of its three causes holds, in every state, and then nothing but `ERR`
changes (60_exceptions.md R223, with its four examples). -/
def Obligations.MalformedWordAnswersBadCmd : Prop :=
  (∀ (s : State) (w : CmdWord),
    (w.op ∉ noneOpcodes ++ f32Opcodes ++ u32Opcodes ∨ w.rsv ≠ 0#24 ∨ (w.op ∈ noneOpcodes ∧ w.arg ≠ 0#32)) ↔
      ∃ t r, stepOnWord s w = .next t ∧ t.port.rsp = some r ∧ rspCode r = 0x01 ∧ Refused s t w.op 0x01) ∧
  (noneOpcodes ++ f32Opcodes ++ u32Opcodes).length = 38 ∧
  (∃ t, stepOnWord .reset 0xFF00000000000000#64 = .next t ∧ t.port.rsp = some 0xFF01800000000000#64) ∧
  (∃ t, stepOnWord .reset 0x4200000000000000#64 = .next t ∧ t.port.rsp = some 0x4201800000000000#64) ∧
  (∃ t, stepOnWord .reset 0x1400000000000001#64 = .next t ∧ t.port.rsp = some 0x1401800000000000#64) ∧
  (∃ t, stepOnWord .reset 0x1100000100000000#64 = .next t ∧ t.port.rsp = some 0x1101800000000000#64)

/-- Every one of the 2^64 words is answered, by one response in the one format, with the code that the order of tests
gives (60_exceptions.md R224 to R226; 30_encoding.md R84, R85). -/
def Obligations.OrderOfTests : Prop :=
  ∀ (s : State) (w : CmdWord), ∃ t data, stepOnWord s w = .next t ∧ Answered s t w.op (outcomeOf s w) data ∧
    (outcomeOf s w ≠ 0x00 → data = 0#32 ∧ t.status.getLsbD 7 = true)

/-- A refused command changes no state whatever except `S.err`; its response has the five fields the rule gives; the
next command is taken as usual; the codes are 1, 2 and 3 (60_exceptions.md R221). -/
def Obligations.RefusalChangesOnlyErr : Prop :=
  ∀ (s : State) (w : CmdWord), ∃ t r, stepOnWord s w = .next t ∧ t.port.rsp = some r ∧
    (rspCode r = 0x00 ∨
      ((rspCode r = 0x01 ∨ rspCode r = 0x02 ∨ rspCode r = 0x03) ∧
        t = { s with err := true, port := t.port } ∧ rspOp r = w.op ∧ rspStatus r = t.status ∧
        t.status.getLsbD 7 = true ∧ rspZero r = 0x00 ∧ rspData r = 0#32 ∧
        ∀ i : Instr, stepOnWord t (encode i) = exec i { s with err := true, port := t.port }))

/-- The error bit is 0 after reset, is set by every refused command, is cleared by no command and by no step but reset, and
at the end of a list of commands tells whether every one of them was accepted (10_state.md R48; 60_exceptions.md R222). -/
def Obligations.ErrBitIsSticky : Prop :=
  State.reset.err = false ∧
  (∀ (s t : State) (w : CmdWord) (r : RspWord), stepOnWord s w = .next t → t.port.rsp = some r →
    (rspCode r ≠ 0x00 → t.err = true) ∧ (rspCode r = 0x00 → t.err = s.err)) ∧
  (∀ s t : State, s.err = true → (∀ c rest, s.port.inbox ≠ .reset c :: rest) → step s = .next t → t.err = true) ∧
  (∀ (s : State) (c : Option CmdWord) (rest : List HostEvent), s.port.inbox = .reset c :: rest →
    ∃ t, step s = .next t ∧ t.err = false) ∧
  (∀ (ws : List CmdWord) (s t : State), s.err = false → runWords s ws = .next t →
    (t.err = false ↔ ∀ r ∈ t.port.log.drop s.port.log.length, rspCode r = 0x00))

/-- Commands are executed one at a time, in the order presented, each to completion, and answered in that order, one
response for each (20_memory.md R68; 70_reset_and_hazards.md R243). -/
def Obligations.CommandListAnsweredInOrder : Prop :=
  ∀ (s : State) (ws : List CmdWord), ∃ t rs, runWords s ws = .next t ∧ t.port.inbox = [] ∧
    t.port.log = s.port.log ++ rs ∧ rs.map rspOp = ws.map CmdWord.op ∧
    ∀ w : CmdWord, runWords s (ws ++ [w]) = stepOnWord t w

/-- The state after reset, register by register, and all that a host can observe of it
(70_reset_and_hazards.md R240). -/
def Obligations.ResetState : Prop :=
  State.reset.osc = { init := false, fs := ⟨0#32⟩, freq := ⟨0#32⟩, inc := ⟨0#32⟩, wave := .sine, phase := ⟨0#32⟩,
                      last := ⟨0#32⟩, eoc := false, eor := false } ∧
  waveCode State.reset.osc.wave = 0#3 ∧
  State.reset.lad = { init := false, fs := ⟨0#32⟩, fc := ⟨0#32⟩, res := ⟨0#32⟩, k := ⟨0#32⟩, alpha := ⟨0#32⟩,
                      qadj := ⟨0#32⟩, mode := .lp24, z0 := .replicate 4 ⟨0#32⟩, z1 := .replicate 4 ⟨0#32⟩,
                      oldin := ⟨0#32⟩ } ∧
  modeCode State.reset.lad.mode = 0#3 ∧
  State.reset.envx = { init := false, fs := ⟨0#32⟩, value := ⟨0#32⟩, coef := ⟨0#32⟩, dir := false, hold := false } ∧
  State.reset.envl = { init := false, fs := ⟨0#32⟩, value := ⟨0#32⟩, rate := ⟨0#32⟩ } ∧
  State.reset.seq = { init := false, len := 0, cpx := 0, density := ⟨0#32⟩, spread := ⟨0#32⟩, bias := ⟨0#32⟩,
                      cvseed := 0, palseed := 0, cur := 0, gateflag := false, gate := .replicate 32 false,
                      cv := .replicate 32 ⟨0#32⟩, pal := .replicate 32 ⟨0#32⟩ } ∧
  State.reset.met = { init := false, fs := ⟨0#32⟩, freq := ⟨0#32⟩, inc := ⟨0#32⟩, phase := ⟨0#32⟩, tick := false } ∧
  State.reset.err = false ∧ State.reset.status = 0x00 ∧
  ∀ i : Instr,
    (i = .nop ∨ i = .getStatus → ∃ t, exec i .reset = .next t ∧ Accepted .control .reset t (opcodeOf i) 0#32) ∧
    (isInitCommand i = true → operandRejected (encode i) = false →
      ∃ t d, exec i .reset = .next t ∧ Accepted (unitOf i) .reset t (opcodeOf i) d) ∧
    (i ≠ .nop → i ≠ .getStatus → isInitCommand i = false →
      ∃ t, exec i .reset = .next t ∧ Refused .reset t (opcodeOf i) 0x02)

/-- `rst` puts every unit and `ERR` into the reset state whatever the block was doing, with no response to a command in
progress (70_reset_and_hazards.md R241); with nothing presented the block holds its state (60_exceptions.md R233). That a
step with nothing presented exists, and that it lowers `rsp_valid`, is the model's (log entries 2 and 5). -/
def Obligations.ResetAndIdleSteps : Prop :=
  (∀ (s : State) (c : Option CmdWord) (rest : List HostEvent), s.port.inbox = .reset c :: rest →
    ∃ t, step s = .next t ∧ SameUnits .reset t ∧ t.err = false ∧ t.status = 0x00 ∧ t.port.rsp = none ∧
      t.port.log = s.port.log ∧ t.port.inbox = rest) ∧
  (∀ s : State, s.port.inbox = [] →
    ∃ t, step s = .next t ∧ SameUnits s t ∧ t.err = s.err ∧ t.status = s.status ∧ t.port.rsp = none ∧
      t.port.log = s.port.log ∧ t.port.inbox = [])

/-- A unit's `init` bit is 0 after reset, set by its `*_INIT`, kept by every step but reset, and while it is 0 every other
command of the unit is refused with `NOTINIT` (10_state.md R31). -/
def Obligations.InitBitLifecycle : Prop :=
  (∀ u : UnitId, u ≠ .control → State.reset.initOf u = false) ∧
  (∀ (i : Instr) (s : State), isInitCommand i = true → operandRejected (encode i) = false →
    ∃ t d, exec i s = .next t ∧ Accepted (unitOf i) s t (opcodeOf i) d ∧ t.initOf (unitOf i) = true) ∧
  (∀ (u : UnitId) (s t : State), s.initOf u = true → (∀ c rest, s.port.inbox ≠ .reset c :: rest) →
    step s = .next t → t.initOf u = true) ∧
  (∀ (i : Instr) (s t : State), exec i s = .next t → isInitCommand i = false →
    ∀ u : UnitId, t.initOf u = s.initOf u) ∧
  (∀ (i : Instr) (s : State), s.initOf (unitOf i) = false → isInitCommand i = false →
    ∃ t, exec i s = .next t ∧ Refused s t (opcodeOf i) 0x02)

/-- A command writes only its own unit and the error bit, and that it can only set (30_encoding.md R79; 10_state.md
R30). -/
def Obligations.CommandsWriteOnlyTheirUnit : Prop :=
  ∀ (i : Instr) (s : State), ∃ t, exec i s = .next t ∧ KeepsUnitsBut (unitOf i) s t ∧
    (t.err = s.err ∨ t.err = true) ∧ t.port.inbox = s.port.inbox

/-- A command reads only its own unit: two states that agree on it give the same unit afterwards and the same code and
data, whatever the other units hold (30_encoding.md R79; 70_reset_and_hazards.md R244). `GET_STATUS`, of unit 0, reads the
flags of all units. -/
def Obligations.CommandsReadOnlyTheirUnit : Prop :=
  ∀ (i : Instr) (s s' t t' : State) (r r' : RspWord), unitOf i ≠ .control → SameUnit (unitOf i) s s' →
    exec i s = .next t → exec i s' = .next t' → t.port.rsp = some r → t'.port.rsp = some r' →
    SameUnit (unitOf i) t t' ∧ rspCode r = rspCode r' ∧ rspData r = rspData r'

/-- Any two commands of different units commute: both orders leave every unit and the error bit the same, and give each
of the two the same code and data (70_reset_and_hazards.md R244; 20_memory.md R68). -/
def Obligations.DifferentUnitsCommute : Prop :=
  ∀ (i j : Instr) (s : State), unitOf i ≠ .control → unitOf j ≠ .control → unitOf i ≠ unitOf j →
    ∃ a ab b ba ri rj ri' rj',
      exec i s = .next a ∧ exec j a = .next ab ∧ exec j s = .next b ∧ exec i b = .next ba ∧
      SameUnits ab ba ∧ ab.err = ba.err ∧
      a.port.rsp = some ri ∧ ba.port.rsp = some ri' ∧ rspCode ri = rspCode ri' ∧ rspData ri = rspData ri' ∧
      b.port.rsp = some rj ∧ ab.port.rsp = some rj' ∧ rspCode rj = rspCode rj' ∧ rspData rj = rspData rj'

/-- Issuing the same setter twice in a row leaves the state that issuing it once leaves, and answers the same
(20_memory.md R65). -/
def Obligations.SettersAreIdempotent : Prop :=
  ∀ (i : Instr) (s : State), isSetter i = true →
    ∃ a b ra rb, exec i s = .next a ∧ exec i a = .next b ∧ SameUnits a b ∧ a.err = b.err ∧
      a.port.rsp = some ra ∧ b.port.rsp = some rb ∧ rspCode ra = rspCode rb ∧ rspData ra = rspData rb

/-- Who writes each flag: a command that is not among a flag's writers leaves it, the `*_INIT` of its unit clears it
(10_state.md R35). -/
def Obligations.FlagsWrittenOnlyByTheirCommands : Prop :=
  ∀ (i : Instr) (s t : State), exec i s = .next t →
    (i ≠ .oscProcess → (∀ fs, i ≠ .oscInit fs) → t.osc.eoc = s.osc.eoc ∧ t.osc.eor = s.osc.eor) ∧
    (i ≠ .metProcess → (∀ fs, i ≠ .metInit fs) → t.met.tick = s.met.tick) ∧
    (i ≠ .seqProcess → i ≠ .seqInit → t.seq.gateflag = s.seq.gateflag) ∧
    ((∀ x, i ≠ .envxSetKnob x) → (∀ c, i ≠ .envxSetCtl c) → (∀ fs, i ≠ .envxInit fs) → t.envx.hold = s.envx.hold) ∧
    (operandRejected (encode i) = false →
      (∀ fs, i = .oscInit fs → t.osc.eoc = false ∧ t.osc.eor = false) ∧ (∀ fs, i = .metInit fs → t.met.tick = false) ∧
      (i = .seqInit → t.seq.gateflag = false) ∧ (∀ fs, i = .envxInit fs → t.envx.hold = false))

/-- The eight bits of `STATUS`, that it is what `GET_STATUS` returns, what every response carries and what the pins show;
bits 5 and 6 are 0 in every state; `NOP` answers it and changes no state; neither global command is ever refused, but
that a word with any other bit set is `BADCMD` (10_state.md R34, R36; 46_core_control.md R210, R211). -/
def Obligations.StatusAndGlobalCommands : Prop :=
  (∀ s : State,
    s.status.getLsbD 0 = s.osc.eoc ∧ s.status.getLsbD 1 = s.osc.eor ∧ s.status.getLsbD 2 = s.met.tick ∧
    s.status.getLsbD 3 = s.seq.gateflag ∧ s.status.getLsbD 4 = s.envx.hold ∧ s.status.getLsbD 5 = false ∧
    s.status.getLsbD 6 = false ∧ s.status.getLsbD 7 = s.err ∧ s.pins.status = s.status ∧
    (∃ t, exec .getStatus s = .next t ∧ Accepted .control s t 0x01 (s.status.setWidth 32)) ∧
    (∃ t, exec .nop s = .next t ∧ Accepted .control s t 0x00 0#32)) ∧
  encode .nop = 0x0000000000000000#64 ∧ encode .getStatus = 0x0100000000000000#64 ∧
  (∀ (s : State) (w : CmdWord), ∃ t r, stepOnWord s w = .next t ∧ t.port.rsp = some r ∧ rspStatus r = t.status ∧
    (w.op = 0x00#8 ∨ w.op = 0x01#8 → w.rsv ≠ 0#24 ∨ w.arg ≠ 0#32 → Refused s t w.op 0x01))

/-! ### OSC -/

/-- `OSC_INIT` (40_oscillator.md R101). -/
def Obligations.OscInitResult : Prop :=
  ∀ (s : State) (fs : F32),
    (fs.isFinite = true → F32.one.le fs = true →
      ∃ t, exec (.oscInit fs) s = .next t ∧ Accepted .osc s t 0x10 fs.bits ∧
        t.osc = { init := true, fs := fs, freq := .zero, inc := .zero, wave := .sine, phase := .zero, last := .zero,
                  eoc := false, eor := false }) ∧
    (fs.isFinite = false ∨ F32.one.le fs = false → ∃ t, exec (.oscInit fs) s = .next t ∧ Refused s t 0x10 0x03)

/-- `OSC_SETFREQ`, `OSC_SETWAVE`, `OSC_PHASEADD` (40_oscillator.md R102, R103, R104). -/
def Obligations.OscSettersResult : Prop :=
  ∀ s : State, s.osc.init = true →
    (∀ f : F32, f.isFinite = true →
      ∃ t, exec (.oscSetFreq f) s = .next t ∧ Accepted .osc s t 0x11 (f.div s.osc.fs).bits ∧
        t.osc = { s.osc with freq := f, inc := f.div s.osc.fs }) ∧
    (∀ w : BitVec 32,
      ∃ t, exec (.oscSetWave w) s = .next t ∧
        Accepted .osc s t 0x12 (if 7 < w.toNat then 7#32 else w) ∧
        t.osc = { s.osc with wave := t.osc.wave } ∧
        (waveCode t.osc.wave).toNat = (if 7 < w.toNat then 7 else w.toNat)) ∧
    (∀ d : F32, d.isFinite = true →
      ∃ t, exec (.oscPhaseAdd d) s = .next t ∧ Accepted .osc s t 0x13 (s.osc.phase.add d).wrap1.bits ∧
        t.osc = { s.osc with phase := (s.osc.phase.add d).wrap1 })

/-- `OSC_PROCESS`: the sample of each waveform from the phase as it stands, the new phase, and the two flags
(40_oscillator.md R106, R107, R108). The formulas and the two output gains are the rules', which the spec marks as general
knowledge (log entries 11 and 12). Where the prose of R109 (b) and (c) and the rounded pseudocode differ, the pseudocode is
the model's choice (log entries 20 and 21). -/
def Obligations.OscProcessResult : Prop :=
  ∀ (s : State) (p dt x pn : F32), s.osc.init = true → p = s.osc.phase → dt = s.osc.inc → x = p.add dt → pn = x.wrap1 →
    ∃ t out last sq, exec .oscProcess s = .next t ∧ Accepted .osc s t 0x14 out.bits ∧
      t.osc = { s.osc with last := last, phase := pn,
                           eoc := F32.one.le x || x.lt .zero,
                           eor := (pn.sub dt).lt half && half.le pn } ∧
      (p.lt half = true → sq = F32.one) ∧ (p.lt half = false → sq = minusOne) ∧
      (s.osc.wave = .sine → out = Config.num.sin (p.mul ⟨0x40C90FDB#32⟩)) ∧
      (s.osc.wave = .tri → out = two.mul ((minusOne.add (two.mul p)).abs.sub half)) ∧
      (s.osc.wave = .saw → out = minusOne.mul ((p.mul two).sub .one)) ∧
      (s.osc.wave = .ramp → out = (p.mul two).sub .one) ∧
      (s.osc.wave = .square → out = sq) ∧
      (s.osc.wave = .pbTri →
        last = (dt.mul ((sq.add (polyBlep dt p)).sub (polyBlep dt (p.add half).wrap1))).add
          ((F32.one.sub dt).mul s.osc.last) ∧ out = last.mul four) ∧
      (s.osc.wave = .pbSaw → out = (((two.mul p).sub .one).sub (polyBlep dt p)).mul minusOne) ∧
      (s.osc.wave = .pbSquare →
        out = ((sq.add (polyBlep dt p)).sub (polyBlep dt (p.add half).wrap1)).mul ⟨0x3F34FDF4#32⟩) ∧
      (s.osc.wave ≠ .pbTri → last = s.osc.last)

/-- The pieces of the polyBLEP correction, and that it is `+0.0` everywhere when the increment is not above zero
(40_oscillator.md R105). -/
def Obligations.PolyBlepPieces : Prop :=
  ∀ dt t : F32,
    (t.lt dt = true → polyBlep dt t = (((t.div dt).add (t.div dt)).sub ((t.div dt).mul (t.div dt))).sub .one) ∧
    (t.lt dt = false → (F32.one.sub dt).lt t = true →
      polyBlep dt t = (((((t.sub .one).div dt).mul ((t.sub .one).div dt)).add ((t.sub .one).div dt)).add
        ((t.sub .one).div dt)).add .one) ∧
    (t.lt dt = false → (F32.one.sub dt).lt t = false → polyBlep dt t = .zero) ∧
    (F32.zero.le t = true → t.lt .one = true → dt.le .zero = true → polyBlep dt t = .zero)

/-- `WRAP1` maps every finite number into `[0, 1)`, keeps one that is there, removes the integer part of one that is not
below 1 exactly, and for a negative one is `x - floor(x)` unless that rounds to 1 (00_scope.md R18). -/
def Obligations.WrapIntoUnitInterval : Prop :=
  ∀ x : F32, x.isFinite = true →
    x.wrap1.isFinite = true ∧ F32.zero.le x.wrap1 = true ∧ x.wrap1.lt .one = true ∧
    (F32.zero.le x = true → x.lt .one = true → x.wrap1.key = x.key ∧ (x.sign = false → x.wrap1 = x)) ∧
    (F32.one.le x = true → x.wrap1.units = x.units % (unitsPerOne : Int)) ∧
    ((x.sub x.floor).lt .one = true → x.wrap1 = x.sub x.floor) ∧
    (F32.one.le (x.sub x.floor) = true → x.wrap1 = .zero ∧ x.lt .zero = true)

/-- `floor` and `ROUNDI` as the rule defines them, by units of `2^-149` (00_scope.md R17). -/
def Obligations.FloorAndRound : Prop :=
  ∀ x : F32, x.isFinite = true →
    (x.floor.isFinite = true ∧ x.floor.units = x.units / (unitsPerOne : Int) * (unitsPerOne : Int)) ∧
    (x.mag < magTwo31 →
      2 * |x.units - x.roundi * (unitsPerOne : Int)| ≤ (unitsPerOne : Int) ∧
      (2 * |x.units - x.roundi * (unitsPerOne : Int)| = (unitsPerOne : Int) →
        |x.units| < |x.roundi| * (unitsPerOne : Int))) ∧
    (∀ n : Int, |n| ≤ 2 ^ 24 → (F32.ofInt n).isFinite = true ∧ (F32.ofInt n).units = n * (unitsPerOne : Int))

/-- The corner cases of `OSC_PROCESS` that concern phase and flags: a zero increment moves nothing and clears both flags;
a negative one never ends a rise, and ends a cycle exactly when the sum falls below 0; one of 1 or more always ends a cycle
(40_oscillator.md R109 (a), (b), (e)). -/
def Obligations.OscFlagCornerCases : Prop :=
  ∀ s t : State, s.osc.init = true → OscInv s.osc → s.osc.phase.sign = false → exec .oscProcess s = .next t →
    (s.osc.inc.isZero = true → t.osc.phase = s.osc.phase ∧ t.osc.eoc = false ∧ t.osc.eor = false) ∧
    (s.osc.inc.lt .zero = true → t.osc.eor = false ∧ t.osc.eoc = (s.osc.phase.add s.osc.inc).lt .zero) ∧
    (F32.one.le s.osc.inc = true → t.osc.eoc = true)

/-- The oscillator's invariant survives every step: rate, frequency, increment and phase are finite and the phase stays in
`[0, 1)`, whatever the host sends (10_state.md R38; 40_oscillator.md R110 P1). -/
def Obligations.OscInvariantKept : Prop :=
  ∀ s t : State, OscInv s.osc → step s = .next t → OscInv t.osc

/-! ### LAD -/

/-- `LAD_INIT` and `LAD_SETFREQ`: the clamped cutoff and its two coefficients (41_ladder_filter.md R120, R121, R122).
The polynomials and their digits are general knowledge of the spec (log entries 11 and 12). -/
def Obligations.LadRateAndCutoffResult : Prop :=
  ∀ (s : State) (f fs fc wc wc2 alpha qadj : F32),
    fc = (fun g : F32 => if g.lt ⟨0x40A00000#32⟩ then (⟨0x40A00000#32⟩ : F32) else g)
      (if (fs.mul ⟨0x3ED9999A#32⟩).lt f then fs.mul ⟨0x3ED9999A#32⟩ else f) →
    wc = fc.mul (F32.div ⟨0x40C90FDB#32⟩ (four.mul fs)) → wc2 = wc.mul wc →
    alpha = (((cfg.ladA1.mul wc).sub (cfg.ladA2.mul wc2)).add ((cfg.ladA3.mul wc).mul wc2)).sub
      ((cfg.ladA4.mul wc2).mul wc2) →
    qadj = ((cfg.ladQ0.add (cfg.ladQ1.mul wc)).sub (cfg.ladQ2.mul wc2)).sub ((cfg.ladQ4.mul wc2).mul wc2) →
    (f = ⟨0x447A0000#32⟩ → fs.isFinite = true → F32.one.le fs = true →
      ∃ t, exec (.ladInit fs) s = .next t ∧ Accepted .lad s t 0x20 fs.bits ∧
        t.lad = { init := true, fs := fs, fc := fc, res := .zero, k := .zero, alpha := alpha, qadj := qadj,
                  mode := .lp24, z0 := .replicate 4 .zero, z1 := .replicate 4 .zero, oldin := .zero }) ∧
    (s.lad.init = true → fs = s.lad.fs → f.isFinite = true →
      ∃ t, exec (.ladSetFreq f) s = .next t ∧ Accepted .lad s t 0x21 fc.bits ∧
        t.lad = { s.lad with fc := fc, alpha := alpha, qadj := qadj })

/-- `LAD_SETRES` and `LAD_SETMODE` (41_ladder_filter.md R123, R124). -/
def Obligations.LadResonanceAndModeResult : Prop :=
  ∀ s : State, s.lad.init = true →
    (∀ r res k : F32, r.isFinite = true → res = r.clamp .zero ⟨0x3FE66666#32⟩ →
      k = (res.mul ⟨0x40800000#32⟩).div ⟨0x3FE66666#32⟩ →
      ∃ t, exec (.ladSetRes r) s = .next t ∧ Accepted .lad s t 0x22 k.bits ∧
        t.lad = { s.lad with res := res, k := k }) ∧
    (∀ m : BitVec 32,
      ∃ t, exec (.ladSetMode m) s = .next t ∧ Accepted .lad s t 0x23 (if 5 < m.toNat then 5#32 else m) ∧
        t.lad = { s.lad with mode := t.lad.mode } ∧
        (modeCode t.lad.mode).toNat = (if 5 < m.toNat then 5 else m.toNat))

/-- `LAD_PROCESS`: four passes of the core, each as the stage and mix equations give it, at interpolation 0, 1/4, 1/2 and
3/4, averaged; then the new sample becomes the old one (41_ladder_filter.md R125, R126, R127). Stage equation, stage
weights and mix are general knowledge of the spec (log entries 11 and 12). -/
def Obligations.LadProcessResult : Prop :=
  ∀ (s : State) (x : F32), s.lad.init = true → x.isFinite = true →
    ∃ t total l1 l2 l3 l4 m1 m2 m3 m4, exec (.ladProcess x) s = .next t ∧ Accepted .lad s t 0x24 total.bits ∧
      LadPass s.lad l1 x .zero m1 ∧ LadPass l1 l2 x quarter m2 ∧ LadPass l2 l3 x half m3 ∧
      LadPass l3 l4 x ⟨0x3F400000#32⟩ m4 ∧
      total = (((F32.zero.add (m1.mul quarter)).add (m2.mul quarter)).add (m3.mul quarter)).add (m4.mul quarter) ∧
      t.lad = { l4 with oldin := x }

/-- Zero in, zero out: with the filter memory zero and the coefficients finite, a zero sample gives `+0.0` exactly and
leaves the memory zero, for any mode, cutoff and resonance (41_ladder_filter.md R128 P1, P2). -/
def Obligations.LadZeroInZeroOut : Prop :=
  ∀ s : State, s.lad.init = true → LadInv s.lad → LadCoefsFinite s.lad →
    s.lad.z0 = .replicate 4 .zero → s.lad.z1 = .replicate 4 .zero → s.lad.oldin = .zero →
    ∃ t, exec (.ladProcess .zero) s = .next t ∧ Accepted .lad s t 0x24 0#32 ∧ t.lad = s.lad

/-- The mode changes only the mix, never the recursion: two filters that differ in the mode alone differ in the mode alone
after the same sample (41_ladder_filter.md R124, R127). -/
def Obligations.LadModeChangesOnlyTheMix : Prop :=
  ∀ (s s' t t' : State) (x : F32), s.lad = { s'.lad with mode := s.lad.mode } → exec (.ladProcess x) s = .next t →
    exec (.ladProcess x) s' = .next t' → t.lad = { t'.lad with mode := t.lad.mode } ∧ t.lad.mode = s.lad.mode

/-- The filter's invariant survives every step (10_state.md R40). -/
def Obligations.LadInvariantKept : Prop :=
  ∀ s t : State, LadInv s.lad → step s = .next t → LadInv t.lad

/-- The two coefficients stay finite, at every sample rate (41_ladder_filter.md R122, R128 P1). This rests on the digits of
the two coefficient polynomials: the table's default values, general knowledge of the spec, which the model presumes (log
entries 11 and 12). -/
def Obligations.LadCoefsStayFinite : Prop :=
  ∀ s t : State, LadInv s.lad → LadCoefsFinite s.lad → step s = .next t → LadCoefsFinite t.lad

/-! ### ENVX -/

/-- `ENVX_INIT` and `ENVX_SETCTL` (42_envelope_exponential.md R140, R141). -/
def Obligations.EnvxInitAndControlResult : Prop :=
  (∀ (s : State) (fs : F32), fs.isFinite = true → F32.one.le fs = true →
    ∃ t, exec (.envxInit fs) s = .next t ∧ Accepted .envx s t 0x30 fs.bits ∧
      t.envx = { init := true, fs := fs, value := .zero, coef := .zero, dir := false, hold := false }) ∧
  (∀ (s : State) (c : F32), s.envx.init = true → c.isFinite = true →
    ∃ t coef dir, exec (.envxSetCtl c) s = .next t ∧ Accepted .envx s t 0x31 coef.bits ∧
      XCoef c s.envx.fs coef dir ∧ t.envx = { s.envx with coef := coef, dir := dir, hold := false })

/-- `ENVX_SETKNOB`: inside the closed centre zone only `HOLD` is set; below it the knob is rescaled to an attack control,
above it to a decay control (42_envelope_exponential.md R142). -/
def Obligations.EnvxKnobResult : Prop :=
  ∀ (s : State) (x xc lo hi : F32), s.envx.init = true → x.isFinite = true → xc = x.clamp .zero .one →
    lo = ⟨0x3EE66666#32⟩ → hi = ⟨0x3F0CCCCD#32⟩ →
    (lo.le xc = true → xc.le hi = true →
      ∃ t, exec (.envxSetKnob x) s = .next t ∧ Accepted .envx s t 0x32 s.envx.coef.bits ∧
        t.envx = { s.envx with hold := true }) ∧
    (xc.lt lo = true →
      ∃ t coef dir, exec (.envxSetKnob x) s = .next t ∧ Accepted .envx s t 0x32 coef.bits ∧
        XCoef ((xc.sub lo).div lo) s.envx.fs coef dir ∧ dir = true ∧
        t.envx = { s.envx with coef := coef, dir := dir, hold := false }) ∧
    (hi.lt xc = true →
      ∃ t coef dir, exec (.envxSetKnob x) s = .next t ∧ Accepted .envx s t 0x32 coef.bits ∧
        XCoef ((xc.sub hi).div lo) s.envx.fs coef dir ∧ dir = false ∧
        t.envx = { s.envx with coef := coef, dir := dir, hold := false })

/-- `ENVX_TRIGGER` and `ENVX_PROCESS`, held and not (42_envelope_exponential.md R143, R144, and the pseudocode of R145;
where the prose of R145 says otherwise, of values near the smallest subnormal, the pseudocode is the model's choice, log
entry 19). -/
def Obligations.EnvxTriggerAndProcessResult : Prop :=
  ∀ s : State, s.envx.init = true →
    (∃ t, exec .envxTrigger s = .next t ∧ Accepted .envx s t 0x33 0x3F800000#32 ∧
      t.envx = { s.envx with value := .one }) ∧
    (s.envx.hold = true →
      ∃ t, exec .envxProcess s = .next t ∧ Accepted .envx s t 0x34 0x3F000000#32 ∧ t.envx = s.envx) ∧
    (s.envx.hold = false → ∀ v, v = s.envx.value.mul s.envx.coef →
      ∃ t, exec .envxProcess s = .next t ∧
        Accepted .envx s t 0x34 (if s.envx.dir then (F32.one.sub v).bits else v.bits) ∧
        t.envx = { s.envx with value := v })

/-- Between triggers the value never rises, whatever the command, and every sample is in `[0, 1]`
(42_envelope_exponential.md R146 P1, P2). -/
def Obligations.EnvxValueNeverRises : Prop :=
  ∀ (i : Instr) (s t : State) (r : RspWord), s.envx.init = true → EnvxInv s.envx → exec i s = .next t →
    t.port.rsp = some r →
    (i ≠ .envxTrigger → t.envx.value.le s.envx.value = true) ∧
    (i = .envxProcess → F32.within ⟨rspData r⟩ .zero .one = true)

/-- The exponential envelope's invariant survives every step: value and coefficient stay in `[0, 1]`, under any numerics
with the named properties and any exponent of the time curve (10_state.md R43). -/
def Obligations.EnvxInvariantKept : Prop :=
  ∀ s t : State, EnvxInv s.envx → step s = .next t → EnvxInv t.envx

/-! ### ENVL -/

/-- The four commands of the linear envelope (43_envelope_linear.md R155 to R158). -/
def Obligations.EnvlCommandsResult : Prop :=
  (∀ (s : State) (fs : F32), fs.isFinite = true → F32.one.le fs = true →
    ∃ t, exec (.envlInit fs) s = .next t ∧ Accepted .envl s t 0x40 fs.bits ∧
      t.envl = { init := true, fs := fs, value := .zero, rate := .one }) ∧
  (∀ (s : State) (time floor tc rate : F32), s.envl.init = true → time.isFinite = true →
    floor = F32.one.div s.envl.fs → (time.lt floor = true → tc = floor) → (time.lt floor = false → tc = time) →
    rate = F32.one.sub (Config.num.exp (minusOne.div (s.envl.fs.mul tc))) →
    ∃ t, exec (.envlSetTime time) s = .next t ∧ Accepted .envl s t 0x41 rate.bits ∧
      t.envl = { s.envl with rate := rate }) ∧
  (∀ s : State, s.envl.init = true →
    ∃ t, exec .envlTrigger s = .next t ∧ Accepted .envl s t 0x43 0x3F800000#32 ∧
      t.envl = { s.envl with value := .one }) ∧
  (∀ (s : State) (v : F32), s.envl.init = true → v = s.envl.value.sub s.envl.rate →
    ∃ t v', exec .envlProcess s = .next t ∧ Accepted .envl s t 0x44 v'.bits ∧
      (v.lt .zero = true → v' = .zero) ∧ (v.lt .zero = false → v' = v) ∧ t.envl = { s.envl with value := v' })

/-- Between triggers the linear envelope never rises, and once at zero it stays there (43_envelope_linear.md R158,
R159 P1, P2). -/
def Obligations.EnvlValueNeverRises : Prop :=
  ∀ (i : Instr) (s t : State) (r : RspWord), s.envl.init = true → EnvlInv s.envl → exec i s = .next t →
    t.port.rsp = some r →
    (i ≠ .envlTrigger → t.envl.value.le s.envl.value = true) ∧
    (i = .envlProcess → F32.within ⟨rspData r⟩ .zero .one = true ∧ (s.envl.value = .zero → rspData r = 0#32))

/-- The linear envelope's invariant survives every step: value and rate stay in `[0, 1]` and the value is never `-0.0`
(10_state.md R43). -/
def Obligations.EnvlInvariantKept : Prop :=
  ∀ s t : State, EnvlInv s.envl → step s = .next t → EnvlInv t.envl

/-! ### SEQ -/

/-- `SEQ_INIT` (44_sequencer.md R177). -/
def Obligations.SeqInitResult : Prop :=
  ∀ s : State, ∃ t, exec .seqInit s = .next t ∧ Accepted .seq s t 0x50 0#32 ∧
    t.seq.init = true ∧ t.seq.len = 32#6 ∧ t.seq.cpx = 1#6 ∧ t.seq.density = .zero ∧ t.seq.spread = .zero ∧
    t.seq.bias = (F32.ofInt 13).div (F32.ofInt 25) ∧ t.seq.cvseed = 0#32 ∧ t.seq.palseed = 0#32 ∧ t.seq.cur = 0#5 ∧
    t.seq.gateflag = false ∧ t.seq.gate = .replicate 32 false ∧
    t.seq.pal = vectorOf 32 .zero (paletteOf 0#32 1 t.seq.bias) ∧ t.seq.cv = .replicate 32 t.seq.pal[0]

/-- `SEQ_SETLEN`: the length clamped to 1 to 32, the cursor reduced at once, nothing regenerated (44_sequencer.md
R178). -/
def Obligations.SeqSetLenResult : Prop :=
  ∀ (s : State) (n : BitVec 32), s.seq.init = true →
    ∃ t l, exec (.seqSetLen n) s = .next t ∧ Accepted .seq s t 0x51 (BitVec.ofNat 32 l) ∧
      l = Nat.max 1 (Nat.min n.toNat 32) ∧ t.seq = { s.seq with len := t.seq.len, cur := t.seq.cur } ∧
      t.seq.len.toNat = l ∧ t.seq.cur.toNat = s.seq.cur.toNat % l ∧ t.seq.cur.toNat < t.seq.len.toNat

/-- Which setter stores what and regenerates which array, every other register and array being kept (44_sequencer.md R176,
R179 to R185). -/
def Obligations.SeqRegenerationTable : Prop :=
  ∀ s : State, s.seq.init = true →
    (∀ n : BitVec 32, ∃ t c pal, exec (.seqSetComplexity n) s = .next t ∧
      Accepted .seq s t 0x52 (BitVec.ofNat 32 c) ∧ c = Nat.max 1 (Nat.min n.toNat 32) ∧
      pal = vectorOf 32 .zero (paletteOf s.seq.palseed c s.seq.bias) ∧ t.seq.cpx.toNat = c ∧
      t.seq = { s.seq with cpx := t.seq.cpx, pal := pal,
                           cv := vectorOf 32 .zero (cvsOf pal c s.seq.spread s.seq.cvseed) }) ∧
    (∀ d dc : F32, d.isFinite = true → dc = d.clamp .zero .one →
      ∃ t, exec (.seqSetDensity d) s = .next t ∧ Accepted .seq s t 0x53 dc.bits ∧
        t.seq = { s.seq with density := dc, gate := vectorOf 32 false (gatesOf dc) }) ∧
    (∀ x xc : F32, x.isFinite = true → xc = x.clamp .zero .one →
      ∃ t, exec (.seqSetSpread x) s = .next t ∧ Accepted .seq s t 0x55 xc.bits ∧
        t.seq = { s.seq with spread := xc,
                             cv := vectorOf 32 .zero (cvsOf s.seq.pal s.seq.cpx.toNat xc s.seq.cvseed) }) ∧
    (∀ b q : F32, b.isFinite = true →
      q = (F32.ofInt ((b.clamp .zero .one).mul ⟨0x41C80000#32⟩).roundi).div ⟨0x41C80000#32⟩ →
      ∃ t pal, exec (.seqSetBias b) s = .next t ∧ Accepted .seq s t 0x56 q.bits ∧
        pal = vectorOf 32 .zero (paletteOf s.seq.palseed s.seq.cpx.toNat q) ∧
        t.seq = { s.seq with bias := q, pal := pal,
                             cv := vectorOf 32 .zero (cvsOf pal s.seq.cpx.toNat s.seq.spread s.seq.cvseed) }) ∧
    (∀ n : BitVec 32, ∃ t, exec (.seqSetCvSeed n) s = .next t ∧ Accepted .seq s t 0x57 n ∧
      t.seq = { s.seq with cvseed := n,
                           cv := vectorOf 32 .zero (cvsOf s.seq.pal s.seq.cpx.toNat s.seq.spread n) }) ∧
    (∀ n : BitVec 32, ∃ t pal, exec (.seqSetPalSeed n) s = .next t ∧ Accepted .seq s t 0x58 n ∧
      pal = vectorOf 32 .zero (paletteOf n s.seq.cpx.toNat s.seq.bias) ∧
      t.seq = { s.seq with palseed := n, pal := pal,
                           cv := vectorOf 32 .zero (cvsOf pal s.seq.cpx.toNat s.seq.spread s.seq.cvseed) }) ∧
    (∃ t, exec .seqRegenCv s = .next t ∧ Accepted .seq s t 0x59 0#32 ∧
      t.seq = { s.seq with
        cv := vectorOf 32 .zero (cvsOf s.seq.pal s.seq.cpx.toNat s.seq.spread s.seq.cvseed) } ∧
      (SeqInv s.seq → t.seq = s.seq))

/-- `SEQ_PROCESS`: the step under the cursor, then the cursor advances modulo the length (44_sequencer.md R187). -/
def Obligations.SeqProcessResult : Prop :=
  ∀ s : State, s.seq.init = true → 1 ≤ s.seq.len.toNat → s.seq.len.toNat ≤ 32 →
    ∃ t, exec .seqProcess s = .next t ∧ Accepted .seq s t 0x54 (memRead s.seq.cv s.seq.cur.toFin).bits ∧
      t.seq = { s.seq with gateflag := memRead s.seq.gate s.seq.cur.toFin, cur := t.seq.cur } ∧
      t.seq.cur.toNat = (s.seq.cur.toNat + 1) % s.seq.len.toNat

/-- `SEQ_READCV` and `SEQ_READGATES`, the two pure reads: one element, and the gates as a mask (44_sequencer.md R188,
R189; 20_memory.md R62). -/
def Obligations.SeqReadsResult : Prop :=
  ∀ s : State, s.seq.init = true →
    (∀ idx : BitVec 32, ∀ h : idx.toNat < 32,
      ∃ t, exec (.seqReadCv idx) s = .next t ∧ Accepted .seq s t 0x5A s.seq.cv[idx.toNat].bits ∧ t.seq = s.seq) ∧
    (∀ idx : BitVec 32, 31 < idx.toNat → ∃ t, exec (.seqReadCv idx) s = .next t ∧ Refused s t 0x5A 0x03) ∧
    (∃ t m, exec .seqReadGates s = .next t ∧ Accepted .seq s t 0x5B m ∧ t.seq = s.seq ∧
      ∀ k : Fin 32, m.getLsbD k = s.seq.gate[k])

/-- The gates of a density: exactly `n = ROUNDI(density * 32)` of them, entry `k` being set exactly when the place
`((64 i + n) div (2 n)) mod 32` of some gate `i` below `n` is `k`; step 0 is gated whenever there is a gate
(44_sequencer.md R170, R190 P1). -/
def Obligations.GateCountIsExact : Prop :=
  ∀ density : F32, density.within .zero .one = true →
    ∃ n : Nat, (n : Int) = (density.mul thirtyTwo).roundi ∧ n ≤ 32 ∧
      (gatesOf density).length = 32 ∧ (gatesOf density).count true = n ∧
      (∀ k, k < 32 → ((gatesOf density)[k]? = some true ↔ ∃ i, i < n ∧ (64 * i + n) / (2 * n) % 32 = k)) ∧
      ((gatesOf density).head? = some true ↔ 1 ≤ n)

/-- The palette is the sorted draws (44_sequencer.md R172, R173, R190 P2). It is a permutation of the draws of the palette
seed, ascending when none of them is a NaN; the sort is the rule's insertion, each draw going past the entries it is below
from the top down; each draw is `clamp(bias + 0.2 * GAUSS(a, b), +0.0, 1.0)` of the next two generator outputs; each
entry is in `[0, 1]` or a NaN; a larger complexity adds draws and removes none. The Box-Muller formula is general
knowledge of the spec (log entry 12). That no draw is a NaN is not claimed: the named properties of the numerics do not
give it (log entry 7). -/
def Obligations.PaletteSorted : Prop :=
  (∀ (seed : BitVec 32) (cpx : Nat) (bias : F32),
    (paletteOf seed cpx bias).Perm (paletteDraws bias cpx (seedState seed)) ∧
    ((∀ v ∈ paletteDraws bias cpx (seedState seed), v.isNaN = false) →
      (paletteOf seed cpx bias).Pairwise fun x y => x.le y = true) ∧
    (paletteOf seed cpx bias).length = cpx ∧
    (∀ v ∈ paletteOf seed cpx bias, v.isNaN = true ∨ v.within .zero .one = true) ∧
    paletteOf seed cpx bias = sortAscending (paletteDraws bias cpx (seedState seed))) ∧
  (∀ vs : List F32, (sortAscending vs).Perm vs ∧
    ((∀ v ∈ vs, v.isNaN = false) → (sortAscending vs).Pairwise fun x y => x.le y = true) ∧
    (∀ v : F32, ∃ below above, sortAscending vs = below ++ above ∧ sortAscending (vs ++ [v]) = below ++ v :: above ∧
      (∀ x ∈ above, v.lt x = true) ∧ (∀ x, below.getLast? = some x → v.lt x = false))) ∧
  (∀ (seed : BitVec 32) (cpx : Nat) (bias : F32), ∃ st : Nat → BitVec 32, st 0 = seedState seed ∧
    ∀ j, j < cpx → st (j + 1) = xorshift (xorshift (st j)) ∧
      ∀ (a b : BitVec 32) (u1 u2 z : F32), a = xorshift (st j) → b = xorshift a →
        u1 = ((F32.ofInt (a >>> 8).toNat).add .one).div ⟨0x4B800000#32⟩ →
        u2 = (F32.ofInt (b >>> 8).toNat).div ⟨0x4B800000#32⟩ →
        z = ((⟨0xC0000000#32⟩ : F32).mul (Config.num.ln u1)).sqrt.mul
          (Config.num.cos ((⟨0x40C90FDB#32⟩ : F32).mul u2)) →
        (paletteDraws bias cpx (seedState seed))[j]? =
          some ((bias.add ((⟨0x3E4CCCCD#32⟩ : F32).mul z)).clamp .zero .one)) ∧
  (∀ (bias : F32) (st : BitVec 32) (c d : Nat), c ≤ d → paletteDraws bias c st = (paletteDraws bias d st).take c)

/-- The shuffle is the rule's Fisher-Yates shuffle of the index list that cycles through the palette: from the top entry
`k` down to entry 1, one generator step from the seed's state each, entries `k` and `j = (st >> 8) mod (k + 1)` exchanged.
So it only permutes, and every palette index below the complexity is used (44_sequencer.md R174). The generator's shifts
are general knowledge of the spec (log entry 12). -/
def Obligations.ShufflePermutes : Prop :=
  ∀ (tr cpx : Nat) (cvseed : BitVec 32),
    (∃ (idx : Nat → List Nat) (st : Nat → BitVec 32),
      idx 0 = ((List.range tr).map fun k => k % cpx) ∧ st 0 = seedState cvseed ∧
      (∀ n, n + 1 < tr → ∀ k j, k = tr - 1 - n → j = (st (n + 1) >>> 8).toNat % (k + 1) →
        st (n + 1) = xorshift (st n) ∧
        ∀ m, (idx (n + 1))[m]? = if m = k then (idx n)[j]? else if m = j then (idx n)[k]? else (idx n)[m]?) ∧
      idx (tr - 1) = shuffledRuns tr cpx cvseed) ∧
    (shuffledRuns tr cpx cvseed).Perm ((List.range tr).map fun k => k % cpx) ∧
    (1 ≤ cpx → cpx ≤ tr → ∀ k, k < cpx → k ∈ shuffledRuns tr cpx cvseed)

/-- The run count is `ROUNDI(cpx + spread * (32 - cpx))`, the complexity at spread 0 and 32 at spread 1, and between them.
The runs are contiguous and cover the 32 steps: run `r` is `(2 S + R) div (2 R)` steps long, `S` steps and `R` runs
remaining, is not empty, and holds the palette entry of the shuffled index `r` in every step. So every control voltage is
a palette entry below the complexity, and each such entry is used (44_sequencer.md R174, R175, R190 P4). -/
def Obligations.RunsCoverAllSteps : Prop :=
  ∀ (pal : Vector F32 32) (cpx : Nat) (spread : F32) (cvseed : BitVec 32), 1 ≤ cpx → cpx ≤ 32 →
    spread.within .zero .one = true →
    ((totalRuns cpx spread : Int) = ((F32.ofInt cpx).add (spread.mul (F32.ofInt (32 - cpx)))).roundi ∧
      (spread.isZero = true → totalRuns cpx spread = cpx) ∧ (spread = .one → totalRuns cpx spread = 32) ∧
      cpx ≤ totalRuns cpx spread ∧ totalRuns cpx spread ≤ 32) ∧
    (cvsOf pal cpx spread cvseed).length = 32 ∧
    (∃ start : Nat → Nat, start 0 = 0 ∧ start (totalRuns cpx spread) = 32 ∧
      ∀ r, r < totalRuns cpx spread → ∀ steps runs, steps = 32 - start r → runs = totalRuns cpx spread - r →
        start (r + 1) = start r + (2 * steps + runs) / (2 * runs) ∧ start r < start (r + 1) ∧
        ∃ i, i < cpx ∧ (shuffledRuns (totalRuns cpx spread) cpx cvseed)[r]? = some i ∧
          ∀ k, start r ≤ k → k < start (r + 1) → (cvsOf pal cpx spread cvseed)[k]? = pal[i]?) ∧
    (∀ v ∈ cvsOf pal cpx spread cvseed, ∃ k : Fin 32, k.val < cpx ∧ v = pal[k]) ∧
    (∀ k : Fin 32, k.val < cpx → pal[k] ∈ cvsOf pal cpx spread cvseed)

/-- The generator step is the xorshift of 13, 17 and 5 (general knowledge of the spec, log entry 12); it is one-to-one and
fixes 0. A seed is mixed, replaced by the mixing constant where that gives 0, and stepped four times; it never gives the
state 0; two seeds give the same state only if they are equal or are 0 and the mixing constant (44_sequencer.md R166,
R167). -/
def Obligations.GeneratorNeverSticks : Prop :=
  (∀ x y z : BitVec 32, y = x ^^^ (x <<< 13) → z = y ^^^ (y >>> 17) → xorshift x = z ^^^ (z <<< 5)) ∧
  (∀ sd x : BitVec 32, x = (if sd = 0x9E3779B9#32 then 0x9E3779B9#32 else sd ^^^ 0x9E3779B9#32) →
    seedState sd = xorshift (xorshift (xorshift (xorshift x)))) ∧
  Function.Injective xorshift ∧ (∀ x : BitVec 32, xorshift x = 0#32 ↔ x = 0#32) ∧
  (∀ sd : BitVec 32, seedState sd ≠ 0#32) ∧
  (∀ a b : BitVec 32, seedState a = seedState b ↔
    a = b ∨ (a = 0#32 ∧ b = 0x9E3779B9#32) ∨ (a = 0x9E3779B9#32 ∧ b = 0#32)) ∧
  seedState 0#32 = 0x0183A8B5#32 ∧ seedState 1#32 = 0x13D631FA#32

/-- `len` consecutive `SEQ_PROCESS` commands return to the same cursor and change nothing else but the gate flag
(44_sequencer.md R190 P5). -/
def Obligations.CursorReturns : Prop :=
  ∀ s : State, s.seq.init = true → SeqInv s.seq →
    ∃ t, runWords s (List.replicate s.seq.len.toNat (encode .seqProcess)) = .next t ∧
      t.seq = { s.seq with gateflag := t.seq.gateflag } ∧ KeepsUnitsBut .seq s t ∧ t.err = s.err

/-- The sequencer's invariant survives every step: the ranges of its registers, and the three arrays being exactly the
functions of the registers that the rules give (10_state.md R45). -/
def Obligations.SeqInvariantKept : Prop :=
  ∀ s t : State, SeqInv s.seq → step s = .next t → SeqInv t.seq

/-! ### MET -/

/-- `MET_INIT`, `MET_SETFREQ`, `MET_RESET`, `MET_GETPHASE` (45_metronome.md R195, R196, R197, R200). -/
def Obligations.MetCommandsResult : Prop :=
  (∀ (s : State) (fs : F32), fs.isFinite = true → F32.one.le fs = true →
    ∃ t, exec (.metInit fs) s = .next t ∧ Accepted .met s t 0x60 fs.bits ∧
      t.met = { init := true, fs := fs, freq := .zero, inc := .zero, phase := .zero, tick := false }) ∧
  (∀ s : State, s.met.init = true →
    (∀ f fr : F32, f.isFinite = true → fr = f.clamp .zero (s.met.fs.mul half) →
      ∃ t, exec (.metSetFreq f) s = .next t ∧ Accepted .met s t 0x61 (fr.div s.met.fs).bits ∧
        t.met = { s.met with freq := fr, inc := fr.div s.met.fs }) ∧
    (∃ t, exec .metReset s = .next t ∧ Accepted .met s t 0x62 0#32 ∧ t.met = { s.met with phase := .zero }) ∧
    (∃ t, exec .metGetPhase s = .next t ∧ Accepted .met s t 0x65 s.met.phase.bits ∧ t.met = s.met))

/-- `MET_PROCESS`: the phase advanced first; a tick when the sum reaches 1.0, the phase keeping the remainder
(45_metronome.md R198). -/
def Obligations.MetProcessResult : Prop :=
  ∀ (s : State) (x : F32), s.met.init = true → x = s.met.phase.add s.met.inc →
    (F32.one.le x = true →
      ∃ t, exec .metProcess s = .next t ∧ Accepted .met s t 0x64 1#32 ∧
        t.met = { s.met with phase := x.sub .one, tick := true } ∧
        (MetInv s.met → (x.sub .one).units = x.units - (unitsPerOne : Int) ∧ (x.sub .one).le half = true)) ∧
    (F32.one.le x = false →
      ∃ t, exec .metProcess s = .next t ∧ Accepted .met s t 0x64 0#32 ∧
        t.met = { s.met with phase := x, tick := false })

/-- A frequency that is not above zero is stored as zero and stops the metronome; a stopped metronome never ticks and
keeps its phase (45_metronome.md R196, R199). -/
def Obligations.StoppedMetronomeNeverTicks : Prop :=
  (∀ (s : State) (f : F32), s.met.init = true → MetInv s.met → f.isFinite = true → f.le .zero = true →
    ∃ t, exec (.metSetFreq f) s = .next t ∧ t.met.freq.isZero = true ∧ t.met.inc.isZero = true ∧
      t.met.phase = s.met.phase) ∧
  (∀ s : State, s.met.init = true → MetInv s.met → s.met.inc.isZero = true → s.met.phase.sign = false →
    ∃ t, exec .metProcess s = .next t ∧ Accepted .met s t 0x64 0#32 ∧ t.met = { s.met with tick := false })

/-- The metronome's invariant survives every step (10_state.md R47). -/
def Obligations.MetInvariantKept : Prop :=
  ∀ s t : State, MetInv s.met → step s = .next t → MetInv t.met

/-- Every unit's invariant holds of the state after reset, and of each unit after its own `*_INIT`, so that it holds in
every state a run reaches (10_state.md R38, R40, R43, R45, R47). -/
def Obligations.InvariantsHoldAtResetAndInit : Prop :=
  Inv .reset ∧ LadCoefsFinite State.reset.lad ∧
  ∀ (i : Instr) (s t : State), isInitCommand i = true → operandRejected (encode i) = false → exec i s = .next t →
    t.initOf (unitOf i) = true ∧
    (unitOf i = .osc → OscInv t.osc) ∧ (unitOf i = .lad → LadInv t.lad) ∧ (unitOf i = .envx → EnvxInv t.envx) ∧
    (unitOf i = .envl → EnvlInv t.envl) ∧ (unitOf i = .seq → SeqInv t.seq) ∧ (unitOf i = .met → MetInv t.met)

end
end

