-- ==== Sys2Proof/Laws/State.lean ====
section
/-! SUPPORT. One lemma for each field of each named update of the state, so that no later proof unfolds a record
update. -/

namespace Sys2Proof.Machine

set_option Elab.async false

/-! ### The response: only the port changes -/

@[simp] theorem State.answer_osc (s : State) (op : BitVec 8) (c : OutcomeCode) (d : BitVec 32) :
    (s.answer op c d).osc = s.osc := rfl
@[simp] theorem State.answer_lad (s : State) (op : BitVec 8) (c : OutcomeCode) (d : BitVec 32) :
    (s.answer op c d).lad = s.lad := rfl
@[simp] theorem State.answer_envx (s : State) (op : BitVec 8) (c : OutcomeCode) (d : BitVec 32) :
    (s.answer op c d).envx = s.envx := rfl
@[simp] theorem State.answer_envl (s : State) (op : BitVec 8) (c : OutcomeCode) (d : BitVec 32) :
    (s.answer op c d).envl = s.envl := rfl
@[simp] theorem State.answer_seq (s : State) (op : BitVec 8) (c : OutcomeCode) (d : BitVec 32) :
    (s.answer op c d).seq = s.seq := rfl
@[simp] theorem State.answer_met (s : State) (op : BitVec 8) (c : OutcomeCode) (d : BitVec 32) :
    (s.answer op c d).met = s.met := rfl
@[simp] theorem State.answer_err (s : State) (op : BitVec 8) (c : OutcomeCode) (d : BitVec 32) :
    (s.answer op c d).err = s.err := rfl
@[simp] theorem State.answer_inbox (s : State) (op : BitVec 8) (c : OutcomeCode) (d : BitVec 32) :
    (s.answer op c d).port.inbox = s.port.inbox := rfl
@[simp] theorem State.answer_rsp (s : State) (op : BitVec 8) (c : OutcomeCode) (d : BitVec 32) :
    (s.answer op c d).port.rsp = some (rspWord op c s.status d) := rfl
@[simp] theorem State.answer_log (s : State) (op : BitVec 8) (c : OutcomeCode) (d : BitVec 32) :
    (s.answer op c d).port.log = s.port.log ++ [rspWord op c s.status d] := rfl
@[simp] theorem State.answer_status (s : State) (op : BitVec 8) (c : OutcomeCode) (d : BitVec 32) :
    (s.answer op c d).status = s.status := rfl

/-! ### Hardware reset: the reset state, with the host's side of the port kept -/

@[simp] theorem hardwareReset_osc (s : State) : (hardwareReset s).osc = State.reset.osc := rfl
@[simp] theorem hardwareReset_lad (s : State) : (hardwareReset s).lad = State.reset.lad := rfl
@[simp] theorem hardwareReset_envx (s : State) : (hardwareReset s).envx = State.reset.envx := rfl
@[simp] theorem hardwareReset_envl (s : State) : (hardwareReset s).envl = State.reset.envl := rfl
@[simp] theorem hardwareReset_seq (s : State) : (hardwareReset s).seq = State.reset.seq := rfl
@[simp] theorem hardwareReset_met (s : State) : (hardwareReset s).met = State.reset.met := rfl
@[simp] theorem hardwareReset_err (s : State) : (hardwareReset s).err = false := rfl
@[simp] theorem hardwareReset_rsp (s : State) : (hardwareReset s).port.rsp = none := rfl
@[simp] theorem hardwareReset_inbox (s : State) : (hardwareReset s).port.inbox = s.port.inbox := rfl
@[simp] theorem hardwareReset_log (s : State) : (hardwareReset s).port.log = s.port.log := rfl

/-! ### Presenting a word at the command port -/

@[simp] theorem State.withFetchWord_osc (s : State) (n w : Nat) : (s.withFetchWord n w).osc = s.osc := rfl
@[simp] theorem State.withFetchWord_lad (s : State) (n w : Nat) : (s.withFetchWord n w).lad = s.lad := rfl
@[simp] theorem State.withFetchWord_envx (s : State) (n w : Nat) : (s.withFetchWord n w).envx = s.envx := rfl
@[simp] theorem State.withFetchWord_envl (s : State) (n w : Nat) : (s.withFetchWord n w).envl = s.envl := rfl
@[simp] theorem State.withFetchWord_seq (s : State) (n w : Nat) : (s.withFetchWord n w).seq = s.seq := rfl
@[simp] theorem State.withFetchWord_met (s : State) (n w : Nat) : (s.withFetchWord n w).met = s.met := rfl
@[simp] theorem State.withFetchWord_err (s : State) (n w : Nat) : (s.withFetchWord n w).err = s.err := rfl

/-! ### The three regenerations: one array each -/

@[simp] theorem regenGates_init (q : SeqState) : (regenGates q).init = q.init := rfl
@[simp] theorem regenGates_len (q : SeqState) : (regenGates q).len = q.len := rfl
@[simp] theorem regenGates_cpx (q : SeqState) : (regenGates q).cpx = q.cpx := rfl
@[simp] theorem regenGates_density (q : SeqState) : (regenGates q).density = q.density := rfl
@[simp] theorem regenGates_spread (q : SeqState) : (regenGates q).spread = q.spread := rfl
@[simp] theorem regenGates_bias (q : SeqState) : (regenGates q).bias = q.bias := rfl
@[simp] theorem regenGates_cvseed (q : SeqState) : (regenGates q).cvseed = q.cvseed := rfl
@[simp] theorem regenGates_palseed (q : SeqState) : (regenGates q).palseed = q.palseed := rfl
@[simp] theorem regenGates_cur (q : SeqState) : (regenGates q).cur = q.cur := rfl
@[simp] theorem regenGates_gateflag (q : SeqState) : (regenGates q).gateflag = q.gateflag := rfl
@[simp] theorem regenGates_cv (q : SeqState) : (regenGates q).cv = q.cv := rfl
@[simp] theorem regenGates_pal (q : SeqState) : (regenGates q).pal = q.pal := rfl
@[simp] theorem regenGates_gate (q : SeqState) :
    (regenGates q).gate = vectorOf 32 false (gatesOf q.density) := rfl

@[simp] theorem regenCv_init (q : SeqState) : (regenCv q).init = q.init := rfl
@[simp] theorem regenCv_len (q : SeqState) : (regenCv q).len = q.len := rfl
@[simp] theorem regenCv_cpx (q : SeqState) : (regenCv q).cpx = q.cpx := rfl
@[simp] theorem regenCv_density (q : SeqState) : (regenCv q).density = q.density := rfl
@[simp] theorem regenCv_spread (q : SeqState) : (regenCv q).spread = q.spread := rfl
@[simp] theorem regenCv_bias (q : SeqState) : (regenCv q).bias = q.bias := rfl
@[simp] theorem regenCv_cvseed (q : SeqState) : (regenCv q).cvseed = q.cvseed := rfl
@[simp] theorem regenCv_palseed (q : SeqState) : (regenCv q).palseed = q.palseed := rfl
@[simp] theorem regenCv_cur (q : SeqState) : (regenCv q).cur = q.cur := rfl
@[simp] theorem regenCv_gateflag (q : SeqState) : (regenCv q).gateflag = q.gateflag := rfl
@[simp] theorem regenCv_gate (q : SeqState) : (regenCv q).gate = q.gate := rfl
@[simp] theorem regenCv_pal (q : SeqState) : (regenCv q).pal = q.pal := rfl
@[simp] theorem regenCv_cv (q : SeqState) :
    (regenCv q).cv = vectorOf 32 .zero (cvsOf q.pal q.cpx.toNat q.spread q.cvseed) := rfl

@[simp] theorem regenPalCv_init (q : SeqState) : (regenPalCv q).init = q.init := rfl
@[simp] theorem regenPalCv_len (q : SeqState) : (regenPalCv q).len = q.len := rfl
@[simp] theorem regenPalCv_cpx (q : SeqState) : (regenPalCv q).cpx = q.cpx := rfl
@[simp] theorem regenPalCv_density (q : SeqState) : (regenPalCv q).density = q.density := rfl
@[simp] theorem regenPalCv_spread (q : SeqState) : (regenPalCv q).spread = q.spread := rfl
@[simp] theorem regenPalCv_bias (q : SeqState) : (regenPalCv q).bias = q.bias := rfl
@[simp] theorem regenPalCv_cvseed (q : SeqState) : (regenPalCv q).cvseed = q.cvseed := rfl
@[simp] theorem regenPalCv_palseed (q : SeqState) : (regenPalCv q).palseed = q.palseed := rfl
@[simp] theorem regenPalCv_cur (q : SeqState) : (regenPalCv q).cur = q.cur := rfl
@[simp] theorem regenPalCv_gateflag (q : SeqState) : (regenPalCv q).gateflag = q.gateflag := rfl
@[simp] theorem regenPalCv_gate (q : SeqState) : (regenPalCv q).gate = q.gate := rfl
@[simp] theorem regenPalCv_pal (q : SeqState) :
    (regenPalCv q).pal = vectorOf 32 .zero (paletteOf q.palseed q.cpx.toNat q.bias) := rfl
@[simp] theorem regenPalCv_cv (q : SeqState) :
    (regenPalCv q).cv = vectorOf 32 .zero (cvsOf (regenPalCv q).pal q.cpx.toNat q.spread q.cvseed) := rfl

/-! ### One filter stage: its own two memory cells -/

@[simp] theorem stageStore_init (l : LadState) (x : F32) (i : Fin 4) : (stageStore l x i).init = l.init := rfl
@[simp] theorem stageStore_fs (l : LadState) (x : F32) (i : Fin 4) : (stageStore l x i).fs = l.fs := rfl
@[simp] theorem stageStore_fc (l : LadState) (x : F32) (i : Fin 4) : (stageStore l x i).fc = l.fc := rfl
@[simp] theorem stageStore_res (l : LadState) (x : F32) (i : Fin 4) : (stageStore l x i).res = l.res := rfl
@[simp] theorem stageStore_k (l : LadState) (x : F32) (i : Fin 4) : (stageStore l x i).k = l.k := rfl
@[simp] theorem stageStore_alpha (l : LadState) (x : F32) (i : Fin 4) : (stageStore l x i).alpha = l.alpha := rfl
@[simp] theorem stageStore_qadj (l : LadState) (x : F32) (i : Fin 4) : (stageStore l x i).qadj = l.qadj := rfl
@[simp] theorem stageStore_mode (l : LadState) (x : F32) (i : Fin 4) : (stageStore l x i).mode = l.mode := rfl
@[simp] theorem stageStore_oldin (l : LadState) (x : F32) (i : Fin 4) : (stageStore l x i).oldin = l.oldin := rfl
@[simp] theorem stageStore_z0 (l : LadState) (x : F32) (i : Fin 4) :
    (stageStore l x i).z0 = memWrite l.z0 i x := rfl
@[simp] theorem stageStore_z1 (l : LadState) (x : F32) (i : Fin 4) :
    (stageStore l x i).z1 = memWrite l.z1 i (stageOut l x i) := rfl

end Sys2Proof.Machine
end

