-- ==== Sys2Proof/Laws/Ops.lean ====
section
/-! SUPPORT. One lemma for each shared operation, saying once everything it can do. -/

namespace Sys2Proof.Machine

set_option Elab.async false

/-! ### The response word -/

/-- The five fields of a 64-bit word built from them. -/
theorem slices_append (a b s z : BitVec 8) (d : BitVec 32) :
    (a ++ b ++ s ++ z ++ d).extractLsb' 56 8 = a ∧ (a ++ b ++ s ++ z ++ d).extractLsb' 48 8 = b ∧
    (a ++ b ++ s ++ z ++ d).extractLsb' 40 8 = s ∧ (a ++ b ++ s ++ z ++ d).extractLsb' 32 8 = z ∧
    (a ++ b ++ s ++ z ++ d).extractLsb' 0 32 = d := by
  refine ⟨?_, ?_, ?_, ?_, ?_⟩ <;>
  · ext i hi
    simp only [BitVec.getElem_extractLsb', BitVec.getLsbD_append]
    grind

@[simp] theorem rspOp_rspWord (op : BitVec 8) (c : OutcomeCode) (st : BitVec 8) (d : BitVec 32) :
    rspOp (rspWord op c st d) = op := (slices_append op (codeByte c) st 0#8 d).1
@[simp] theorem rspCode_rspWord (op : BitVec 8) (c : OutcomeCode) (st : BitVec 8) (d : BitVec 32) :
    rspCode (rspWord op c st d) = codeByte c := (slices_append op (codeByte c) st 0#8 d).2.1
@[simp] theorem rspStatus_rspWord (op : BitVec 8) (c : OutcomeCode) (st : BitVec 8) (d : BitVec 32) :
    rspStatus (rspWord op c st d) = st := (slices_append op (codeByte c) st 0#8 d).2.2.1
@[simp] theorem rspZero_rspWord (op : BitVec 8) (c : OutcomeCode) (st : BitVec 8) (d : BitVec 32) :
    rspZero (rspWord op c st d) = 0 := (slices_append op (codeByte c) st 0#8 d).2.2.2.1
@[simp] theorem rspData_rspWord (op : BitVec 8) (c : OutcomeCode) (st : BitVec 8) (d : BitVec 32) :
    rspData (rspWord op c st d) = d := (slices_append op (codeByte c) st 0#8 d).2.2.2.2

/-! ### Answering, responding, refusing -/

/-- A state reached without touching the port, then answered, has answered exactly once. -/
theorem answered_answer {s t : State} (h : t.port = s.port) (op : BitVec 8) (c : OutcomeCode) (d : BitVec 32) :
    Answered s (t.answer op c d) op (codeByte c) d := by
  refine ⟨by simp [h], rspWord op c t.status d, by simp, by simp [h], ?_, ?_, ?_, ?_, ?_⟩ <;> simp

/-- `respond`, all it does: a next state that is `t` but for the response given. -/
theorem respond_spec {s t : State} (h : t.port = s.port) (op : BitVec 8) (d : BitVec 32) :
    ∃ t', respond op d t = .next t' ∧ Answered s t' op 0x00 d ∧ t'.osc = t.osc ∧ t'.lad = t.lad ∧
      t'.envx = t.envx ∧ t'.envl = t.envl ∧ t'.seq = t.seq ∧ t'.met = t.met ∧ t'.err = t.err :=
  ⟨t.answer op .ok d, rfl, answered_answer h op .ok d, rfl, rfl, rfl, rfl, rfl, rfl, rfl⟩

/-- `refuse`, all it does: a next state, refused with the code. -/
theorem refuse_spec (s : State) (op : BitVec 8) (c : OutcomeCode) :
    ∃ t, refuse op c s = .next t ∧ Refused s t op (codeByte c) := by
  refine ⟨({ s with err := true } : State).answer op c 0#32, rfl, answered_answer rfl op c 0#32, ?_, rfl⟩
  simp [SameUnits, KeepsUnitsBut]

@[simp] theorem whenInit_true (op : BitVec 8) (s : State) (k : StepResult) : whenInit op true s k = k := rfl
@[simp] theorem whenInit_false (op : BitVec 8) (s : State) (k : StepResult) :
    whenInit op false s k = refuse op .notInit s := rfl
@[simp] theorem whenAccepted_true (op : BitVec 8) (s : State) (k : StepResult) : whenAccepted op true s k = k := rfl
@[simp] theorem whenAccepted_false (op : BitVec 8) (s : State) (k : StepResult) :
    whenAccepted op false s k = refuse op .badArg s := rfl

/-- `whenInit`, both ways. -/
theorem whenInit_cases (op : BitVec 8) (init : Bool) (s : State) (k : StepResult) :
    (init = true ∧ whenInit op init s k = k) ∨ (init = false ∧ whenInit op init s k = refuse op .notInit s) := by
  cases init <;> simp

/-- `whenAccepted`, both ways. -/
theorem whenAccepted_cases (op : BitVec 8) (ok : Bool) (s : State) (k : StepResult) :
    (ok = true ∧ whenAccepted op ok s k = k) ∨ (ok = false ∧ whenAccepted op ok s k = refuse op .badArg s) := by
  cases ok <;> simp

/-- The state that a refusal leaves. -/
theorem refuse_next {op : BitVec 8} {c : OutcomeCode} {s t : State} (h : refuse op c s = .next t) :
    t = ({ s with err := true } : State).answer op c 0#32 := by
  unfold refuse at h; injection h with h; exact h.symm

/-- The state that a normal end leaves. -/
theorem respond_next {op : BitVec 8} {d : BitVec 32} {s t : State} (h : respond op d s = .next t) :
    t = s.answer op .ok d := by
  unfold respond at h; injection h with h; exact h.symm

/-- Past the test of the `init` bit, or refused there. -/
theorem whenInit_next {op : BitVec 8} {init : Bool} {s t : State} {k : StepResult}
    (h : whenInit op init s k = .next t) :
    (init = true ∧ k = .next t) ∨ (init = false ∧ t = ({ s with err := true } : State).answer op .notInit 0#32) := by
  cases init
  · exact .inr ⟨rfl, refuse_next h⟩
  · exact .inl ⟨rfl, h⟩

/-- Past the test of the operand, or refused there. -/
theorem whenAccepted_next {op : BitVec 8} {ok : Bool} {s t : State} {k : StepResult}
    (h : whenAccepted op ok s k = .next t) :
    (ok = true ∧ k = .next t) ∨ (ok = false ∧ t = ({ s with err := true } : State).answer op .badArg 0#32) := by
  cases ok
  · exact .inr ⟨rfl, refuse_next h⟩
  · exact .inl ⟨rfl, h⟩

/-! ### The internal arrays -/

@[simp] theorem memRead_memWrite_same {α : Type} {n : Nat} (a : Vector α n) (i : Fin n) (v : α) :
    memRead (memWrite a i v) i = v := by
  simp [memRead, memWrite]

theorem memRead_memWrite_other {α : Type} {n : Nat} (a : Vector α n) (i j : Fin n) (v : α) (h : j ≠ i) :
    memRead (memWrite a i v) j = memRead a j := by
  have : (i : Nat) ≠ (j : Nat) := fun e => h (Fin.ext e.symm)
  simp [memRead, memWrite, this]

/-- `vectorOf`, all it does: element `i` is entry `i` of the list, the default beyond the list's end. -/
@[simp] theorem memRead_vectorOf {α : Type} (n : Nat) (d : α) (l : List α) (i : Fin n) :
    memRead (vectorOf n d l) i = l.getD i d := by
  simp [memRead, vectorOf]

/-! ### One step -/

/-- `hardwareReset`, all it does. -/
theorem hardwareReset_eq (s : State) :
    hardwareReset s = { State.reset with port := { inbox := s.port.inbox, rsp := none, log := s.port.log } } := rfl

/-- With nothing presented the block holds its state. -/
theorem step_idle (s : State) (h : s.port.inbox = []) :
    step s = .next { s with port := { s.port with rsp := none } } := by
  simp [step, h]

/-- A reset event. -/
theorem step_reset (s : State) (c : Option CmdWord) (rest : List HostEvent) (h : s.port.inbox = .reset c :: rest) :
    step s = .next (hardwareReset { s with port := { s.port with inbox := rest } }) := by
  simp [step, h]

/-- A word that decodes is executed. -/
theorem step_command (s : State) (w : CmdWord) (i : Instr) (rest : List HostEvent)
    (h : s.port.inbox = .command w :: rest) (hd : decode w = .ok i) :
    step s = exec i { s with port := { s.port with inbox := rest } } := by
  simp [step, h, hd]

/-- A word that does not is refused with `BADCMD`. -/
theorem step_bad_command (s : State) (w : CmdWord) (e : DecodeError) (rest : List HostEvent)
    (h : s.port.inbox = .command w :: rest) (hd : decode w = .error e) :
    step s = refuse w.op .badCmd { s with port := { s.port with inbox := rest } } := by
  simp [step, h, hd, refuseBadCommand]

end Sys2Proof.Machine
end

