-- ==== Sys2Proof/Laws/Exec.lean ====
section
/-! SUPPORT. What a command can do, once for all commands: the two tests, then an effect on its own unit and one response.
Later proofs take a command apart with `exec_eq` and `exec_next` and never unfold a meaning. -/

namespace Sys2Proof.Machine

set_option Elab.async false

/-- The operand test of each command. -/
def operandOk (i : Instr) : Bool :=
  match i with
  | .nop => true
  | .getStatus => true
  | .oscInit fs => acceptsRate fs
  | .oscSetFreq f => f.isFinite
  | .oscSetWave _ => true
  | .oscPhaseAdd d => d.isFinite
  | .oscProcess => true
  | .ladInit fs => acceptsRate fs
  | .ladSetFreq f => f.isFinite
  | .ladSetRes r => r.isFinite
  | .ladSetMode _ => true
  | .ladProcess x => x.isFinite
  | .envxInit fs => acceptsRate fs
  | .envxSetCtl c => c.isFinite
  | .envxSetKnob x => x.isFinite
  | .envxTrigger => true
  | .envxProcess => true
  | .envlInit fs => acceptsRate fs
  | .envlSetTime t => t.isFinite
  | .envlTrigger => true
  | .envlProcess => true
  | .seqInit => true
  | .seqSetLen _ => true
  | .seqSetComplexity _ => true
  | .seqSetDensity d => d.isFinite
  | .seqProcess => true
  | .seqSetSpread x => x.isFinite
  | .seqSetBias b => b.isFinite
  | .seqSetCvSeed _ => true
  | .seqSetPalSeed _ => true
  | .seqRegenCv => true
  | .seqReadCv idx => acceptsIndex idx
  | .seqReadGates => true
  | .metInit fs => acceptsRate fs
  | .metSetFreq f => f.isFinite
  | .metReset => true
  | .metProcess => true
  | .metGetPhase => true

/-- The datum of an accepted command. -/
def dataOf (i : Instr) (s : State) : BitVec 32 :=
  match i with
  | .nop => 0#32
  | .getStatus => s.status.setWidth 32
  | .oscInit fs => fs.bits
  | .oscSetFreq f => (f.div s.osc.fs).bits
  | .oscSetWave w => (waveCode (waveOf w)).setWidth 32
  | .oscPhaseAdd d => (s.osc.phase.add d).wrap1.bits
  | .oscProcess => (waveOut s.osc.wave s.osc.phase s.osc.inc s.osc.last).bits
  | .ladInit fs => fs.bits
  | .ladSetFreq f => (fcClamp f s.lad.fs).bits
  | .ladSetRes r => (ladGain (resClamp r)).bits
  | .ladSetMode m => (modeCode (modeOf m)).setWidth 32
  | .ladProcess x => (passesTotal x cfg.ladOs s.lad .zero .zero).bits
  | .envxInit fs => fs.bits
  | .envxSetCtl c => (envxCoef c s.envx.fs).bits
  | .envxSetKnob x =>
    if holdOf (clampUnit x) then s.envx.coef.bits else (envxCoef (knobControl (clampUnit x)) s.envx.fs).bits
  | .envxTrigger => F32.one.bits
  | .envxProcess =>
    if s.envx.hold then cfg.envxHoldLevel.bits
    else (if s.envx.dir then F32.one.sub (s.envx.value.mul s.envx.coef) else s.envx.value.mul s.envx.coef).bits
  | .envlInit fs => fs.bits
  | .envlSetTime t => (envlRate t s.envl.fs).bits
  | .envlTrigger => F32.one.bits
  | .envlProcess => (envlNext s.envl.value s.envl.rate).bits
  | .seqInit => 0#32
  | .seqSetLen n => BitVec.ofNat 32 (clampCount cfg.seqLenMin cfg.seqLenMax n)
  | .seqSetComplexity n => BitVec.ofNat 32 (clampCount cfg.seqCpxMin cfg.seqCpxMax n)
  | .seqSetDensity d => (clampUnit d).bits
  | .seqProcess => (memRead s.seq.cv s.seq.cur.toFin).bits
  | .seqSetSpread x => (clampUnit x).bits
  | .seqSetBias b => (quantBias b).bits
  | .seqSetCvSeed n => n
  | .seqSetPalSeed n => n
  | .seqRegenCv => 0#32
  | .seqReadCv idx => (memRead s.seq.cv (Fin.ofNat 32 idx.toNat)).bits
  | .seqReadGates => gateMask s.seq.gate
  | .metInit fs => fs.bits
  | .metSetFreq f => ((metClamp f s.met.fs).div s.met.fs).bits
  | .metReset => 0#32
  | .metProcess => if tickOf (s.met.phase.add s.met.inc) then 1#32 else 0#32
  | .metGetPhase => s.met.phase.bits

/-- All that an accepted command does, the response apart: an effect on its own unit. -/
def effectOf (i : Instr) (s : State) : State :=
  match i with
  | .nop => s
  | .getStatus => s
  | .oscInit fs =>
    { s with osc := { init := true, fs := fs, freq := .zero, inc := .zero, wave := .sine, phase := .zero,
                      last := .zero, eoc := false, eor := false } }
  | .oscSetFreq f => { s with osc := { s.osc with freq := f, inc := f.div s.osc.fs } }
  | .oscSetWave w => { s with osc := { s.osc with wave := waveOf w } }
  | .oscPhaseAdd d => { s with osc := { s.osc with phase := (s.osc.phase.add d).wrap1 } }
  | .oscProcess =>
    { s with osc := { s.osc with
      last := waveLast s.osc.wave s.osc.phase s.osc.inc s.osc.last, phase := (s.osc.phase.add s.osc.inc).wrap1,
      eoc := eocOf (s.osc.phase.add s.osc.inc), eor := eorOf (s.osc.phase.add s.osc.inc).wrap1 s.osc.inc } }
  | .ladInit fs =>
    { s with lad := { init := true, fs := fs, fc := fcClamp cfg.ladFcInit fs, res := .zero, k := .zero,
                      alpha := ladAlpha (fcClamp cfg.ladFcInit fs) fs, qadj := ladQadj (fcClamp cfg.ladFcInit fs) fs,
                      mode := .lp24, z0 := clearedStages, z1 := clearedStages, oldin := .zero } }
  | .ladSetFreq f =>
    { s with lad := { s.lad with fc := fcClamp f s.lad.fs, alpha := ladAlpha (fcClamp f s.lad.fs) s.lad.fs,
                                 qadj := ladQadj (fcClamp f s.lad.fs) s.lad.fs } }
  | .ladSetRes r => { s with lad := { s.lad with res := resClamp r, k := ladGain (resClamp r) } }
  | .ladSetMode m => { s with lad := { s.lad with mode := modeOf m } }
  | .ladProcess x => { s with lad := { passesState x cfg.ladOs s.lad .zero with oldin := x } }
  | .envxInit fs =>
    { s with envx := { init := true, fs := fs, value := .zero, coef := .zero, dir := false, hold := false } }
  | .envxSetCtl c =>
    { s with envx := { s.envx with coef := envxCoef c s.envx.fs, dir := envxDir c, hold := false } }
  | .envxSetKnob x =>
    if holdOf (clampUnit x) then { s with envx := { s.envx with hold := true } }
    else { s with envx := { s.envx with coef := envxCoef (knobControl (clampUnit x)) s.envx.fs,
                                        dir := envxDir (knobControl (clampUnit x)), hold := false } }
  | .envxTrigger => { s with envx := { s.envx with value := .one } }
  | .envxProcess => if s.envx.hold then s else { s with envx := { s.envx with value := s.envx.value.mul s.envx.coef } }
  | .envlInit fs => { s with envl := { init := true, fs := fs, value := .zero, rate := .one } }
  | .envlSetTime t => { s with envl := { s.envl with rate := envlRate t s.envl.fs } }
  | .envlTrigger => { s with envl := { s.envl with value := .one } }
  | .envlProcess => { s with envl := { s.envl with value := envlNext s.envl.value s.envl.rate } }
  | .seqInit => { s with seq := regenGates (regenPalCv (seqDefaults s.seq)) }
  | .seqSetLen n =>
    { s with seq := { s.seq with
      len := BitVec.ofNat 6 (clampCount cfg.seqLenMin cfg.seqLenMax n),
      cur := BitVec.ofNat 5 (s.seq.cur.toNat % clampCount cfg.seqLenMin cfg.seqLenMax n) } }
  | .seqSetComplexity n =>
    { s with seq := regenPalCv { s.seq with cpx := BitVec.ofNat 6 (clampCount cfg.seqCpxMin cfg.seqCpxMax n) } }
  | .seqSetDensity d => { s with seq := regenGates { s.seq with density := clampUnit d } }
  | .seqProcess =>
    { s with seq := { s.seq with
      gateflag := memRead s.seq.gate s.seq.cur.toFin,
      cur := BitVec.ofNat 5 ((s.seq.cur.toNat + 1) % s.seq.len.toNat) } }
  | .seqSetSpread x => { s with seq := regenCv { s.seq with spread := clampUnit x } }
  | .seqSetBias b => { s with seq := regenPalCv { s.seq with bias := quantBias b } }
  | .seqSetCvSeed n => { s with seq := regenCv { s.seq with cvseed := n } }
  | .seqSetPalSeed n => { s with seq := regenPalCv { s.seq with palseed := n } }
  | .seqRegenCv => { s with seq := regenCv s.seq }
  | .seqReadCv _ => s
  | .seqReadGates => s
  | .metInit fs =>
    { s with met := { init := true, fs := fs, freq := .zero, inc := .zero, phase := .zero, tick := false } }
  | .metSetFreq f =>
    { s with met := { s.met with freq := metClamp f s.met.fs, inc := (metClamp f s.met.fs).div s.met.fs } }
  | .metReset => { s with met := { s.met with phase := .zero } }
  | .metProcess =>
    if tickOf (s.met.phase.add s.met.inc) then
      { s with met := { s.met with phase := (s.met.phase.add s.met.inc).sub .one, tick := true } }
    else { s with met := { s.met with phase := s.met.phase.add s.met.inc, tick := false } }
  | .metGetPhase => s

/-- The effect of a command leaves the other units, the error bit and the port alone. -/
theorem effectOf_keeps (i : Instr) (s : State) :
    KeepsUnitsBut (unitOf i) s (effectOf i s) ∧ (effectOf i s).err = s.err ∧ (effectOf i s).port = s.port := by
  cases i
  case envxSetKnob x => simp only [effectOf]; split <;> simp [KeepsUnitsBut, unitOf]
  case envxProcess => simp only [effectOf]; split <;> simp [KeepsUnitsBut, unitOf]
  case metProcess => simp only [effectOf]; split <;> simp [KeepsUnitsBut, unitOf]
  all_goals simp [KeepsUnitsBut, unitOf, effectOf]
/-- Every command: the `init` test, the operand test, then the effect and the response. -/
theorem exec_eq (i : Instr) (s : State) :
    exec i s = whenInit (opcodeOf i) (isInitCommand i || s.initOf (unitOf i)) s
      (whenAccepted (opcodeOf i) (operandOk i) s (respond (opcodeOf i) (dataOf i s) (effectOf i s))) := by
  cases i
  case oscInit fs => exact (whenInit_true _ s _).symm
  case ladInit fs => exact (whenInit_true _ s _).symm
  case envxInit fs => exact (whenInit_true _ s _).symm
  case envlInit fs => exact (whenInit_true _ s _).symm
  case metInit fs => exact (whenInit_true _ s _).symm
  case seqInit => exact (whenInit_true _ s _).symm
  case envxSetKnob x =>
    by_cases h : holdOf (clampUnit x) = true <;>
      simp only [exec, execEnvxSetKnob, isInitCommand, State.initOf, unitOf, operandOk, dataOf, effectOf, acceptsNumber,
        Bool.false_or, h, if_true, if_false, Bool.false_eq_true]
  case envxProcess =>
    by_cases h : s.envx.hold = true <;>
      simp only [exec, execEnvxProcess, isInitCommand, State.initOf, unitOf, operandOk, dataOf, effectOf,
        Bool.false_or, whenAccepted_true, h, if_true, if_false, Bool.false_eq_true]
  case metProcess =>
    by_cases h : tickOf (s.met.phase.add s.met.inc) = true <;>
      simp only [exec, execMetProcess, isInitCommand, State.initOf, unitOf, operandOk, dataOf, effectOf, Bool.false_or,
        whenAccepted_true, h, if_true, if_false, Bool.false_eq_true]
  all_goals rfl

/-- What a next state can be: the unit's `init` bit is missing, the operand is rejected, or the command was accepted. -/
theorem exec_next {i : Instr} {s t : State} (h : exec i s = .next t) :
    ((isInitCommand i || s.initOf (unitOf i)) = false ∧
      t = ({ s with err := true } : State).answer (opcodeOf i) .notInit 0#32) ∨
    ((isInitCommand i || s.initOf (unitOf i)) = true ∧ operandOk i = false ∧
      t = ({ s with err := true } : State).answer (opcodeOf i) .badArg 0#32) ∨
    ((isInitCommand i || s.initOf (unitOf i)) = true ∧ operandOk i = true ∧
      t = (effectOf i s).answer (opcodeOf i) .ok (dataOf i s)) := by
  rw [exec_eq] at h
  rcases whenInit_next h with ⟨hi, h⟩ | ⟨hi, h⟩
  · rcases whenAccepted_next h with ⟨ha, h⟩ | ⟨ha, h⟩
    · exact .inr (.inr ⟨hi, ha, respond_next h⟩)
    · exact .inr (.inl ⟨hi, ha, h⟩)
  · exact .inl ⟨hi, h⟩

/-- An accepted command. -/
theorem exec_accepted {i : Instr} {s : State} (hi : (isInitCommand i || s.initOf (unitOf i)) = true)
    (ha : operandOk i = true) : exec i s = .next ((effectOf i s).answer (opcodeOf i) .ok (dataOf i s)) := by
  rw [exec_eq, hi, ha]; rfl

/-- A command of a unit that is not initialised. -/
theorem exec_not_init {i : Instr} {s : State} (hi : (isInitCommand i || s.initOf (unitOf i)) = false) :
    exec i s = .next (({ s with err := true } : State).answer (opcodeOf i) .notInit 0#32) := by
  rw [exec_eq, hi]; rfl

/-- A command with a rejected operand. -/
theorem exec_bad_arg {i : Instr} {s : State} (hi : (isInitCommand i || s.initOf (unitOf i)) = true)
    (ha : operandOk i = false) :
    exec i s = .next (({ s with err := true } : State).answer (opcodeOf i) .badArg 0#32) := by
  rw [exec_eq, hi, ha]; rfl

/-- What a step can do: nothing, reset, execute the command that the next word decodes to, or refuse the word. -/
theorem step_next {s t : State} (h : step s = .next t) :
    (s.port.inbox = [] ∧ t = { s with port := { s.port with rsp := none } }) ∨
    (∃ c rest, s.port.inbox = .reset c :: rest ∧
      t = hardwareReset { s with port := { s.port with inbox := rest } }) ∨
    (∃ w rest i, s.port.inbox = .command w :: rest ∧ decode w = .ok i ∧
      exec i { s with port := { s.port with inbox := rest } } = .next t) ∨
    (∃ w rest e, s.port.inbox = .command w :: rest ∧ decode w = .error e ∧
      t = ({ s with err := true, port := { s.port with inbox := rest } } : State).answer w.op .badCmd 0#32) := by
  rcases hb : s.port.inbox with _ | ⟨e, rest⟩
  · rw [step_idle s hb] at h
    injection h with h
    exact .inl ⟨rfl, h.symm⟩
  · rcases e with w | c
    · rcases hd : decode w with e | i
      · rw [step_bad_command s w e rest hb hd] at h
        exact .inr (.inr (.inr ⟨w, rest, e, rfl, hd, refuse_next h⟩))
      · rw [step_command s w i rest hb hd] at h
        exact .inr (.inr (.inl ⟨w, rest, i, rfl, hd, h⟩))
    · rw [step_reset s c rest hb] at h
      injection h with h
      exact .inr (.inl ⟨c, rest, rfl, h.symm⟩)

/-- A property of one unit that reset has and that accepted commands keep survives every step. -/
theorem step_keeps {α : Type} (P : α → Prop) (f : State → α) (hport : ∀ s p e, f { s with port := p, err := e } = f s)
    (hreset : P (f .reset))
    (hexec : ∀ i s, (isInitCommand i || s.initOf (unitOf i)) = true → operandOk i = true → P (f s) →
      P (f (effectOf i s)))
    (s t : State) (h : P (f s)) (hs : step s = .next t) : P (f t) := by
  rcases step_next hs with ⟨_, rfl⟩ | ⟨c, r, _, rfl⟩ | ⟨w, r, i, _, _, he⟩ | ⟨w, r, e, _, _, rfl⟩
  · rw [hport s _ s.err]; exact h
  · have := hport .reset { inbox := r, rsp := none, log := s.port.log } false
    exact this ▸ hreset
  · have h' : P (f { s with port := { s.port with inbox := r } }) := by rw [hport s _ s.err]; exact h
    rcases exec_next he with ⟨_, rfl⟩ | ⟨_, _, rfl⟩ | ⟨h1, h2, rfl⟩
    · exact (hport s _ true) ▸ h
    · exact (hport s _ true) ▸ h
    · have := hexec i _ h1 h2 h'
      generalize effectOf i { s with port := { s.port with inbox := r } } = u at *
      exact (hport u _ u.err) ▸ this
  · exact (hport s _ true) ▸ h

end Sys2Proof.Machine
end

