-- ==== Sys2Proof/Laws/Float.lean ====
section
/-! SUPPORT. Binary32 arithmetic: rounding is monotone and exact on what a pattern represents, and what follows for the
order and the operations. -/
namespace Sys2Proof

set_option Elab.async false

/-! ### Rounding a ratio of natural numbers -/

theorem roundEven_ge (n d : Nat) : n / d ≤ roundEven n d := by
  unfold roundEven; split <;> omega

theorem roundEven_le (n d : Nat) : roundEven n d ≤ n / d + 1 := by
  unfold roundEven; split <;> omega

/-- A whole ratio is not rounded. -/
theorem roundEven_mul (m d : Nat) (hd : 0 < d) : roundEven (m * d) d = m := by
  simp [roundEven, hd]

/-- Rounding to nearest even is monotone in the ratio. -/
theorem roundEven_mono {n₁ d₁ n₂ d₂ : Nat} (h₁ : 0 < d₁) (h₂ : 0 < d₂) (h : n₁ * d₂ ≤ n₂ * d₁) :
    roundEven n₁ d₁ ≤ roundEven n₂ d₂ := by
  have e₁ := Nat.div_add_mod n₁ d₁
  have e₂ := Nat.div_add_mod n₂ d₂
  have r₁ := Nat.mod_lt n₁ h₁
  have r₂ := Nat.mod_lt n₂ h₂
  have hq : n₁ / d₁ ≤ n₂ / d₂ := by
    rw [Nat.le_div_iff_mul_le h₂]
    by_contra hc
    push Not at hc
    have : n₁ / d₁ * d₂ * d₁ > n₂ * d₁ := Nat.mul_lt_mul_of_pos_right hc h₁
    nlinarith [Nat.div_mul_le_self n₁ d₁]
  rcases Nat.lt_or_ge (n₁ / d₁) (n₂ / d₂) with hlt | hge
  · exact (roundEven_le n₁ d₁).trans (Nat.succ_le_of_lt hlt |>.trans (roundEven_ge n₂ d₂))
  · have hqe : n₁ / d₁ = n₂ / d₂ := le_antisymm hq hge
    have hr : n₁ % d₁ * d₂ ≤ n₂ % d₂ * d₁ := by
      rw [hqe] at e₁
      generalize n₂ / d₂ = q at *
      generalize n₁ % d₁ = a at *
      generalize n₂ % d₂ = b at *
      subst e₁ e₂
      nlinarith
    unfold roundEven
    rw [hqe]
    generalize n₂ / d₂ = q at *
    generalize n₁ % d₁ = a at *
    generalize n₂ % d₂ = b at *
    split <;> split
    · omega
    · omega
    · rename_i hn hy
      exfalso
      apply hn
      rcases hy with hy | ⟨hy, hev⟩
      · left
        by_contra hc
        push Not at hc
        nlinarith
      · rcases Nat.lt_trichotomy (2 * a) d₁ with hl | hl | hl
        · left; exact hl
        · right; exact ⟨hl, hev⟩
        · exfalso; nlinarith
    · omega

/-! ### Rounding to a magnitude pattern -/

theorem log2_spec {q : Nat} (h : q ≠ 0) : 2 ^ Nat.log2 q ≤ q ∧ q < 2 ^ (Nat.log2 q + 1) :=
  ⟨Nat.log2_self_le h, Nat.lt_log2_self⟩

/-- The pattern before the overflow test. -/
def roundMagRaw (n d : Nat) : Nat :=
  (Nat.log2 (n / d) - 23) * 2 ^ 23 + roundEven n (d * 2 ^ (Nat.log2 (n / d) - 23))

theorem roundMag_eq (n d : Nat) : roundMag n d = min (roundMagRaw n d) infMag := rfl

theorem roundMag_le_inf (n d : Nat) : roundMag n d ≤ infMag := Nat.min_le_right _ _

theorem log2_mono {a b : Nat} (h : a ≤ b) : Nat.log2 a ≤ Nat.log2 b := by
  rcases Nat.eq_zero_or_pos a with rfl | ha
  · simp
  · rw [Nat.le_log2 (by omega)]
    exact (Nat.log2_self_le (by omega)).trans h

theorem roundMagRaw_le (n d : Nat) (hd : 0 < d) :
    roundMagRaw n d ≤ (Nat.log2 (n / d) - 23) * 2 ^ 23 + 2 ^ 24 := by
  unfold roundMagRaw
  refine Nat.add_le_add_left ?_ _
  generalize he : Nat.log2 (n / d) - 23 = e
  have hlt : n / d < 2 ^ (e + 24) := by
    rcases Nat.eq_zero_or_pos (n / d) with h0 | hp
    · rw [h0]; positivity
    · exact lt_of_lt_of_le (log2_spec (by omega)).2 (Nat.pow_le_pow_right (by norm_num) (by omega))
  have h : n * 1 ≤ 2 ^ 24 * (d * 2 ^ e) := by
    have := (Nat.div_lt_iff_lt_mul hd).1 hlt
    rw [pow_add] at this
    nlinarith
  have := roundEven_mono (d₁ := d * 2 ^ e) (d₂ := 1) (by positivity) one_pos h
  simpa [roundEven] using this

theorem roundMagRaw_ge (n d : Nat) (hd : 0 < d) (he : 0 < Nat.log2 (n / d) - 23) :
    (Nat.log2 (n / d) - 23) * 2 ^ 23 + 2 ^ 23 ≤ roundMagRaw n d := by
  unfold roundMagRaw
  refine Nat.add_le_add_left ?_ _
  generalize hE : Nat.log2 (n / d) - 23 = e at *
  have hne : n / d ≠ 0 := by intro h0; rw [h0] at hE; simp at hE; omega
  have hle : 2 ^ (e + 23) ≤ n / d := by
    have := (log2_spec hne).1
    have h2 : Nat.log2 (n / d) = e + 23 := by omega
    rwa [h2] at this
  have h : 2 ^ 23 * (d * 2 ^ e) ≤ n * 1 := by
    have := (Nat.le_div_iff_mul_le hd).1 hle
    rw [pow_add] at this
    nlinarith
  have := roundEven_mono (d₁ := 1) (d₂ := d * 2 ^ e) one_pos (by positivity) h
  simpa [roundEven] using this

/-- Rounding to a pattern is monotone in the ratio. -/
theorem roundMag_mono {n₁ d₁ n₂ d₂ : Nat} (h₁ : 0 < d₁) (h₂ : 0 < d₂) (h : n₁ * d₂ ≤ n₂ * d₁) :
    roundMag n₁ d₁ ≤ roundMag n₂ d₂ := by
  have hq : n₁ / d₁ ≤ n₂ / d₂ := by
    rw [Nat.le_div_iff_mul_le h₂]
    by_contra hc
    push Not at hc
    have : n₁ / d₁ * d₂ * d₁ > n₂ * d₁ := Nat.mul_lt_mul_of_pos_right hc h₁
    nlinarith [Nat.div_mul_le_self n₁ d₁]
  have hl := log2_mono hq
  rw [roundMag_eq, roundMag_eq]
  refine min_le_min_right _ ?_
  rcases Nat.lt_or_ge (Nat.log2 (n₁ / d₁) - 23) (Nat.log2 (n₂ / d₂) - 23) with hlt | hge
  · have a := roundMagRaw_le n₁ d₁ h₁
    have b := roundMagRaw_ge n₂ d₂ h₂ (by omega)
    have : (Nat.log2 (n₁ / d₁) - 23 + 1) * 2 ^ 23 ≤ (Nat.log2 (n₂ / d₂) - 23) * 2 ^ 23 :=
      Nat.mul_le_mul_right _ hlt
    omega
  · have he : Nat.log2 (n₁ / d₁) - 23 = Nat.log2 (n₂ / d₂) - 23 := by omega
    unfold roundMagRaw
    rw [he]
    refine Nat.add_le_add_left (roundEven_mono (by positivity) (by positivity) ?_) _
    rw [← mul_assoc, ← mul_assoc]
    exact Nat.mul_le_mul_right _ h

/-- A ratio that a pattern represents rounds to that pattern. -/
theorem roundMag_exact (p d : Nat) (hd : 0 < d) (hp : p ≤ infMag) : roundMag (magUnits p * d) d = p := by
  rw [roundMag_eq]
  suffices h : roundMagRaw (magUnits p * d) d = p by rw [h]; exact Nat.min_eq_left hp
  unfold roundMagRaw
  rw [Nat.mul_div_cancel _ hd]
  unfold magUnits
  split
  · rename_i hlt
    have : Nat.log2 p - 23 = 0 := by
      rcases Nat.eq_zero_or_pos p with rfl | h0
      · simp
      · have := (Nat.log2_lt (by omega)).2 hlt
        omega
    rw [this]; simpa using roundEven_mul p d hd
  · rename_i hge
    have hE : 1 ≤ p / 2 ^ 23 := by omega
    have hlog : Nat.log2 ((2 ^ 23 + p % 2 ^ 23) * 2 ^ (p / 2 ^ 23 - 1)) - 23 = p / 2 ^ 23 - 1 := by
      generalize p / 2 ^ 23 - 1 = e
      have hm := Nat.mod_lt p (show 0 < 2 ^ 23 by norm_num)
      generalize p % 2 ^ 23 = m at *
      have : Nat.log2 ((2 ^ 23 + m) * 2 ^ e) = 23 + e := by
        rw [Nat.log2_eq_iff (by positivity)]
        constructor
        · rw [pow_add]; exact Nat.mul_le_mul_right _ (by omega)
        · rw [show 23 + e + 1 = 24 + e by omega, pow_add]
          exact Nat.mul_lt_mul_of_pos_right (by omega) (by positivity)
      omega
    rw [hlog]
    have : (2 ^ 23 + p % 2 ^ 23) * 2 ^ (p / 2 ^ 23 - 1) * d = (2 ^ 23 + p % 2 ^ 23) * (d * 2 ^ (p / 2 ^ 23 - 1)) := by
      ring
    rw [this, roundEven_mul _ _ (by positivity)]
    omega

/-- A ratio at or below a pattern's value rounds to at most the pattern. -/
theorem roundMag_le_of_le {n d p : Nat} (hd : 0 < d) (hp : p ≤ infMag) (h : n ≤ magUnits p * d) : roundMag n d ≤ p := by
  have := roundMag_mono (d₁ := d) (d₂ := d) hd hd (Nat.mul_le_mul_right d h)
  rwa [roundMag_exact p d hd hp] at this

/-- A ratio at or above a pattern's value rounds to at least the pattern. -/
theorem le_roundMag_of_le {n d p : Nat} (hd : 0 < d) (hp : p ≤ infMag) (h : magUnits p * d ≤ n) : p ≤ roundMag n d := by
  have := roundMag_mono (d₁ := d) (d₂ := d) hd hd (Nat.mul_le_mul_right d h)
  rwa [roundMag_exact p d hd hp] at this

/-- The value of a pattern rises with the pattern. -/
theorem magUnits_strictMono {p q : Nat} (h : p < q) : magUnits p < magUnits q := by
  have key : ∀ p, magUnits p < magUnits (p + 1) := by
    intro p
    unfold magUnits
    split <;> split
    · omega
    · have : p + 1 = 2 ^ 23 := by omega
      rw [this]
      have e : (2 ^ 23 + 2 ^ 23 % 2 ^ 23) * 2 ^ (2 ^ 23 / 2 ^ 23 - 1) = 2 ^ 23 := by norm_num
      omega
    · omega
    · rcases Nat.lt_or_ge (p % 2 ^ 23 + 1) (2 ^ 23) with hl | hg
      · have h1 : (p + 1) % 2 ^ 23 = p % 2 ^ 23 + 1 := by omega
        have h2 : (p + 1) / 2 ^ 23 = p / 2 ^ 23 := by omega
        rw [h1, h2]
        exact Nat.mul_lt_mul_of_pos_right (by omega) (by positivity)
      · have h1 : (p + 1) % 2 ^ 23 = 0 := by omega
        have h2 : (p + 1) / 2 ^ 23 - 1 = p / 2 ^ 23 - 1 + 1 := by omega
        have h3 : p % 2 ^ 23 < 2 ^ 23 := Nat.mod_lt _ (by norm_num)
        rw [h1, h2, pow_succ (n := p / 2 ^ 23 - 1)]
        rw [Nat.mul_comm (2 ^ (p / 2 ^ 23 - 1)) 2, ← Nat.mul_assoc]
        exact Nat.mul_lt_mul_of_pos_right (by omega) (by positivity)
  induction h with
  | refl => exact key p
  | step _ ih => exact ih.trans (key _)


theorem magUnits_mono {p q : Nat} (h : p ≤ q) : magUnits p ≤ magUnits q := by
  rcases Nat.lt_or_eq_of_le h with h | rfl
  · exact (magUnits_strictMono h).le
  · exact le_rfl

theorem magUnits_le_iff {p q : Nat} : magUnits p ≤ magUnits q ↔ p ≤ q :=
  ⟨fun h => by by_contra hc; exact absurd (magUnits_strictMono (Nat.lt_of_not_le hc)) (Nat.not_lt.2 h), magUnits_mono⟩

@[simp] theorem magUnits_zero : magUnits 0 = 0 := rfl

theorem magUnits_pos {p : Nat} (h : 0 < p) : 0 < magUnits p := magUnits_strictMono h

theorem magUnits_eq_zero {p : Nat} : magUnits p = 0 ↔ p = 0 := by
  constructor
  · intro h
    by_contra hc
    exact absurd (magUnits_pos (Nat.pos_of_ne_zero hc)) (by omega)
  · rintro rfl; rfl

@[simp] theorem roundMag_zero (d : Nat) (hd : 0 < d) : roundMag 0 d = 0 := by
  have := roundMag_exact 0 d hd (Nat.zero_le _)
  simpa using this

/-! ### Sign, magnitude, order -/

theorem F32.toNat_eq (x : F32) : x.bits.toNat = (if x.sign then 0x80000000 else 0) + x.mag := by
  have h := x.bits.isLt
  unfold F32.sign F32.mag
  simp only [decide_eq_true_eq]
  split <;> omega

/-- A datum is its sign and its magnitude pattern. -/
theorem F32.eq_of_sign_mag {x y : F32} (hs : x.sign = y.sign) (hm : x.mag = y.mag) : x = y := by
  have hx := x.toNat_eq
  have hy := y.toNat_eq
  rw [hs, hm] at hx
  cases x; cases y
  congr 1
  exact BitVec.eq_of_toNat_eq (hx.trans hy.symm)

theorem F32.ofMag_sign_mag (x : F32) : F32.ofMag x.sign x.mag = x :=
  F32.eq_of_sign_mag (F32.sign_ofMag _ _ x.mag_lt) (F32.mag_ofMag _ _ x.mag_lt)

theorem infMag_lt : infMag < 0x80000000 := by decide

theorem F32.isFinite_iff {x : F32} : x.isFinite = true ↔ x.mag < infMag := by simp [F32.isFinite]
theorem F32.isNaN_iff {x : F32} : x.isNaN = true ↔ infMag < x.mag := by simp [F32.isNaN]
theorem F32.not_nan_iff {x : F32} : x.isNaN = false ↔ x.mag ≤ infMag := by simp [F32.isNaN]
theorem F32.isInf_iff {x : F32} : x.isInf = true ↔ x.mag = infMag := by simp [F32.isInf]
theorem F32.isZero_iff {x : F32} : x.isZero = true ↔ x.mag = 0 := by simp [F32.isZero]

theorem F32.not_nan_of_finite {x : F32} (h : x.isFinite = true) : x.isNaN = false :=
  F32.not_nan_iff.2 (F32.isFinite_iff.1 h).le

theorem F32.not_inf_of_finite {x : F32} (h : x.isFinite = true) : x.isInf = false := by
  have := F32.isFinite_iff.1 h
  simp only [F32.isInf, decide_eq_false_iff_not]; omega

theorem F32.le_iff {a b : F32} : a.le b = true ↔ a.isNaN = false ∧ b.isNaN = false ∧ a.key ≤ b.key := by
  simp [F32.le, and_assoc]

theorem F32.lt_iff {a b : F32} : a.lt b = true ↔ a.isNaN = false ∧ b.isNaN = false ∧ a.key < b.key := by
  simp [F32.lt, and_assoc]

/-- Among numbers, not below is the same as at or above. -/
theorem F32.lt_eq_false_iff {a b : F32} (ha : a.isNaN = false) (hb : b.isNaN = false) :
    a.lt b = false ↔ b.le a = true := by
  rw [← Bool.not_eq_true, F32.lt_iff, F32.le_iff]
  simp [ha, hb]

theorem F32.le_eq_false_iff {a b : F32} (ha : a.isNaN = false) (hb : b.isNaN = false) :
    a.le b = false ↔ b.lt a = true := by
  rw [← Bool.not_eq_true, F32.lt_iff, F32.le_iff]
  simp [ha, hb]

theorem F32.le_trans {a b c : F32} (h₁ : a.le b = true) (h₂ : b.le c = true) : a.le c = true := by
  rw [F32.le_iff] at *
  exact ⟨h₁.1, h₂.2.1, h₁.2.2.trans h₂.2.2⟩

theorem F32.key_abs_le (x : F32) : -(x.mag : Int) ≤ x.key ∧ x.key ≤ x.mag := by
  unfold F32.key; split <;> constructor <;> omega

theorem F32.key_eq_zero (x : F32) : x.key = 0 ↔ x.mag = 0 := by
  unfold F32.key; split <;> omega

/-- The order of places is the order of values. -/
theorem F32.units_le_iff {a b : F32} : a.units ≤ b.units ↔ a.key ≤ b.key := by
  have h : ∀ p q : Nat, (magUnits p ≤ magUnits q ↔ p ≤ q) := fun p q => magUnits_le_iff
  have hz : ∀ p : Nat, magUnits p = 0 ↔ p = 0 := fun p => magUnits_eq_zero
  unfold F32.units F32.key
  have := h a.mag b.mag
  have := h b.mag a.mag
  have := hz a.mag
  have := hz b.mag
  split <;> split <;> omega

theorem F32.units_lt_iff {a b : F32} : a.units < b.units ↔ a.key < b.key := by
  have := @F32.units_le_iff b a
  omega

theorem F32.units_eq_iff {a b : F32} : a.units = b.units ↔ a.key = b.key := by
  have := @F32.units_le_iff b a
  have := @F32.units_le_iff a b
  omega

theorem F32.units_eq_zero {a : F32} : a.units = 0 ↔ a.mag = 0 := by
  have := @magUnits_eq_zero a.mag
  unfold F32.units; split <;> omega

theorem F32.units_pos_iff {a : F32} : 0 < a.units ↔ 0 < a.key := by
  have := @magUnits_eq_zero a.mag
  unfold F32.units F32.key; split <;> omega

/-- Two numbers at the same place, not both zero, are the same datum. -/
theorem F32.eq_of_key {a b : F32} (h : a.key = b.key) (hz : a.mag ≠ 0 ∨ a.sign = b.sign) : a = b := by
  unfold F32.key at h
  apply F32.eq_of_sign_mag
  · rcases hz with hz | hz
    · revert h; cases a.sign <;> cases b.sign <;> simp <;> omega
    · exact hz
  · revert h; cases a.sign <;> cases b.sign <;> simp <;> omega

@[simp] theorem F32.key_neg (x : F32) : x.neg.key = -x.key := by
  unfold F32.key
  rw [F32.sign_neg, F32.mag_neg]
  cases x.sign <;> simp

@[simp] theorem F32.units_neg (x : F32) : x.neg.units = -x.units := by
  unfold F32.units
  rw [F32.sign_neg, F32.mag_neg]
  cases x.sign <;> simp

/-! ### Rounding an integer number of units -/

theorem roundUnits_mag_le (v : Int) (z : Bool) : (roundUnits v z).mag ≤ infMag := by
  unfold roundUnits
  split
  · rw [F32.mag_ofMag _ _ (by norm_num)]; exact Nat.zero_le _
  · have h := roundMag_le_inf v.natAbs 1
    rw [F32.mag_ofMag _ _ (lt_of_le_of_lt h infMag_lt)]; exact h

/-- A rounded sum is never a NaN. -/
theorem roundUnits_not_nan (v : Int) (z : Bool) : (roundUnits v z).isNaN = false :=
  F32.not_nan_iff.2 (roundUnits_mag_le v z)

theorem roundUnits_key (v : Int) (z : Bool) :
    (roundUnits v z).key = if v < 0 then -(roundMag v.natAbs 1 : Int) else (roundMag v.natAbs 1 : Int) := by
  have h := roundMag_le_inf v.natAbs 1
  have h' := lt_of_le_of_lt h infMag_lt
  unfold roundUnits F32.key
  split
  · rename_i h0
    subst h0
    rw [F32.mag_ofMag _ _ (by norm_num), F32.sign_ofMag _ _ (by norm_num)]
    simp
  · rw [F32.mag_ofMag _ _ h', F32.sign_ofMag _ _ h']
    simp

/-- At or below a number's value rounds to at or below the number. -/
theorem roundUnits_le {v : Int} {z : Bool} {c : F32} (hc : c.mag ≤ infMag) (h : v ≤ c.units) :
    (roundUnits v z).key ≤ c.key := by
  rw [roundUnits_key]
  unfold F32.units at h
  unfold F32.key
  have a := @roundMag_le_of_le v.natAbs 1 c.mag one_pos hc
  have b := @le_roundMag_of_le v.natAbs 1 c.mag one_pos hc
  have e : magUnits c.mag = 0 → c.mag = 0 := magUnits_eq_zero.1
  have r : v.natAbs = 0 → roundMag v.natAbs 1 = 0 := fun h0 => by rw [h0]; exact roundMag_zero 1 one_pos
  revert h
  cases c.sign <;> simp only [if_true, if_false, Bool.false_eq_true] <;> intro h <;> split <;> omega

/-- At or above a number's value rounds to at or above the number. -/
theorem le_roundUnits {v : Int} {z : Bool} {c : F32} (hc : c.mag ≤ infMag) (h : c.units ≤ v) :
    c.key ≤ (roundUnits v z).key := by
  rw [roundUnits_key]
  unfold F32.units at h
  unfold F32.key
  have a := @roundMag_le_of_le v.natAbs 1 c.mag one_pos hc
  have b := @le_roundMag_of_le v.natAbs 1 c.mag one_pos hc
  have e : magUnits c.mag = 0 → c.mag = 0 := magUnits_eq_zero.1
  have r : v.natAbs = 0 → roundMag v.natAbs 1 = 0 := fun h0 => by rw [h0]; exact roundMag_zero 1 one_pos
  revert h
  cases c.sign <;> simp only [if_true, if_false, Bool.false_eq_true] <;> intro h <;> split <;> omega

theorem roundUnits_mono {v w : Int} {y z : Bool} (h : v ≤ w) : (roundUnits v y).key ≤ (roundUnits w z).key := by
  rw [roundUnits_key, roundUnits_key]
  have m : ∀ a b : Nat, a ≤ b → roundMag a 1 ≤ roundMag b 1 := fun a b hab =>
    roundMag_mono one_pos one_pos (by omega)
  have a := m v.natAbs w.natAbs
  have b := m w.natAbs v.natAbs
  split <;> split <;> omega

/-- A value that a number has rounds to that number's place. -/
theorem roundUnits_key_exact {v : Int} {z : Bool} {c : F32} (hc : c.mag ≤ infMag) (h : v = c.units) :
    (roundUnits v z).key = c.key :=
  le_antisymm (roundUnits_le hc h.le) (le_roundUnits hc h.ge)

theorem roundUnits_units_exact {v : Int} {z : Bool} {c : F32} (hc : c.mag ≤ infMag) (h : v = c.units) :
    (roundUnits v z).units = c.units :=
  F32.units_eq_iff.2 (roundUnits_key_exact hc h)

/-- A value other than 0 that a number has rounds to that number. -/
theorem roundUnits_exact {v : Int} {z : Bool} {c : F32} (hc : c.mag ≤ infMag) (h : v = c.units) (h0 : v ≠ 0) :
    roundUnits v z = c := by
  have hk := roundUnits_key_exact (z := z) hc h
  refine F32.eq_of_key hk (.inl ?_)
  intro hm
  apply h0
  have hcm : c.mag = 0 := by
    have : (roundUnits v z).key = 0 := by unfold F32.key; rw [hm]; simp
    rw [this] at hk
    have := c.key_eq_zero.1 hk.symm
    exact this
  rw [h, F32.units_eq_zero.2 hcm]

/-! ### The operations on finite operands -/

/-- The sum of two finite numbers. -/
theorem F32.add_finite {a b : F32} (ha : a.isFinite = true) (hb : b.isFinite = true) :
    a.add b = roundUnits (a.units + b.units) (a.sign && b.sign) := by
  simp [F32.add, F32.addNum, F32.not_nan_of_finite ha, F32.not_nan_of_finite hb, F32.not_inf_of_finite ha,
    F32.not_inf_of_finite hb]

theorem F32.isFinite_neg (x : F32) : x.neg.isFinite = x.isFinite := by simp [F32.isFinite, F32.mag_neg]

/-- The difference of two finite numbers. -/
theorem F32.sub_finite {a b : F32} (ha : a.isFinite = true) (hb : b.isFinite = true) :
    a.sub b = roundUnits (a.units - b.units) (a.sign && !b.sign) := by
  have hb' : b.neg.isFinite = true := by rw [F32.isFinite_neg]; exact hb
  have := F32.add_finite ha hb'
  unfold F32.sub
  unfold F32.add at this
  have hs : (a.addNum b.neg) = some (roundUnits (a.units - b.units) (a.sign && !b.sign)) := by
    simp [F32.addNum, F32.not_nan_of_finite ha, F32.not_nan_of_finite hb', F32.not_inf_of_finite ha,
      F32.not_inf_of_finite hb', F32.sign_neg, Int.sub_eq_add_neg]
  rw [hs]; rfl

theorem unitsPerOne_pos : 0 < unitsPerOne := by unfold unitsPerOne; positivity

/-- The product of two finite numbers. -/
theorem F32.mul_finite {a b : F32} (ha : a.isFinite = true) (hb : b.isFinite = true) :
    a.mul b = .ofMag (a.sign != b.sign) (roundMag (magUnits a.mag * magUnits b.mag) unitsPerOne) := by
  simp [F32.mul, F32.mulNum, F32.not_nan_of_finite ha, F32.not_nan_of_finite hb, F32.not_inf_of_finite ha,
    F32.not_inf_of_finite hb]

/-- The quotient of two finite numbers, the divisor not zero. -/
theorem F32.div_finite {a b : F32} (ha : a.isFinite = true) (hb : b.isFinite = true) (h0 : b.mag ≠ 0) :
    a.div b = .ofMag (a.sign != b.sign) (roundMag (magUnits a.mag * unitsPerOne) (magUnits b.mag)) := by
  have hz : b.isZero = false := by simp [F32.isZero, h0]
  simp [F32.div, F32.divNum, F32.not_nan_of_finite ha, F32.not_nan_of_finite hb, F32.not_inf_of_finite ha,
    F32.not_inf_of_finite hb, hz]

/-- The magnitude and the sign of a product of finite numbers. -/
theorem F32.mul_mag {a b : F32} (ha : a.isFinite = true) (hb : b.isFinite = true) :
    (a.mul b).mag = roundMag (magUnits a.mag * magUnits b.mag) unitsPerOne ∧ (a.mul b).sign = (a.sign != b.sign) := by
  have h := lt_of_le_of_lt (roundMag_le_inf (magUnits a.mag * magUnits b.mag) unitsPerOne) infMag_lt
  rw [F32.mul_finite ha hb]
  exact ⟨F32.mag_ofMag _ _ h, F32.sign_ofMag _ _ h⟩

/-- The magnitude and the sign of a quotient of finite numbers, the divisor not zero. -/
theorem F32.div_mag {a b : F32} (ha : a.isFinite = true) (hb : b.isFinite = true) (h0 : b.mag ≠ 0) :
    (a.div b).mag = roundMag (magUnits a.mag * unitsPerOne) (magUnits b.mag) ∧
      (a.div b).sign = (a.sign != b.sign) := by
  have h := lt_of_le_of_lt (roundMag_le_inf (magUnits a.mag * unitsPerOne) (magUnits b.mag)) infMag_lt
  rw [F32.div_finite ha hb h0]
  exact ⟨F32.mag_ofMag _ _ h, F32.sign_ofMag _ _ h⟩

/-- A product's magnitude is at most a pattern when the exact product is. -/
theorem F32.mul_mag_le {a b : F32} {p : Nat} (ha : a.isFinite = true) (hb : b.isFinite = true) (hp : p ≤ infMag)
    (h : magUnits a.mag * magUnits b.mag ≤ magUnits p * unitsPerOne) : (a.mul b).mag ≤ p := by
  rw [(F32.mul_mag ha hb).1]
  exact roundMag_le_of_le unitsPerOne_pos hp h

/-- A quotient's magnitude is at most a pattern when the exact quotient is. -/
theorem F32.div_mag_le {a b : F32} {p : Nat} (ha : a.isFinite = true) (hb : b.isFinite = true) (h0 : b.mag ≠ 0)
    (hp : p ≤ infMag) (h : magUnits a.mag * unitsPerOne ≤ magUnits p * magUnits b.mag) : (a.div b).mag ≤ p := by
  rw [(F32.div_mag ha hb h0).1]
  exact roundMag_le_of_le (magUnits_pos (Nat.pos_of_ne_zero h0)) hp h

theorem magUnits_one : magUnits 0x3F800000 = unitsPerOne := by decide +kernel

/-! ### Values that a pattern represents -/

/-- A finite pattern's value is a 24-bit number scaled. -/
theorem magUnits_decomp (p : Nat) : ∃ m e, m < 2 ^ 24 ∧ magUnits p = m * 2 ^ e := by
  unfold magUnits
  split
  · exact ⟨p, 0, by omega, by simp⟩
  · exact ⟨_, _, by omega, rfl⟩

/-- A 24-bit number scaled within the range is some finite pattern's value. -/
theorem exists_magUnits {a j : Nat} (ha : a ≤ 2 ^ 24) (hj : j ≤ 252) : ∃ p, p < infMag ∧ magUnits p = a * 2 ^ j := by
  rcases Nat.eq_zero_or_pos a with rfl | hpos
  · exact ⟨0, by decide, by simp⟩
  rcases Nat.lt_or_eq_of_le ha with hlt | rfl
  · have hb : Nat.log2 a < 24 := (Nat.log2_lt (by omega)).2 hlt
    obtain ⟨hlo, hhi⟩ := log2_spec (show a ≠ 0 by omega)
    generalize hB : Nat.log2 a = b at *
    rcases Nat.lt_or_ge j (23 - b) with hjb | hjb
    · refine ⟨a * 2 ^ j, ?_, ?_⟩
      · have : a * 2 ^ j < 2 ^ (b + 1) * 2 ^ j := Nat.mul_lt_mul_of_pos_right hhi (by positivity)
        have h2 : 2 ^ (b + 1) * 2 ^ j ≤ 2 ^ 23 := by
          rw [← pow_add]; exact Nat.pow_le_pow_right (by norm_num) (by omega)
        exact lt_of_lt_of_le (lt_of_lt_of_le this h2) (by decide)
      · have : a * 2 ^ j < 2 ^ 23 := by
          have : a * 2 ^ j < 2 ^ (b + 1) * 2 ^ j := Nat.mul_lt_mul_of_pos_right hhi (by positivity)
          refine lt_of_lt_of_le this ?_
          rw [← pow_add]; exact Nat.pow_le_pow_right (by norm_num) (by omega)
        unfold magUnits
        rw [if_pos this]
    · have hm1 : 2 ^ 23 ≤ a * 2 ^ (23 - b) := by
        calc 2 ^ 23 = 2 ^ b * 2 ^ (23 - b) := by rw [← pow_add]; congr 1; omega
          _ ≤ a * 2 ^ (23 - b) := Nat.mul_le_mul_right _ hlo
      have hm2 : a * 2 ^ (23 - b) < 2 ^ 24 := by
        calc a * 2 ^ (23 - b) < 2 ^ (b + 1) * 2 ^ (23 - b) := Nat.mul_lt_mul_of_pos_right hhi (by positivity)
          _ = 2 ^ 24 := by rw [← pow_add]; congr 1; omega
      have hsplit : a * 2 ^ j = (a * 2 ^ (23 - b)) * 2 ^ (j - (23 - b)) := by
        rw [mul_assoc, ← pow_add]; congr 2; omega
      generalize a * 2 ^ (23 - b) = m at *
      refine ⟨(j - (23 - b) + 1) * 2 ^ 23 + (m - 2 ^ 23), by unfold infMag; omega, ?_⟩
      unfold magUnits
      rw [if_neg (by omega), hsplit]
      have h1 : ((j - (23 - b) + 1) * 2 ^ 23 + (m - 2 ^ 23)) % 2 ^ 23 = m - 2 ^ 23 := by omega
      have h2 : ((j - (23 - b) + 1) * 2 ^ 23 + (m - 2 ^ 23)) / 2 ^ 23 - 1 = j - (23 - b) := by omega
      rw [h1, h2, Nat.add_sub_cancel' hm1]
  · refine ⟨(j + 2) * 2 ^ 23, by unfold infMag; omega, ?_⟩
    unfold magUnits
    rw [if_neg (by omega)]
    have h1 : ((j + 2) * 2 ^ 23) % 2 ^ 23 = 0 := by omega
    have h2 : ((j + 2) * 2 ^ 23) / 2 ^ 23 - 1 = j + 1 := by omega
    rw [h1, h2]
    ring

/-- The number with a given sign and representable magnitude. -/
theorem exists_units {a j : Nat} (ha : a ≤ 2 ^ 24) (hj : j ≤ 252) (s : Bool) :
    ∃ c : F32, c.isFinite = true ∧ c.units = (if s then -((a * 2 ^ j : Nat) : Int) else ((a * 2 ^ j : Nat) : Int)) := by
  obtain ⟨p, hp, hv⟩ := exists_magUnits ha hj
  have hp' : p < 0x80000000 := hp.trans infMag_lt
  refine ⟨.ofMag s p, ?_, ?_⟩
  · rw [F32.isFinite_iff, F32.mag_ofMag _ _ hp']; exact hp
  · unfold F32.units
    rw [F32.mag_ofMag _ _ hp', F32.sign_ofMag _ _ hp', hv]

/-- What a representable value rounds to. -/
theorem roundUnits_representable {v : Int} {a j : Nat} (ha : a ≤ 2 ^ 24) (hj : j ≤ 252) (hv : v.natAbs = a * 2 ^ j)
    (z : Bool) : (roundUnits v z).isFinite = true ∧ (roundUnits v z).units = v := by
  obtain ⟨c, hc, hu⟩ := exists_units ha hj (decide (v < 0))
  have hcu : v = c.units := by
    rw [hu]
    by_cases h : v < 0
    · simp only [h, decide_true, if_true]; omega
    · simp only [h, decide_false, Bool.false_eq_true, if_false]; omega
  have hk := roundUnits_key_exact (z := z) (F32.isFinite_iff.1 hc).le hcu
  refine ⟨?_, by rw [roundUnits_units_exact (F32.isFinite_iff.1 hc).le hcu, hcu]⟩
  rw [F32.isFinite_iff] at *
  unfold F32.key at hk
  revert hk
  cases (roundUnits v z).sign <;> cases c.sign <;> simp <;> omega

/-! ### Conversion and floor -/

/-- Conversion of a small integer is exact. -/
theorem F32.ofInt_exact {n : Int} (h : n.natAbs ≤ 2 ^ 24) :
    (F32.ofInt n).isFinite = true ∧ (F32.ofInt n).units = n * (unitsPerOne : Int) := by
  unfold F32.ofInt
  refine roundUnits_representable (a := n.natAbs) (j := 149) h (by norm_num) ?_ _
  rw [Int.natAbs_mul, Int.natAbs_natCast]; rfl

/-- A number whose value is not whole is below `2^24` in magnitude. -/
theorem F32.small_of_not_whole {x : F32} (h : x.units % (unitsPerOne : Int) ≠ 0) :
    ∃ m e, m < 2 ^ 24 ∧ e < 149 ∧ magUnits x.mag = m * 2 ^ e := by
  obtain ⟨m, e, hm, he⟩ := magUnits_decomp x.mag
  refine ⟨m, e, hm, ?_, he⟩
  by_contra hc
  apply h
  have hd : (unitsPerOne : Int) ∣ (magUnits x.mag : Int) := by
    rw [he]
    refine Int.natCast_dvd_natCast.2 ?_
    exact Dvd.dvd.mul_left (pow_dvd_pow 2 (by omega)) m
  unfold F32.units
  split
  · exact Int.emod_eq_zero_of_dvd ((Int.dvd_neg).2 hd)
  · exact Int.emod_eq_zero_of_dvd hd

/-- `floor` of a finite number is finite and is the integer part downwards. -/
theorem F32.floor_units {x : F32} (hx : x.isFinite = true) :
    x.floor.isFinite = true ∧ x.floor.units = x.units / (unitsPerOne : Int) * (unitsPerOne : Int) := by
  have hU : (0 : Int) < (unitsPerOne : Int) := by exact_mod_cast unitsPerOne_pos
  unfold F32.floor
  rw [if_pos hx]
  split
  · rename_i h
    exact ⟨hx, by rw [Int.ediv_mul_cancel (Int.dvd_of_emod_eq_zero h)]⟩
  · rename_i h
    obtain ⟨m, e, hm, he, hv⟩ := F32.small_of_not_whole h
    have hb : magUnits x.mag < 2 ^ 24 * unitsPerOne := by
      rw [hv]
      exact Nat.mul_lt_mul_of_lt_of_le hm (Nat.pow_le_pow_right (by norm_num) (by omega)) unitsPerOne_pos
    have hq : (x.units / (unitsPerOne : Int)).natAbs ≤ 2 ^ 24 := by
      have h1 : x.units / (unitsPerOne : Int) < 2 ^ 24 := by
        rw [Int.ediv_lt_iff_lt_mul hU]
        unfold F32.units; split <;> zify at hb <;> omega
      have h2 : -(2 ^ 24) ≤ x.units / (unitsPerOne : Int) := by
        rw [Int.le_ediv_iff_mul_le hU]
        unfold F32.units; split <;> zify at hb <;> omega
      omega
    refine roundUnits_representable (a := (x.units / (unitsPerOne : Int)).natAbs) (j := 149) hq (by norm_num) ?_ _
    rw [Int.natAbs_mul, Int.natAbs_natCast]; rfl

/-! ### Comparison by value, and the phase wrap -/

theorem F32.one_units : F32.one.units = (unitsPerOne : Int) := by decide +kernel
theorem F32.one_finite : F32.one.isFinite = true := by decide
theorem F32.zero_units : F32.zero.units = 0 := by decide +kernel

/-- Comparison by value. -/
theorem F32.le_iff_units {a b : F32} (ha : a.isNaN = false) (hb : b.isNaN = false) : a.le b = true ↔ a.units ≤ b.units := by
  rw [F32.le_iff, F32.units_le_iff]; simp [ha, hb]
theorem F32.lt_iff_units {a b : F32} (ha : a.isNaN = false) (hb : b.isNaN = false) : a.lt b = true ↔ a.units < b.units := by
  rw [F32.lt_iff, F32.units_lt_iff]; simp [ha, hb]

/-- The difference of a number and its floor is its fractional part, rounded. -/
theorem F32.sub_floor {x : F32} (hx : x.isFinite = true) :
    x.sub x.floor = roundUnits (x.units % (unitsPerOne : Int)) (x.sign && !x.floor.sign) := by
  obtain ⟨hf, hu⟩ := F32.floor_units hx
  rw [F32.sub_finite hx hf, hu]
  congr 1
  have := Int.emod_add_mul_ediv x.units (unitsPerOne : Int)
  rw [mul_comm (unitsPerOne : Int)] at this
  omega

theorem F32.finite_of_key {x : F32} (h1 : -(infMag : Int) < x.key) (h2 : x.key < infMag) : x.isFinite = true := by
  rw [F32.isFinite_iff]; unfold F32.key at h1 h2; split at h1 <;> simp_all


theorem F32.sub_floor_range {x : F32} (hx : x.isFinite = true) :
    (x.sub x.floor).isFinite = true ∧ F32.zero.le (x.sub x.floor) = true ∧ (x.sub x.floor).le .one = true := by
  have hU : (0 : Int) < (unitsPerOne : Int) := by exact_mod_cast unitsPerOne_pos
  rw [F32.sub_floor hx]
  have h0 := Int.emod_nonneg x.units hU.ne'
  have h1 := Int.emod_lt_of_pos x.units hU
  generalize x.units % (unitsPerOne : Int) = v at *
  generalize (x.sign && !x.floor.sign) = z
  have k1 := roundUnits_le (v := v) (z := z) (c := .one) (by decide) (by rw [F32.one_units]; omega)
  have k0 := le_roundUnits (v := v) (z := z) (c := .zero) (by decide) (by rw [F32.zero_units]; omega)
  have hz : F32.zero.key = 0 := by decide
  have h1' : F32.one.key < (infMag : Int) := by decide
  refine ⟨F32.finite_of_key (by omega) (by omega), ?_, ?_⟩
  · rw [F32.le_iff]; exact ⟨by decide, roundUnits_not_nan _ _, k0⟩
  · rw [F32.le_iff]; exact ⟨roundUnits_not_nan _ _, by decide, k1⟩

/-- A phase below 1 plus any finite number is finite: 1 is too little to carry the largest number over. -/
theorem F32.add_phase_finite {p d : F32} (hp : p.isFinite = true) (hd : d.isFinite = true) (h0 : F32.zero.le p = true)
    (h1 : p.lt .one = true) : (p.add d).isFinite = true := by
  have hpn := F32.not_nan_of_finite hp
  rw [F32.le_iff_units (by decide) hpn, F32.zero_units] at h0
  rw [F32.lt_iff_units hpn (by decide), F32.one_units] at h1
  rw [F32.add_finite hp hd]
  have hmax : magUnits d.mag ≤ (2 ^ 24 - 1) * 2 ^ 253 := by
    have : magUnits d.mag ≤ magUnits (infMag - 1) := magUnits_mono (by have := F32.isFinite_iff.1 hd; omega)
    have e : magUnits (infMag - 1) = (2 ^ 24 - 1) * 2 ^ 253 := by decide +kernel
    omega
  have hb : (p.units + d.units).natAbs ≤ (2 ^ 24 - 1) * 2 ^ 253 + 2 ^ 149 := by
    have hd' : d.units.natAbs ≤ (2 ^ 24 - 1) * 2 ^ 253 := by unfold F32.units; split <;> omega
    have hU : (unitsPerOne : Int) = 2 ^ 149 := rfl
    omega
  have hround : roundMag (p.units + d.units).natAbs 1 < infMag := by
    refine lt_of_le_of_lt (roundMag_mono (d₁ := 1) (d₂ := 1) one_pos one_pos (Nat.mul_le_mul_right 1 hb)) ?_
    decide +kernel
  have hk := roundUnits_key (p.units + d.units) (p.sign && d.sign)
  refine F32.finite_of_key ?_ ?_ <;> rw [hk] <;> split <;> omega

/-- The phase wrap of a finite number is a phase. -/
theorem F32.wrap1_cases (x : F32) : x.wrap1 = .zero ∨ (F32.one.le (x.sub x.floor) = false ∧ x.wrap1 = x.sub x.floor) := by
  unfold F32.wrap1
  cases h : F32.one.le (x.sub x.floor) <;> simp [h]

end Sys2Proof
end

