-- ==== Sys2Proof/Laws/Ranges.lean ====
section
/-! SUPPORT. Ranges of the numbers that the units hold: what the clamps, products, quotients and differences of the rules
stay within. -/

namespace Sys2Proof.Machine

set_option Elab.async false

theorem rateOk_of_accepts {fs : F32} (h : acceptsRate fs = true) : RateOk fs := by
  unfold acceptsRate at h
  have e : cfg.fsMin = F32.one := rfl
  rw [e, Bool.and_eq_true] at h
  have hn := F32.not_nan_of_finite h.1
  exact ⟨h.1, (F32.lt_eq_false_iff hn (by decide)).1 (by simpa using h.2)⟩

theorem div_rate_finite {f fs : F32} (hf : f.isFinite = true) (hr : RateOk fs) : (f.div fs).isFinite = true := by
  obtain ⟨h1, h2⟩ := hr
  have hn := F32.not_nan_of_finite h1
  rw [F32.le_iff] at h2
  have hk : (0x3F800000 : Int) ≤ fs.mag := h2.2.2.trans fs.key_abs_le.2
  have h0 : fs.mag ≠ 0 := by omega
  rw [F32.isFinite_iff]
  refine lt_of_le_of_lt (F32.div_mag_le (p := f.mag) hf h1 h0 (F32.isFinite_iff.1 hf).le ?_) (F32.isFinite_iff.1 hf)
  refine Nat.mul_le_mul_left _ ?_
  rw [← magUnits_one]; exact magUnits_mono (by omega)

theorem wrap_phase {x : F32} (hx : x.isFinite = true) : x.wrap1.isFinite = true ∧ F32.zero.le x.wrap1 = true ∧ x.wrap1.lt .one = true := by
  obtain ⟨hf, h0, h1⟩ := F32.sub_floor_range hx
  rcases x.wrap1_cases with h | ⟨hl, h⟩ <;> rw [h]
  · decide
  · exact ⟨hf, h0, (F32.le_eq_false_iff (by decide) (F32.not_nan_of_finite hf)).1 hl⟩

theorem within_iff {x lo hi : F32} (hl : lo.isNaN = false) (hh : hi.isNaN = false) :
    x.within lo hi = true ↔ x.isNaN = false ∧ lo.key ≤ x.key ∧ x.key ≤ hi.key := by
  unfold F32.within
  rw [Bool.and_eq_true, F32.le_iff, F32.le_iff]
  tauto

/-- `[0, 1]` by sign and magnitude. -/
theorem unit_iff {x : F32} : x.within .zero .one = true ↔ x.mag ≤ 0x3F800000 ∧ (x.sign = true → x.mag = 0) := by
  rw [within_iff (by decide) (by decide)]
  have h0 : F32.zero.key = 0 := by decide
  have h1 : F32.one.key = 0x3F800000 := by decide
  rw [h0, h1, F32.not_nan_iff]
  unfold F32.key infMag
  cases x.sign <;> simp <;> omega

theorem unit_finite {x : F32} (h : x.within .zero .one = true) : x.isFinite = true := by
  rw [F32.isFinite_iff]; have := (unit_iff.1 h).1; unfold infMag; omega

theorem unit_units {x : F32} (h : x.within .zero .one = true) : 0 ≤ x.units ∧ x.units ≤ unitsPerOne := by
  have hn := F32.not_nan_of_finite (unit_finite h)
  unfold F32.within at h
  rw [Bool.and_eq_true, F32.le_iff_units (by decide) hn, F32.le_iff_units hn (by decide), F32.zero_units, F32.one_units] at h
  exact h

theorem unit_of_units {v : Int} {z : Bool} (h0 : 0 ≤ v) (h1 : v ≤ unitsPerOne) : (roundUnits v z).within .zero .one = true := by
  rw [within_iff (by decide) (by decide)]
  exact ⟨roundUnits_not_nan _ _, le_roundUnits (by decide) (by rw [F32.zero_units]; exact h0), roundUnits_le (by decide) (by rw [F32.one_units]; exact h1)⟩

theorem mul_unit {a b : F32} (ha : a.within .zero .one = true) (hb : b.within .zero .one = true) :
    (a.mul b).within .zero .one = true ∧ (a.mul b).mag ≤ a.mag := by
  have fa := unit_finite ha
  have fb := unit_finite hb
  have ma := unit_iff.1 ha
  have mb := unit_iff.1 hb
  have hle : (a.mul b).mag ≤ a.mag := by
    refine F32.mul_mag_le fa fb (by unfold infMag; omega) (Nat.mul_le_mul_left _ ?_)
    rw [← magUnits_one]; exact magUnits_mono mb.1
  refine ⟨?_, hle⟩
  rw [unit_iff]
  refine ⟨hle.trans ma.1, ?_⟩
  rw [(F32.mul_mag fa fb).2, (F32.mul_mag fa fb).1]
  intro hs
  have : a.mag = 0 ∨ b.mag = 0 := by
    cases h1 : a.sign <;> cases h2 : b.sign <;> simp_all
  rcases this with h | h <;> rw [h] <;> simp [roundMag_zero _ unitsPerOne_pos]

theorem one_sub_unit {a : F32} (ha : a.within .zero .one = true) : (F32.one.sub a).within .zero .one = true := by
  rw [F32.sub_finite (by decide) (unit_finite ha), F32.one_units]
  have := unit_units ha
  exact unit_of_units (by omega) (by omega)

theorem clamp_cases (x lo hi : F32) : (x.lt lo = true ∧ x.clamp lo hi = lo) ∨ (x.lt lo = false ∧ hi.lt x = true ∧ x.clamp lo hi = hi) ∨ (x.lt lo = false ∧ hi.lt x = false ∧ x.clamp lo hi = x) := by
  unfold F32.clamp F32.gt
  cases x.lt lo <;> cases hi.lt x <;> simp

/-- A clamped number is in range. -/
theorem clamp_within {x lo hi : F32} (hx : x.isNaN = false) (h : lo.le hi = true) : (x.clamp lo hi).within lo hi = true := by
  obtain ⟨hl, hh, hk⟩ := F32.le_iff.1 h
  rcases clamp_cases x lo hi with ⟨a, e⟩ | ⟨a, b, e⟩ | ⟨a, b, e⟩ <;> rw [e, within_iff hl hh]
  · exact ⟨hl, le_rfl, hk⟩
  · exact ⟨hh, hk, le_rfl⟩
  · rw [F32.lt_eq_false_iff hx hl, F32.le_iff] at a
    rw [F32.lt_eq_false_iff hh hx, F32.le_iff] at b
    exact ⟨hx, a.2.2, b.2.2⟩

/-- One sample period of a legal rate lies in `(0, 1]`; the rate is at least 1. -/
theorem period_range {fs : F32} (h : RateOk fs) : (F32.one.div fs).isFinite = true ∧ (F32.one.div fs).sign = false ∧
    (F32.one.div fs).mag ≤ 0x3F800000 ∧ fs.mag ≠ 0 ∧ fs.sign = false ∧ 0x3F800000 ≤ fs.mag := by
  have hf := div_rate_finite (f := .one) (by decide) h
  obtain ⟨h1, h2⟩ := h
  rw [F32.le_iff] at h2
  have hk := h2.2.2
  have e : F32.one.key = 0x3F800000 := by decide
  have hs : fs.sign = false ∧ 0x3F800000 ≤ fs.mag := by
    rw [e] at hk; unfold F32.key at hk; revert hk; cases fs.sign <;> simp; omega
  have h0 : fs.mag ≠ 0 := by omega
  refine ⟨hf, ?_, ?_, h0, hs.1, hs.2⟩
  · rw [(F32.div_mag (by decide) h1 h0).2, hs.1]; decide
  · refine F32.div_mag_le (by decide) h1 h0 (by decide) ?_
    have : magUnits F32.one.mag = unitsPerOne := by decide +kernel
    rw [this]
    have : magUnits 0x3F800000 = unitsPerOne := magUnits_one
    rw [this]
    refine Nat.mul_le_mul_left _ ?_
    rw [← magUnits_one]; exact magUnits_mono hs.2

theorem magUnits_half : magUnits 0x3F000000 = 2 ^ 148 := by decide +kernel

/-- A time of at least one sample period, times the rate, is at least one half, or infinite. -/
theorem rate_times_ge {fs tc : F32} (h : RateOk fs) (hf : (F32.one.div fs).le tc = true) :
    tc.sign = false ∧ 0x3F000000 ≤ roundMag (magUnits fs.mag * magUnits tc.mag) unitsPerOne := by
  obtain ⟨p1, p2, p3, p4, p5, p6⟩ := period_range h
  obtain ⟨h1, h2⟩ := h
  have hU : unitsPerOne = 2 ^ 149 := rfl
  have hF0 : magUnits fs.mag ≠ 0 := fun e => p4 (magUnits_eq_zero.1 e)
  obtain ⟨lo, hi⟩ := log2_spec hF0
  have hFlo : 2 ^ 149 ≤ magUnits fs.mag := by rw [← hU, ← magUnits_one]; exact magUnits_mono p6
  have hk2 : Nat.log2 (magUnits fs.mag) < 277 := by
    have : magUnits fs.mag ≤ magUnits (infMag - 1) := magUnits_mono (by have := F32.isFinite_iff.1 h1; omega)
    have e : Nat.log2 (magUnits (infMag - 1)) < 277 := by decide +kernel
    exact lt_of_le_of_lt (log2_mono this) e
  generalize hk : Nat.log2 (magUnits fs.mag) = k at *
  have hk1 : 149 < k + 1 := (Nat.pow_lt_pow_iff_right (by norm_num : 1 < 2)).1 (lt_of_le_of_lt hFlo hi)
  obtain ⟨p, hp, hpv⟩ := exists_magUnits (a := 1) (j := 297 - k) (by norm_num) (by omega)
  have hone : magUnits F32.one.mag = unitsPerOne := by decide +kernel
  have hflr : p ≤ (F32.one.div fs).mag := by
    rw [(F32.div_mag (by decide) h1 p4).1]
    refine le_roundMag_of_le (by omega) hp.le ?_
    rw [hpv, hone, hU, one_mul]
    calc 2 ^ (297 - k) * magUnits fs.mag ≤ 2 ^ (297 - k) * 2 ^ (k + 1) := Nat.mul_le_mul_left _ hi.le
      _ = 2 ^ 149 * 2 ^ 149 := by rw [← pow_add, ← pow_add]; congr 1; omega
  rw [F32.le_iff] at hf
  have hpp : 0 < p := by
    rcases Nat.eq_zero_or_pos p with e | e
    · rw [e] at hpv; have : 0 < 2 ^ (297 - k) := by positivity
      simp at hpv; omega
    · exact e
  have hts : tc.sign = false ∧ (F32.one.div fs).mag ≤ tc.mag := by
    have := hf.2.2
    unfold F32.key at this
    rw [p2] at this
    revert this; cases tc.sign <;> simp; omega
  refine ⟨hts.1, le_roundMag_of_le unitsPerOne_pos (by decide) ?_⟩
  rw [magUnits_half, hU]
  calc 2 ^ 148 * 2 ^ 149 = 2 ^ k * 2 ^ (297 - k) := by rw [← pow_add, ← pow_add]; congr 1; omega
    _ ≤ magUnits fs.mag * magUnits tc.mag := Nat.mul_le_mul lo (by
        have : 2 ^ (297 - k) = magUnits p := by rw [hpv, one_mul]
        rw [this]; exact magUnits_mono (hflr.trans hts.2))

/-- A negative constant over a number of at least one half is finite and not above zero. -/
theorem neg_div_range {c d : F32} (hc : c.isFinite = true) (hcs : c.sign = true) {q : Nat} (hq : q < infMag)
    (hcq : magUnits c.mag * unitsPerOne ≤ magUnits q * 2 ^ 148) (hd : d.isNaN = false) (hds : d.sign = false)
    (hdm : 0x3F000000 ≤ d.mag) : (c.div d).isFinite = true ∧ (c.div d).le .zero = true := by
  have hcn := F32.not_nan_of_finite hc
  have key : ∀ x : F32, x.sign = true → x.isFinite = true → x.isFinite = true ∧ x.le .zero = true := by
    intro x hs hf
    refine ⟨hf, ?_⟩
    rw [F32.le_iff]
    refine ⟨F32.not_nan_of_finite hf, by decide, ?_⟩
    have : F32.zero.key = 0 := by decide
    rw [this]; unfold F32.key; rw [hs]; simp
  rcases hdi : d.isInf with _ | _
  · have hdf : d.isFinite = true := by
      rw [F32.not_nan_iff] at hd
      have : d.mag ≠ infMag := by simpa [F32.isInf] using hdi
      rw [F32.isFinite_iff]; omega
    have h0 : d.mag ≠ 0 := by omega
    refine key _ ?_ ?_
    · rw [(F32.div_mag hc hdf h0).2, hcs, hds]; rfl
    · rw [F32.isFinite_iff]
      refine lt_of_le_of_lt (F32.div_mag_le hc hdf h0 hq.le (hcq.trans (Nat.mul_le_mul_left _ ?_))) hq
      rw [← magUnits_half]; exact magUnits_mono hdm
  · have : c.div d = .ofMag true 0 := by
      simp [F32.div, F32.divNum, hcn, hd, F32.not_inf_of_finite hc, hdi, hcs, hds]
    rw [this]; decide

theorem mul_not_nan {a b : F32} (ha : a.isFinite = true) (hb : b.isFinite = true) : (a.mul b).isNaN = false := by
  rw [F32.not_nan_iff, (F32.mul_mag ha hb).1]; exact roundMag_le_inf _ _

/-- The rate of the linear envelope lies in `[0, 1]`. -/
theorem envlRate_unit {t fs : F32} (h : RateOk fs) (ht : t.isFinite = true) : (envlRate t fs).within .zero .one = true := by
  show (F32.one.sub (Config.num.exp (minusOne.div (fs.mul
    (if t.lt (F32.one.div fs) = true then F32.one.div fs else t))))).within .zero .one = true
  obtain ⟨p1, p2, p3, p4, p5, p6⟩ := period_range h
  have hfl : (F32.one.div fs).le (if t.lt (F32.one.div fs) = true then F32.one.div fs else t) = true ∧
      (if t.lt (F32.one.div fs) = true then F32.one.div fs else t).isFinite = true := by
    split
    · exact ⟨F32.le_refl_of_not_nan _ (F32.not_nan_of_finite p1), p1⟩
    · rename_i hn
      exact ⟨(F32.lt_eq_false_iff (F32.not_nan_of_finite ht) (F32.not_nan_of_finite p1)).1 (by simpa using hn), ht⟩
  generalize (if t.lt (F32.one.div fs) = true then F32.one.div fs else t) = tc at *
  obtain ⟨r1, r2⟩ := rate_times_ge h hfl.1
  obtain ⟨h1, h2⟩ := h
  have m := F32.mul_mag h1 hfl.2
  have hr := neg_div_range (c := minusOne) (d := fs.mul tc) (q := 0x40000000) (by decide) (by decide) (by decide)
    (by decide +kernel) (mul_not_nan h1 hfl.2) (by rw [m.2, p5, r1]; rfl) (by rw [m.1]; exact r2)
  exact one_sub_unit (Config.num.exp_range _ hr.1 hr.2).1

/-- One step of the linear envelope: in range, not `-0.0`, not above the value before. -/
theorem envlNext_ok {v r : F32} (hv : v.within .zero .one = true) (hz : v ≠ .negZero) (hr : r.within .zero .one = true) :
    (envlNext v r).within .zero .one = true ∧ envlNext v r ≠ .negZero ∧ (envlNext v r).le v = true := by
  have fv := unit_finite hv
  have fr := unit_finite hr
  have uv := unit_units hv
  have ur := unit_units hr
  have hle : (v.sub r).le v = true := by
    rw [F32.sub_finite fv fr, F32.le_iff]
    exact ⟨roundUnits_not_nan _ _, F32.not_nan_of_finite fv, roundUnits_le (F32.isFinite_iff.1 fv).le (by omega)⟩
  unfold envlNext
  rcases h : (v.sub r).lt .zero
  · simp only [h, Bool.false_eq_true, if_false]
    have h' : F32.zero.le (v.sub r) = true := (F32.lt_eq_false_iff (by
      rw [F32.sub_finite fv fr]; exact roundUnits_not_nan _ _) (by decide)).1 h
    refine ⟨?_, ?_, hle⟩
    · unfold F32.within; rw [h']
      unfold F32.within at hv
      rw [Bool.and_eq_true] at hv
      rw [F32.le_trans hle hv.2]; rfl
    · rw [F32.sub_finite fv fr]
      intro hc
      unfold roundUnits at hc
      split at hc
      · have : (v.sign && !r.sign) = true := by
          have := congrArg F32.sign hc
          rw [F32.sign_ofMag _ _ (by norm_num)] at this
          rw [this]; decide
        rw [Bool.and_eq_true] at this
        have hm := (unit_iff.1 hv).2 this.1
        exact hz (F32.eq_of_sign_mag (this.1.trans (by decide)) (hm.trans (by decide)))
      · rename_i hne
        rw [F32.sub_finite fv fr, F32.le_iff] at h'
        have hpos : 0 < v.units - r.units := by
          by_contra hneg
          have hlt : v.units - r.units < 0 := by omega
          rw [F32.sub_finite fv fr] at h
          have hsign := congrArg F32.sign hc
          have hmag := congrArg F32.mag hc
          have hb := lt_of_le_of_lt (roundMag_le_inf (v.units - r.units).natAbs 1) infMag_lt
          rw [F32.mag_ofMag _ _ hb] at hmag
          have hz0 : F32.negZero.mag = 0 := by decide
          rw [hz0] at hmag
          have : 1 ≤ roundMag (v.units - r.units).natAbs 1 := le_roundMag_of_le one_pos (by decide) (by
            have : magUnits 1 = 1 := by decide +kernel
            omega)
          omega
        have hsign := congrArg F32.sign hc
        have hb := lt_of_le_of_lt (roundMag_le_inf (v.units - r.units).natAbs 1) infMag_lt
        rw [F32.sign_ofMag _ _ hb] at hsign
        have : F32.negZero.sign = true := by decide
        rw [this] at hsign
        have := of_decide_eq_true hsign
        omega
  · simp only [h, if_true]
    refine ⟨by decide, by decide, ?_⟩
    unfold F32.within at hv
    rw [Bool.and_eq_true] at hv
    exact hv.1

/-- The coefficient of the exponential envelope lies in `[0, 1]`. -/
theorem envxCoef_unit {c fs : F32} (h : RateOk fs) (hc : c.isFinite = true) :
    (envxCoef c fs).within .zero .one = true := by
  obtain ⟨p1, p2, p3, p4, p5, p6⟩ := period_range h
  have hcc := clamp_within (lo := minusOne) (hi := .one) (F32.not_nan_of_finite hc) (by decide)
  have habs : (ctlClamp c).abs.within .zero .one = true := by
    unfold ctlClamp
    rw [within_iff (by decide) (by decide)] at hcc
    have e1 : minusOne.key = -0x3F800000 := by decide
    have e2 : F32.one.key = 0x3F800000 := by decide
    rw [e1, e2] at hcc
    have hm : (c.clamp minusOne .one).mag ≤ 0x3F800000 := by
      have := hcc.2
      unfold F32.key at this
      revert this; cases (c.clamp minusOne .one).sign <;> simp
    have hm' : (c.clamp minusOne .one).mag < 0x80000000 := by omega
    rw [unit_iff]
    unfold F32.abs
    rw [F32.mag_ofMag _ _ hm', F32.sign_ofMag _ _ hm']
    exact ⟨hm, by simp⟩
  have hpow := Config.num.pow_range _ _ habs Config.timeExp.property.1 Config.timeExp.property.2
  have hraw : ((Config.num.pow (ctlClamp c).abs cfg.envxTimeExp).mul cfg.envxTMax).isFinite = true := by
    have e : cfg.envxTimeExp = Config.timeExp.val := rfl
    rw [e]
    generalize Config.num.pow (ctlClamp c).abs Config.timeExp.val = w at *
    have hw := unit_iff.1 hpow
    have h20 : cfg.envxTMax = ⟨0x41A00000#32⟩ := rfl
    rw [h20, F32.isFinite_iff]
    refine lt_of_le_of_lt (F32.mul_mag_le (p := 0x41A00000) (unit_finite hpow) (by decide) (by decide) ?_) (by decide)
    have : (⟨0x41A00000#32⟩ : F32).mag = 0x41A00000 := by decide
    rw [this, Nat.mul_comm]
    refine Nat.mul_le_mul_left _ ?_
    rw [← magUnits_one]; exact magUnits_mono hw.1
  have htime : (F32.one.div fs).le (envxTime (ctlClamp c) fs) = true ∧ (envxTime (ctlClamp c) fs).isFinite = true := by
    unfold envxTime
    generalize (Config.num.pow (ctlClamp c).abs cfg.envxTimeExp).mul cfg.envxTMax = traw at *
    show (F32.one.div fs).le (if traw.lt (F32.one.div fs) = true then F32.one.div fs else traw) = true ∧
      (if traw.lt (F32.one.div fs) = true then F32.one.div fs else traw).isFinite = true
    split
    · exact ⟨F32.le_refl_of_not_nan _ (F32.not_nan_of_finite p1), p1⟩
    · rename_i hn
      exact ⟨(F32.lt_eq_false_iff (F32.not_nan_of_finite hraw) (F32.not_nan_of_finite p1)).1 (by simpa using hn), hraw⟩
  unfold envxCoef
  generalize envxTime (ctlClamp c) fs = tc at *
  obtain ⟨r1, r2⟩ := rate_times_ge h htime.1
  have m := F32.mul_mag htime.2 h.1
  have hlt : cfg.envxLogTarget.neg = ⟨0xC1280000#32⟩ := by decide
  rw [hlt]
  have hr := neg_div_range (c := ⟨0xC1280000#32⟩) (d := tc.mul fs) (q := 0x41A80000) (by decide) (by decide) (by decide)
    (by decide +kernel) (mul_not_nan htime.2 h.1) (by rw [m.2, p5, r1]; rfl) (by rw [m.1, Nat.mul_comm]; exact r2)
  exact (Config.num.exp_range _ hr.1 hr.2).1

/-- The control of a knob is finite. -/
theorem knobControl_finite {x : F32} (hx : x.isFinite = true) : (knobControl (clampUnit x)).isFinite = true := by
  have hw : (clampUnit x).within .zero .one = true := clamp_within (F32.not_nan_of_finite hx) (by decide)
  generalize clampUnit x = xc at *
  have hf := unit_finite hw
  have hu := unit_units hw
  have key : ∀ z : F32, z.isFinite = true → z.sign = false → z.mag ≤ 0x3F800000 →
      ((xc.sub z).div cfg.envxZoneLo).isFinite = true := by
    intro z hz hs hm
    have h1 : z.units ≤ unitsPerOne ∧ 0 ≤ z.units := by
      have := unit_units (x := z) (unit_iff.2 ⟨hm, by rw [hs]; simp⟩)
      omega
    have hsub : (xc.sub z).mag ≤ 0x3F800000 := by
      rw [F32.sub_finite hf hz]
      have k1 := roundUnits_le (v := xc.units - z.units) (z := xc.sign && !z.sign) (c := .one) (by decide)
        (by rw [F32.one_units]; omega)
      have k0 := le_roundUnits (v := xc.units - z.units) (z := xc.sign && !z.sign) (c := minusOne) (by decide) (by
        have : minusOne.units = -(unitsPerOne : Int) := by decide +kernel
        rw [this]; omega)
      have e1 : minusOne.key = -0x3F800000 := by decide
      have e2 : F32.one.key = 0x3F800000 := by decide
      rw [e2] at k1; rw [e1] at k0
      unfold F32.key at k0 k1
      revert k0 k1; cases (roundUnits (xc.units - z.units) (xc.sign && !z.sign)).sign <;> simp
    have e : cfg.envxZoneLo = ⟨0x3EE66666#32⟩ := rfl
    rw [e, F32.isFinite_iff]
    refine lt_of_le_of_lt (F32.div_mag_le (p := 0x40800000) (by rw [F32.isFinite_iff]; unfold infMag; omega)
      (by decide) (by decide) (by decide) ?_) (by decide)
    calc magUnits (xc.sub z).mag * unitsPerOne ≤ magUnits 0x3F800000 * unitsPerOne :=
          Nat.mul_le_mul_right _ (magUnits_mono hsub)
      _ ≤ _ := by decide +kernel
  unfold knobControl
  split
  · exact key _ (by decide) (by decide) (by decide)
  · exact key _ (by decide) (by decide) (by decide)

/-- Half of a legal rate is exact and finite. -/
theorem half_rate {fs : F32} (h : RateOk fs) : (fs.mul half).isFinite = true ∧ (fs.mul half).sign = false ∧
    2 * magUnits (fs.mul half).mag = magUnits fs.mag := by
  obtain ⟨p1, p2, p3, p4, p5, p6⟩ := period_range h
  have hf := h.1
  have hm := F32.mul_mag hf (show half.isFinite = true by decide)
  have hh : magUnits half.mag = 2 ^ 148 := by decide +kernel
  have hU : unitsPerOne = 2 * 2 ^ 148 := by decide +kernel
  obtain ⟨p, hp, hv⟩ : ∃ p, p < infMag ∧ 2 * magUnits p = magUnits fs.mag := by
    have hfm := F32.isFinite_iff.1 hf
    have hE : 2 ≤ fs.mag / 2 ^ 23 ∧ fs.mag / 2 ^ 23 ≤ 254 := by unfold infMag at hfm; omega
    obtain ⟨p, hp, hv⟩ := exists_magUnits (a := 2 ^ 23 + fs.mag % 2 ^ 23) (j := fs.mag / 2 ^ 23 - 2) (by omega) (by omega)
    refine ⟨p, hp, ?_⟩
    rw [hv]
    unfold magUnits
    rw [if_neg (by omega)]
    have : fs.mag / 2 ^ 23 - 1 = fs.mag / 2 ^ 23 - 2 + 1 := by omega
    rw [this, pow_succ _ (fs.mag / 2 ^ 23 - 2)]
    ring
  have hr : (fs.mul half).mag = p := by
    rw [hm.1, hh]
    have : magUnits fs.mag * 2 ^ 148 = magUnits p * unitsPerOne := by rw [hU, ← hv]; ring
    rw [this]; exact roundMag_exact p _ unitsPerOne_pos hp.le
  refine ⟨by rw [F32.isFinite_iff, hr]; exact hp, by rw [hm.2, p5]; decide, by rw [hr]; exact hv⟩

/-- Not below zero, by sign and magnitude. -/
theorem nonneg_iff {x : F32} (hx : x.isNaN = false) : F32.zero.le x = true ↔ (x.sign = true → x.mag = 0) := by
  rw [F32.le_iff]
  have h0 : F32.zero.key = 0 := by decide
  rw [h0]
  unfold F32.key
  simp only [hx, show F32.zero.isNaN = false by decide, true_and]
  cases x.sign <;> simp

/-- The metronome's clamped frequency lies in `[0, fs / 2]`, and its increment in `[0, 1/2]`. -/
theorem metClamp_range {f fs : F32} (h : RateOk fs) (hf : f.isFinite = true) :
    (metClamp f fs).isFinite = true ∧ (metClamp f fs).within .zero (fs.mul half) = true ∧
    ((metClamp f fs).div fs).isFinite = true ∧ ((metClamp f fs).div fs).within .zero half = true := by
  obtain ⟨q1, q2, q3⟩ := half_rate h
  obtain ⟨p1, p2, p3, p4, p5, p6⟩ := period_range h
  have hn := F32.not_nan_of_finite q1
  have hpos : F32.zero.le (fs.mul half) = true := (nonneg_iff hn).2 (by rw [q2]; simp)
  have e : cfg.metFMaxRatio = half := rfl
  have hw : (metClamp f fs).within .zero (fs.mul half) = true := by
    unfold metClamp; rw [e]; exact clamp_within (F32.not_nan_of_finite hf) hpos
  have hfin : (metClamp f fs).isFinite = true := by
    unfold metClamp; rw [e]
    rcases clamp_cases f .zero (fs.mul half) with ⟨_, e⟩ | ⟨_, _, e⟩ | ⟨_, _, e⟩ <;> rw [e]
    · decide
    · exact q1
    · exact hf
  have hwn := F32.not_nan_of_finite hfin
  have hm : (metClamp f fs).mag ≤ (fs.mul half).mag ∧ ((metClamp f fs).sign = true → (metClamp f fs).mag = 0) := by
    rw [within_iff (by decide) hn] at hw
    have h0 : F32.zero.key = 0 := by decide
    rw [h0] at hw
    have := hw.2
    unfold F32.key at this
    rw [q2] at this
    revert this; cases (metClamp f fs).sign <;> simp; omega
  have hd := F32.div_mag hfin h.1 p4
  have hdm : ((metClamp f fs).div fs).mag ≤ 0x3F000000 := by
    refine F32.div_mag_le hfin h.1 p4 (by decide) ?_
    rw [magUnits_half]
    have := magUnits_mono hm.1
    have hU : unitsPerOne = 2 * 2 ^ 148 := by decide +kernel
    rw [hU]
    nlinarith
  refine ⟨hfin, hw, by rw [F32.isFinite_iff]; unfold infMag; omega, ?_⟩
  rw [within_iff (by decide) (by decide)]
  have h0 : F32.zero.key = 0 := by decide
  have h1 : half.key = 0x3F000000 := by decide
  rw [h0, h1]
  refine ⟨by rw [F32.not_nan_iff]; unfold infMag; omega, ?_⟩
  have hz : ((metClamp f fs).div fs).sign = true → ((metClamp f fs).div fs).mag = 0 := by
    rw [hd.2, hd.1, p5]
    intro hs
    have : (metClamp f fs).sign = true := by simpa using hs
    rw [hm.2 this]
    simp [roundMag_zero _ (magUnits_pos (Nat.pos_of_ne_zero p4))]
  unfold F32.key
  revert hz hdm; cases ((metClamp f fs).div fs).sign <;> simp

/-- A product of numbers of bounded magnitude. -/
theorem mul_bounded {a b : F32} {p q r : Nat} (ha : a.mag ≤ p) (hb : b.mag ≤ q) (hp : p < infMag) (hq : q < infMag)
    (hr : r < infMag) (h : magUnits p * magUnits q ≤ magUnits r * unitsPerOne) : (a.mul b).mag ≤ r :=
  F32.mul_mag_le (F32.isFinite_iff.2 (by omega)) (F32.isFinite_iff.2 (by omega)) hr.le
    ((Nat.mul_le_mul (magUnits_mono ha) (magUnits_mono hb)).trans h)

/-- A value is bounded by that of a larger magnitude. -/
theorem units_abs_le {a : F32} {p : Nat} (ha : a.mag ≤ p) : -(magUnits p : Int) ≤ a.units ∧ a.units ≤ magUnits p := by
  have := magUnits_mono ha
  unfold F32.units
  split <;> constructor <;> omega

/-- A value between a number and its negative rounds to a magnitude at most the number's. -/
theorem roundUnits_bounded {v : Int} {z : Bool} {r : Nat} (hr : r < infMag) (h0 : -(magUnits r : Int) ≤ v)
    (h1 : v ≤ magUnits r) : (roundUnits v z).mag ≤ r := by
  unfold roundUnits
  split
  · rw [F32.mag_ofMag _ _ (by norm_num)]; exact Nat.zero_le _
  · rw [F32.mag_ofMag _ _ (lt_of_le_of_lt (roundMag_le_inf _ _) infMag_lt)]
    exact roundMag_le_of_le one_pos hr.le (by omega)

/-- A sum of numbers of bounded magnitude. -/
theorem add_bounded {a b : F32} {p q r : Nat} (ha : a.mag ≤ p) (hb : b.mag ≤ q) (hp : p < infMag) (hq : q < infMag)
    (hr : r < infMag) (h : magUnits p + magUnits q ≤ magUnits r) : (a.add b).mag ≤ r := by
  have h1 := units_abs_le ha
  have h2 := units_abs_le hb
  rw [F32.add_finite (F32.isFinite_iff.2 (by omega)) (F32.isFinite_iff.2 (by omega))]
  exact roundUnits_bounded hr (by omega) (by omega)

/-- A difference of numbers of bounded magnitude. -/
theorem sub_bounded {a b : F32} {p q r : Nat} (ha : a.mag ≤ p) (hb : b.mag ≤ q) (hp : p < infMag) (hq : q < infMag)
    (hr : r < infMag) (h : magUnits p + magUnits q ≤ magUnits r) : (a.sub b).mag ≤ r := by
  have h1 := units_abs_le ha
  have h2 := units_abs_le hb
  rw [F32.sub_finite (F32.isFinite_iff.2 (by omega)) (F32.isFinite_iff.2 (by omega))]
  exact roundUnits_bounded hr (by omega) (by omega)

end Sys2Proof.Machine
end

