-- ==== Sys2Proof/Laws/Filter.lean ====
section
/-! SUPPORT. The filter's numbers: the ranges of its cutoff, resonance and gain, the finiteness of its coefficients, and
what a pass leaves alone. -/

namespace Sys2Proof.Machine

set_option Elab.async false

/-- The filter's clamped cutoff: in its range, finite, and at most five times the rate. -/
theorem fcClamp_range {f fs : F32} (h : RateOk fs) (hf : f.isFinite = true) :
    (fcClamp f fs).isFinite = true ∧
    (fcClamp f fs).within ⟨0x40A00000#32⟩ (F32.max ⟨0x40A00000#32⟩ (fs.mul ⟨0x3ED9999A#32⟩)) = true ∧
    (fcClamp f fs).sign = false ∧ magUnits (fcClamp f fs).mag ≤ 5 * magUnits fs.mag := by
  obtain ⟨p1, p2, p3, p4, p5, p6⟩ := period_range h
  have hfs := h.1
  have hfn := F32.not_nan_of_finite hf
  have hm := F32.mul_mag hfs (show (⟨0x3ED9999A#32⟩ : F32).isFinite = true by decide)
  have hle : (fs.mul ⟨0x3ED9999A#32⟩).mag ≤ fs.mag :=
    F32.mul_mag_le hfs (by decide) (F32.isFinite_iff.1 hfs).le (Nat.mul_le_mul_left _ (by decide +kernel))
  have hsg : (fs.mul ⟨0x3ED9999A#32⟩).sign = false := by rw [hm.2, p5]; decide
  have hhn : (fs.mul ⟨0x3ED9999A#32⟩).isNaN = false := by
    rw [F32.not_nan_iff]; have := F32.isFinite_iff.1 hfs; omega
  have hU : magUnits 0x40A00000 = 5 * unitsPerOne := by decide +kernel
  have hF := magUnits_mono p6
  rw [magUnits_one] at hF
  have e : fcClamp f fs = if (if (fs.mul ⟨0x3ED9999A#32⟩).lt f = true then fs.mul ⟨0x3ED9999A#32⟩ else f).lt
      ⟨0x40A00000#32⟩ = true then ⟨0x40A00000#32⟩ else
      (if (fs.mul ⟨0x3ED9999A#32⟩).lt f = true then fs.mul ⟨0x3ED9999A#32⟩ else f) := rfl
  rw [e]
  generalize fs.mul ⟨0x3ED9999A#32⟩ = hi at *
  have k5 : (⟨0x40A00000#32⟩ : F32).key = 0x40A00000 := by decide
  have n5 : (⟨0x40A00000#32⟩ : F32).isNaN = false := by decide
  have hik : hi.key = hi.mag := by unfold F32.key; rw [hsg]; rfl
  have hmx : (F32.max ⟨0x40A00000#32⟩ hi).isNaN = false ∧ 0x40A00000 ≤ (F32.max ⟨0x40A00000#32⟩ hi).key ∧
      hi.key ≤ (F32.max ⟨0x40A00000#32⟩ hi).key := by
    unfold F32.max
    split
    · rename_i hc; rw [F32.lt_iff] at hc; exact ⟨hhn, by omega, le_rfl⟩
    · rename_i hc
      rw [Bool.not_eq_true, F32.lt_eq_false_iff n5 hhn, F32.le_iff] at hc
      exact ⟨n5, by omega, by omega⟩
  generalize F32.max ⟨0x40A00000#32⟩ hi = mx at *
  have pos : ∀ x : F32, 0x40A00000 ≤ x.key → x.key ≤ hi.key → x.sign = false ∧ x.mag ≤ hi.mag := by
    intro x h1 h2
    rw [hik] at h2
    unfold F32.key at h1 h2
    revert h1 h2; cases x.sign <;> simp; omega
  have hinf := F32.isFinite_iff.1 hfs
  have fin : ∀ x : F32, x.isNaN = false → 0x40A00000 ≤ x.key → x.key ≤ hi.key →
      x.isFinite = true ∧ x.within ⟨0x40A00000#32⟩ mx = true ∧ x.sign = false ∧ magUnits x.mag ≤ 5 * magUnits fs.mag := by
    intro x hn h1 h2
    obtain ⟨s, m⟩ := pos x h1 h2
    have := magUnits_mono (m.trans hle)
    refine ⟨F32.isFinite_iff.2 (by omega), ?_, s, by omega⟩
    rw [within_iff n5 hmx.1]; exact ⟨hn, by omega, by omega⟩
  obtain ⟨g, hg, hgn, hgk⟩ : ∃ g : F32, (if hi.lt f = true then hi else f) = g ∧ g.isNaN = false ∧ g.key ≤ hi.key := by
    refine ⟨_, rfl, ?_⟩
    split
    · exact ⟨hhn, le_rfl⟩
    · rename_i hc
      rw [Bool.not_eq_true, F32.lt_eq_false_iff hhn hfn, F32.le_iff] at hc
      exact ⟨hfn, hc.2.2⟩
  rw [hg]
  split
  · refine ⟨by decide, ?_, by decide, ?_⟩
    · rw [within_iff n5 hmx.1]; exact ⟨n5, by omega, by omega⟩
    · have : (⟨0x40A00000#32⟩ : F32).mag = 0x40A00000 := by decide
      rw [this, hU]; omega
  · rename_i hc
    rw [Bool.not_eq_true, F32.lt_eq_false_iff hgn n5, F32.le_iff] at hc
    exact fin g hgn (by omega) hgk

/-- The filter's resonance and gain stay in range. -/
theorem ladGain_range {r : F32} (hr : r.isFinite = true) : (resClamp r).within .zero ⟨0x3FE66666#32⟩ = true ∧
    (ladGain (resClamp r)).within .zero ⟨0x40800000#32⟩ = true := by
  have hw : (resClamp r).within .zero ⟨0x3FE66666#32⟩ = true := clamp_within (F32.not_nan_of_finite hr) (by decide)
  refine ⟨hw, ?_⟩
  generalize resClamp r = x at *
  rw [within_iff (by decide) (by decide)] at hw
  have k0 : F32.zero.key = 0 := by decide
  have k1 : (⟨0x3FE66666#32⟩ : F32).key = 0x3FE66666 := by decide
  have k4 : (⟨0x40800000#32⟩ : F32).key = 0x40800000 := by decide
  rw [k0, k1] at hw
  have hx : x.mag ≤ 0x3FE66666 ∧ (x.sign = true → x.mag = 0) := by
    have := hw.2
    unfold F32.key at this
    revert this; cases x.sign <;> simp; omega
  have fx : x.isFinite = true := F32.isFinite_iff.2 (by unfold infMag; omega)
  have m := F32.mul_mag fx (show (⟨0x40800000#32⟩ : F32).isFinite = true by decide)
  have hm : (x.mul ⟨0x40800000#32⟩).mag ≤ 0x40E66666 :=
    mul_bounded hx.1 (q := 0x40800000) (by decide) (by decide) (by decide) (by decide) (by decide +kernel)
  have fm : (x.mul ⟨0x40800000#32⟩).isFinite = true := F32.isFinite_iff.2 (by unfold infMag; omega)
  have e : ladGain x = (x.mul ⟨0x40800000#32⟩).div ⟨0x3FE66666#32⟩ := rfl
  rw [e]
  have d := F32.div_mag fm (show (⟨0x3FE66666#32⟩ : F32).isFinite = true by decide) (by decide)
  have hd : ((x.mul ⟨0x40800000#32⟩).div ⟨0x3FE66666#32⟩).mag ≤ 0x40800000 :=
    F32.div_mag_le fm (by decide) (by decide) (by decide)
      ((Nat.mul_le_mul_right _ (magUnits_mono hm)).trans (by decide +kernel))
  have hz : ((x.mul ⟨0x40800000#32⟩).div ⟨0x3FE66666#32⟩).sign = true →
      ((x.mul ⟨0x40800000#32⟩).div ⟨0x3FE66666#32⟩).mag = 0 := by
    rw [d.2, m.2, d.1, m.1]
    intro hs
    have : x.sign = true := by revert hs; cases x.sign <;> simp; decide
    rw [hx.2 this]
    simp [roundMag_zero _ unitsPerOne_pos, roundMag_zero _ (show 0 < magUnits (⟨0x3FE66666#32⟩ : F32).mag by decide +kernel)]
  rw [within_iff (by decide) (by decide), k0, k4]
  refine ⟨F32.not_nan_iff.2 (by unfold infMag; omega), ?_⟩
  unfold F32.key
  revert hz hd; cases ((x.mul ⟨0x40800000#32⟩).div ⟨0x3FE66666#32⟩).sign <;> simp

/-- The cutoff in radians per oversampled sample is at most 40, at every rate. -/
theorem ladWc_bounded {f fs : F32} (h : RateOk fs) (hf : f.isFinite = true) : (ladWc (fcClamp f fs) fs).mag ≤ 0x42200000 := by
  obtain ⟨p1, p2, p3, p4, p5, p6⟩ := period_range h
  obtain ⟨c1, c2, c3, c4⟩ := fcClamp_range h hf
  generalize fcClamp f fs = fc at *
  have hfs := h.1
  have hU : unitsPerOne = 2 ^ 149 := rfl
  have h4 := F32.mul_mag (show four.isFinite = true by decide) hfs
  have e4 : magUnits four.mag = 2 ^ 151 := by decide +kernel
  have et : cfg.twoPi = ⟨0x40C90FDB#32⟩ := rfl
  have ht : magUnits (⟨0x40C90FDB#32⟩ : F32).mag ≤ 2 ^ 152 := by decide +kernel
  have hF0 : magUnits fs.mag ≠ 0 := fun e => p4 (magUnits_eq_zero.1 e)
  obtain ⟨lo, hi⟩ := log2_spec hF0
  have hk2 : Nat.log2 (magUnits fs.mag) < 277 := by
    have : magUnits fs.mag ≤ magUnits (infMag - 1) := magUnits_mono (by have := F32.isFinite_iff.1 hfs; omega)
    exact lt_of_le_of_lt (log2_mono this) (by decide +kernel)
  have hFlo : 2 ^ 149 ≤ magUnits fs.mag := by rw [← hU, ← magUnits_one]; exact magUnits_mono p6
  generalize hk : Nat.log2 (magUnits fs.mag) = k at *
  have hk1 : 149 < k + 1 := (Nat.pow_lt_pow_iff_right (by norm_num : 1 < 2)).1 (lt_of_le_of_lt hFlo hi)
  -- the radians per hertz are at most 2^(300 - k) units
  obtain ⟨p, hp, hpv⟩ := exists_magUnits (a := 1) (j := 300 - k) (by norm_num) (by omega)
  have hd : (cfg.twoPi.div (four.mul fs)).mag ≤ p := by
    rw [et]
    rcases hinf : (four.mul fs).isInf with _ | _
    · have f4 : (four.mul fs).isFinite = true := by
        have : (four.mul fs).mag ≤ infMag := by rw [h4.1]; exact roundMag_le_inf _ _
        have : (four.mul fs).mag ≠ infMag := by simpa [F32.isInf] using hinf
        rw [F32.isFinite_iff]; omega
      -- four times the rate is at least 2^(k + 2) units
      have hge : 2 ^ (k + 2) ≤ magUnits (four.mul fs).mag := by
        by_cases hk250 : k + 2 ≤ 276
        · obtain ⟨q, hq, hqv⟩ := exists_magUnits (a := 2 ^ 24) (j := k + 2 - 24) le_rfl (by omega)
          have : q ≤ (four.mul fs).mag := by
            rw [h4.1]
            refine le_roundMag_of_le unitsPerOne_pos hq.le ?_
            rw [hqv, e4, hU, ← pow_add]
            calc 2 ^ (24 + (k + 2 - 24)) * 2 ^ 149 = 2 ^ 151 * 2 ^ k := by
                  rw [← pow_add, ← pow_add]; congr 1; omega
              _ ≤ _ := Nat.mul_le_mul_left _ lo
          have := magUnits_mono this
          rw [hqv, ← pow_add] at this
          have e : 24 + (k + 2 - 24) = k + 2 := by omega
          rwa [e] at this
        · exfalso
          have : infMag ≤ (four.mul fs).mag := by
            rw [h4.1]
            refine le_roundMag_of_le unitsPerOne_pos le_rfl ?_
            have ei : magUnits infMag = 2 ^ 277 := by decide +kernel
            rw [ei, e4, hU]
            calc 2 ^ 277 * 2 ^ 149 = 2 ^ 151 * 2 ^ 275 := by decide +kernel
              _ ≤ 2 ^ 151 * 2 ^ k := Nat.mul_le_mul_left _ (Nat.pow_le_pow_right (by norm_num) (by omega))
              _ ≤ _ := Nat.mul_le_mul_left _ lo
          have := F32.isFinite_iff.1 f4
          omega
      have hn0 : (four.mul fs).mag ≠ 0 := by
        intro e
        rw [e] at hge
        have : 0 < 2 ^ (k + 2) := by positivity
        simp at hge
      refine F32.div_mag_le (by decide) f4 hn0 hp.le ?_
      rw [hpv, hU, one_mul]
      calc _ ≤ 2 ^ 152 * 2 ^ 149 := Nat.mul_le_mul_right _ ht
        _ = 2 ^ (300 - k) * 2 ^ (k + 1) := by rw [← pow_add, ← pow_add]; congr 1; omega
        _ ≤ 2 ^ (300 - k) * 2 ^ (k + 2) := Nat.mul_le_mul_left _ (Nat.pow_le_pow_right (by norm_num) (by omega))
        _ ≤ _ := Nat.mul_le_mul_left _ hge
    · have hn : (four.mul fs).isNaN = false := by
        rw [F32.not_nan_iff, h4.1]; exact roundMag_le_inf _ _
      have : F32.div ⟨0x40C90FDB#32⟩ (four.mul fs) = .ofMag ((⟨0x40C90FDB#32⟩ : F32).sign != (four.mul fs).sign) 0 := by
        have a1 : (⟨0x40C90FDB#32⟩ : F32).isNaN = false := by decide
        have a2 : (⟨0x40C90FDB#32⟩ : F32).isInf = false := by decide
        simp [F32.div, F32.divNum, a1, a2, hn, hinf]
      rw [this, F32.mag_ofMag _ _ (by norm_num)]; exact Nat.zero_le _
  unfold ladWc
  have hdf : (cfg.twoPi.div (four.mul fs)).isFinite = true := F32.isFinite_iff.2 (by omega)
  refine F32.mul_mag_le c1 hdf (by decide) ?_
  have e40 : magUnits 0x42200000 = 5 * 2 ^ 152 := by decide +kernel
  rw [e40, hU]
  calc _ ≤ 5 * 2 ^ (k + 1) * 2 ^ (300 - k) := Nat.mul_le_mul (c4.trans (Nat.mul_le_mul_left _ hi.le))
          ((magUnits_mono hd).trans (by rw [hpv, one_mul]))
    _ = 5 * 2 ^ 152 * 2 ^ 149 := by rw [mul_assoc, mul_assoc, ← pow_add, ← pow_add]; congr 2; omega

/-- Both coefficients of a clamped cutoff are finite, at every rate. -/
theorem ladCoefs_finite {f fs : F32} (h : RateOk fs) (hf : f.isFinite = true) :
    (ladAlpha (fcClamp f fs) fs).isFinite = true ∧ (ladQadj (fcClamp f fs) fs).isFinite = true := by
  have hw := ladWc_bounded h hf
  unfold ladAlpha ladQadj
  generalize ladWc (fcClamp f fs) fs = w at *
  -- 1600 bounds the square, 2^22 everything else
  have h2 : (w.mul w).mag ≤ 0x44C80000 :=
    mul_bounded hw hw (by decide) (by decide) (by decide) (by decide +kernel)
  simp only []
  generalize w.mul w = w2 at *
  have b : ∀ c : F32, c.mag ≤ 0x3F80C49C → (c.mul w).mag ≤ 0x42480000 ∧ (c.mul w2).mag ≤ 0x45000000 := fun c hc =>
    ⟨mul_bounded hc hw (by decide) (by decide) (by decide) (by decide +kernel),
      mul_bounded hc h2 (by decide) (by decide) (by decide) (by decide +kernel)⟩
  have c : ∀ x : F32, x.mag ≤ 0x45000000 → (x.mul w2).mag ≤ 0x4A800000 := fun x hx =>
    mul_bounded hx h2 (by decide) (by decide) (by decide) (by decide +kernel)
  have s : ∀ x y : F32, ∀ p q r : Nat, x.mag ≤ p → y.mag ≤ q → p < infMag → q < infMag → r < infMag →
      magUnits p + magUnits q ≤ magUnits r → (x.add y).mag ≤ r ∧ (x.sub y).mag ≤ r := fun x y p q r h1 h2 h3 h4 h5 h6 =>
    ⟨add_bounded h1 h2 h3 h4 h5 h6, sub_bounded h1 h2 h3 h4 h5 h6⟩
  rw [F32.isFinite_iff, F32.isFinite_iff]
  constructor
  · have t1 := (s _ _ _ _ 0x45800000 (b cfg.ladA1 (by decide)).1 (b cfg.ladA2 (by decide)).2 (by decide) (by decide) (by decide) (by decide +kernel)).2
    have t2 := (s _ _ _ _ 0x4B000000 t1 (c _ ((b cfg.ladA3 (by decide)).1.trans (by decide))) (by decide) (by decide) (by decide) (by decide +kernel)).1
    have t3 := (s _ _ _ _ 0x4B800000 t2 (c _ (b cfg.ladA4 (by decide)).2) (by decide) (by decide) (by decide) (by decide +kernel)).2
    exact lt_of_le_of_lt t3 (by decide)
  · have t1 := (s _ _ _ _ 0x43000000 (show cfg.ladQ0.mag ≤ 0x3F80C49C by decide) (b cfg.ladQ1 (by decide)).1 (by decide) (by decide) (by decide) (by decide +kernel)).1
    have t2 := (s _ _ _ _ 0x45800000 t1 (b cfg.ladQ2 (by decide)).2 (by decide) (by decide) (by decide) (by decide +kernel)).2
    have t3 := (s _ _ _ _ 0x4B800000 t2 (c _ (b cfg.ladQ4 (by decide)).2) (by decide) (by decide) (by decide) (by decide +kernel)).2
    exact lt_of_le_of_lt t3 (by decide)

/-- A pass changes the two memories of the filter only. -/
theorem passState_keeps (l : LadState) (x k : F32) :
    passState l x k = { l with z0 := (passState l x k).z0, z1 := (passState l x k).z1 } := rfl
/-- So do several. -/
theorem passesState_keeps (x : F32) (n : Nat) (l : LadState) (k : F32) :
    passesState x n l k = { l with z0 := (passesState x n l k).z0, z1 := (passesState x n l k).z1 } := by
  induction n generalizing l k with
  | zero => rfl
  | succ n ih => rw [passesState, ih, passState_keeps]

end Sys2Proof.Machine
end

