-- ==== Sys2Proof/Laws/PerInstr.lean ====
section
/-! SUPPORT. The family `EncodedFields`: what the word of each command holds in its three fields (30_encoding.md R76,
R82, R83). -/

namespace Sys2Proof.Laws

set_option Elab.async false

/-- The three fields of a word built from them. -/
theorem encode_fields (i : Instr) :
    (encode i).op = opcodeOf i ∧ (encode i).rsv = 0#24 ∧ (encode i).arg = argOf i := by
  have key : ∀ (a : BitVec 8) (r : BitVec 24) (d : BitVec 32),
      (a ++ r ++ d).extractLsb' 56 8 = a ∧ (a ++ r ++ d).extractLsb' 32 24 = r ∧
      (a ++ r ++ d).extractLsb' 0 32 = d := by
    intro a r d
    refine ⟨?_, ?_, ?_⟩ <;>
    · ext i hi
      simp only [BitVec.getElem_extractLsb', BitVec.getLsbD_append]
      grind
  exact key (opcodeOf i) 0#24 (argOf i)

/-- The word of a command carries its opcode, a zero reserved field and its operand, and no operand where it has
none. -/
def EncodedFields.Statement (i : Instr) : Prop :=
  (encode i).op = opcodeOf i ∧ (encode i).rsv = 0#24 ∧ (encode i).arg = argOf i ∧
    (operandTypeOf i = .none → (encode i).arg = 0#32)

/-- The family, from what its four parts need. -/
theorem encodedFields_of_arg {i : Instr} (h : operandTypeOf i = .none → argOf i = 0#32) :
    EncodedFields.Statement i :=
  have e := encode_fields i
  ⟨e.1, e.2.1, e.2.2, fun hn => e.2.2.trans (h hn)⟩

theorem EncodedFields.nop : EncodedFields.Statement .nop := encodedFields_of_arg fun _ => rfl
theorem EncodedFields.getStatus : EncodedFields.Statement .getStatus := encodedFields_of_arg fun _ => rfl
theorem EncodedFields.oscInit (fs : F32) : EncodedFields.Statement (.oscInit fs) := encodedFields_of_arg nofun
theorem EncodedFields.oscSetFreq (f : F32) : EncodedFields.Statement (.oscSetFreq f) := encodedFields_of_arg nofun
theorem EncodedFields.oscSetWave (w : BitVec 32) : EncodedFields.Statement (.oscSetWave w) := encodedFields_of_arg nofun
theorem EncodedFields.oscPhaseAdd (d : F32) : EncodedFields.Statement (.oscPhaseAdd d) := encodedFields_of_arg nofun
theorem EncodedFields.oscProcess : EncodedFields.Statement .oscProcess := encodedFields_of_arg fun _ => rfl
theorem EncodedFields.ladInit (fs : F32) : EncodedFields.Statement (.ladInit fs) := encodedFields_of_arg nofun
theorem EncodedFields.ladSetFreq (f : F32) : EncodedFields.Statement (.ladSetFreq f) := encodedFields_of_arg nofun
theorem EncodedFields.ladSetRes (r : F32) : EncodedFields.Statement (.ladSetRes r) := encodedFields_of_arg nofun
theorem EncodedFields.ladSetMode (m : BitVec 32) : EncodedFields.Statement (.ladSetMode m) := encodedFields_of_arg nofun
theorem EncodedFields.ladProcess (x : F32) : EncodedFields.Statement (.ladProcess x) := encodedFields_of_arg nofun
theorem EncodedFields.envxInit (fs : F32) : EncodedFields.Statement (.envxInit fs) := encodedFields_of_arg nofun
theorem EncodedFields.envxSetCtl (c : F32) : EncodedFields.Statement (.envxSetCtl c) := encodedFields_of_arg nofun
theorem EncodedFields.envxSetKnob (x : F32) : EncodedFields.Statement (.envxSetKnob x) := encodedFields_of_arg nofun
theorem EncodedFields.envxTrigger : EncodedFields.Statement .envxTrigger := encodedFields_of_arg fun _ => rfl
theorem EncodedFields.envxProcess : EncodedFields.Statement .envxProcess := encodedFields_of_arg fun _ => rfl
theorem EncodedFields.envlInit (fs : F32) : EncodedFields.Statement (.envlInit fs) := encodedFields_of_arg nofun
theorem EncodedFields.envlSetTime (t : F32) : EncodedFields.Statement (.envlSetTime t) := encodedFields_of_arg nofun
theorem EncodedFields.envlTrigger : EncodedFields.Statement .envlTrigger := encodedFields_of_arg fun _ => rfl
theorem EncodedFields.envlProcess : EncodedFields.Statement .envlProcess := encodedFields_of_arg fun _ => rfl
theorem EncodedFields.seqInit : EncodedFields.Statement .seqInit := encodedFields_of_arg fun _ => rfl
theorem EncodedFields.seqSetLen (n : BitVec 32) : EncodedFields.Statement (.seqSetLen n) := encodedFields_of_arg nofun
theorem EncodedFields.seqSetComplexity (n : BitVec 32) : EncodedFields.Statement (.seqSetComplexity n) := encodedFields_of_arg nofun
theorem EncodedFields.seqSetDensity (d : F32) : EncodedFields.Statement (.seqSetDensity d) := encodedFields_of_arg nofun
theorem EncodedFields.seqProcess : EncodedFields.Statement .seqProcess := encodedFields_of_arg fun _ => rfl
theorem EncodedFields.seqSetSpread (x : F32) : EncodedFields.Statement (.seqSetSpread x) := encodedFields_of_arg nofun
theorem EncodedFields.seqSetBias (b : F32) : EncodedFields.Statement (.seqSetBias b) := encodedFields_of_arg nofun
theorem EncodedFields.seqSetCvSeed (n : BitVec 32) : EncodedFields.Statement (.seqSetCvSeed n) := encodedFields_of_arg nofun
theorem EncodedFields.seqSetPalSeed (n : BitVec 32) : EncodedFields.Statement (.seqSetPalSeed n) := encodedFields_of_arg nofun
theorem EncodedFields.seqRegenCv : EncodedFields.Statement .seqRegenCv := encodedFields_of_arg fun _ => rfl
theorem EncodedFields.seqReadCv (idx : BitVec 32) : EncodedFields.Statement (.seqReadCv idx) := encodedFields_of_arg nofun
theorem EncodedFields.seqReadGates : EncodedFields.Statement .seqReadGates := encodedFields_of_arg fun _ => rfl
theorem EncodedFields.metInit (fs : F32) : EncodedFields.Statement (.metInit fs) := encodedFields_of_arg nofun
theorem EncodedFields.metSetFreq (f : F32) : EncodedFields.Statement (.metSetFreq f) := encodedFields_of_arg nofun
theorem EncodedFields.metReset : EncodedFields.Statement .metReset := encodedFields_of_arg fun _ => rfl
theorem EncodedFields.metProcess : EncodedFields.Statement .metProcess := encodedFields_of_arg fun _ => rfl
theorem EncodedFields.metGetPhase : EncodedFields.Statement .metGetPhase := encodedFields_of_arg fun _ => rfl

end Sys2Proof.Laws
end

