-- ==== Sys2Proof/Laws/Runs.lean ====
section
/-! SUPPORT. Runs of command lists: the host's further events pass through a command unread, so a run is the fold of single
words. -/

namespace Sys2Proof.Machine

set_option Elab.async false

/-- No command reads the port. -/
theorem dataOf_port (i : Instr) (s : State) (p : Port) : dataOf i { s with port := p } = dataOf i s := by
  cases i <;> rfl

/-- No command reads or writes the port but for its response. -/
theorem effectOf_port (i : Instr) (s : State) (p : Port) :
    effectOf i { s with port := p } = { effectOf i s with port := p } := by
  cases i
  case envxSetKnob x => simp only [effectOf]; split <;> rfl
  case envxProcess => simp only [effectOf]; split <;> rfl
  case metProcess => simp only [effectOf]; split <;> rfl
  all_goals rfl

/-- The host's further events pass through a command unchanged and unread. -/
theorem exec_inbox (i : Instr) (s : State) (b : List HostEvent) :
    ∃ t, exec i s = .next t ∧ t.port.inbox = s.port.inbox ∧
      exec i { s with port := { s.port with inbox := b } } = .next { t with port := { t.port with inbox := b } } := by
  have hinit : ({ s with port := { s.port with inbox := b } } : State).initOf (unitOf i) = s.initOf (unitOf i) := by
    cases unitOf i <;> rfl
  rcases hi : isInitCommand i || s.initOf (unitOf i) with _ | _
  · exact ⟨_, exec_not_init hi, rfl, exec_not_init (by rw [hinit]; exact hi)⟩
  · rcases ha : operandOk i with _ | _
    · exact ⟨_, exec_bad_arg hi ha, rfl, exec_bad_arg (by rw [hinit]; exact hi) ha⟩
    · refine ⟨_, exec_accepted hi ha, ?_, ?_⟩
      · simp [(effectOf_keeps i s).2.2]
      · rw [exec_accepted (by rw [hinit]; exact hi) ha, dataOf_port, effectOf_port]
        have hp := (effectOf_keeps i s).2.2
        generalize effectOf i s = u at *
        cases u
        subst hp
        rfl

/-- A word is taken by a next state, and the host's further events pass through. -/
theorem stepOnWord_inbox (s : State) (w : CmdWord) (b : List HostEvent) :
    ∃ t, stepOnWord s w = .next t ∧ t.port.inbox = s.port.inbox ∧
      stepOnWord { s with port := { s.port with inbox := b } } w = .next { t with port := { t.port with inbox := b } } := by
  unfold stepOnWord
  rcases hd : decode w with e | i
  · rw [step_bad_command _ w e _ rfl hd, step_bad_command _ w e _ rfl hd]
    exact ⟨_, rfl, rfl, rfl⟩
  · rw [step_command _ w i _ rfl hd, step_command _ w i _ rfl hd]
    exact exec_inbox i s b

/-- A run of no word takes nothing. -/
theorem runWords_nil (s : State) : runWords s [] = .next { s with port := { s.port with inbox := [] } } := rfl

/-- What the host had in mind before does not count in a run. -/
theorem runWords_inbox (s : State) (b : List HostEvent) (ws : List CmdWord) :
    runWords { s with port := { s.port with inbox := b } } ws = runWords s ws := rfl

/-- A run takes the first word, then runs the others. -/
theorem runWords_cons (s : State) (w : CmdWord) (ws : List CmdWord) :
    ∃ t, stepOnWord s w = .next t ∧ runWords s (w :: ws) = runWords t ws := by
  obtain ⟨t, h1, h2, h3⟩ := stepOnWord_inbox s w (ws.map .command)
  refine ⟨t, h1, ?_⟩
  unfold stepOnWord at h3
  unfold runWords
  simp only [List.length_cons, List.map_cons, Host.Core.run]
  have e : core.step { s with port := { s.port with inbox := .command w :: ws.map .command } } =
      .next { t with port := { t.port with inbox := ws.map .command } } := h3
  rw [e]

end Sys2Proof.Machine
end

