-- ==== Sys2Proof/Laws/Sequencer.lean ====
section
/-! SUPPORT. The sequencer's numbers and lists: ranges of its counts, the lengths of its runs, and what the shuffle and the
sort do to a list. -/

namespace Sys2Proof.Machine

set_option Elab.async false

/-- The nearest integer of a number not below zero lies between any integers that the number lies between. -/
theorem roundi_range {x : F32} {m n : Nat} (hz : x.sign = true → x.mag = 0) (ht : x.mag < magTwo31)
    (h0 : m * unitsPerOne ≤ magUnits x.mag) (h1 : magUnits x.mag ≤ n * unitsPerOne) :
    (m : Int) ≤ x.roundi ∧ x.roundi ≤ n := by
  have hU := unitsPerOne_pos
  unfold F32.roundi
  rw [if_pos ht]
  have a : m ≤ (2 * magUnits x.mag + unitsPerOne) / (2 * unitsPerOne) := by
    rw [Nat.le_div_iff_mul_le (by omega)]; nlinarith
  have b : (2 * magUnits x.mag + unitsPerOne) / (2 * unitsPerOne) ≤ n := by
    rw [Nat.div_le_iff_le_mul_add_pred (by omega)]
    have : 2 * unitsPerOne * n = 2 * (n * unitsPerOne) := by ring
    omega
  have c : x.sign = true → (2 * magUnits x.mag + unitsPerOne) / (2 * unitsPerOne) = 0 := fun hs => by
    rw [hz hs, magUnits_zero]; exact Nat.div_eq_of_lt (by omega)
  generalize (2 * magUnits x.mag + unitsPerOne) / (2 * unitsPerOne) = k at *
  cases hs : x.sign
  · simp only [Bool.false_eq_true, if_false]; omega
  · have := c hs
    simp only [if_true]; omega

/-- A clamped count is in its range. -/
theorem clampCount_range (n : BitVec 32) : 1 ≤ clampCount 1 32 n ∧ clampCount 1 32 n ≤ 32 := by
  unfold clampCount; split
  · omega
  · split <;> omega

/-- An amount clamped to `[0, 1]` is there. -/
theorem clampUnit_within {x : F32} (hx : x.isFinite = true) : (clampUnit x).within .zero .one = true :=
  clamp_within (F32.not_nan_of_finite hx) (by decide)

/-- A number in `[0, 1]` times a positive number of magnitude pattern `p`. -/
theorem unit_mul_bounded {x c : F32} (hx : x.within .zero .one = true) (hc : c.isFinite = true) (hs : c.sign = false) :
    (x.mul c).mag ≤ c.mag ∧ ((x.mul c).sign = true → (x.mul c).mag = 0) := by
  have h := unit_iff.1 hx
  have fx := unit_finite hx
  have m := F32.mul_mag fx hc
  constructor
  · refine F32.mul_mag_le fx hc (F32.isFinite_iff.1 hc).le ?_
    rw [Nat.mul_comm (magUnits c.mag)]
    refine Nat.mul_le_mul_right _ ?_
    rw [← magUnits_one]; exact magUnits_mono h.1
  · rw [m.2, m.1, hs]
    intro e
    rw [h.2 (by simpa using e)]
    simp [roundMag_zero _ unitsPerOne_pos]

/-- The quantised bias is one of the 26 multiples of 1/25. -/
theorem quantBias_form {b : F32} (hb : b.isFinite = true) :
    ∃ k : Nat, k ≤ 25 ∧ quantBias b = (F32.ofInt k).div ⟨0x41C80000#32⟩ := by
  obtain ⟨h1, h2⟩ := unit_mul_bounded (clampUnit_within hb) (c := ⟨0x41C80000#32⟩) (by decide) (by decide)
  have e25 : (⟨0x41C80000#32⟩ : F32).mag = 0x41C80000 := by decide
  rw [e25] at h1
  have hr := roundi_range (m := 0) (n := 25) h2 (by unfold magTwo31; omega) (by simp) ((magUnits_mono h1).trans (by decide +kernel))
  obtain ⟨k, hk⟩ := Int.eq_ofNat_of_zero_le hr.1
  refine ⟨k, by omega, ?_⟩
  show (F32.ofInt ((clampUnit b).mul ⟨0x41C80000#32⟩).roundi).div ⟨0x41C80000#32⟩ = _
  rw [hk]

/-- The number of gates is at most 32. -/
theorem gateCount_range {d : F32} (hd : d.within .zero .one = true) :
    0 ≤ (d.mul thirtyTwo).roundi ∧ (d.mul thirtyTwo).roundi ≤ 32 := by
  obtain ⟨h1, h2⟩ := unit_mul_bounded hd (c := thirtyTwo) (by decide) (by decide)
  have e : thirtyTwo.mag = 0x42000000 := by decide
  rw [e] at h1
  have hr := roundi_range (m := 0) (n := 32) h2 (by unfold magTwo31; omega) (by simp) ((magUnits_mono h1).trans (by decide +kernel))
  exact ⟨by simpa using hr.1, hr.2⟩

/-- The run count lies between the complexity and 32. -/
theorem totalRuns_range {cpx : Nat} {spread : F32} (h1 : 1 ≤ cpx) (h2 : cpx ≤ 32) (hs : spread.within .zero .one = true) :
    cpx ≤ totalRuns cpx spread ∧ totalRuns cpx spread ≤ 32 := by
  have e1 := F32.ofInt_exact (n := cpx) (by omega)
  have e2 := F32.ofInt_exact (n := 32 - cpx) (by omega)
  have e32 : ((cfg.seqCpxMax : Int) - cpx) = 32 - cpx := rfl
  unfold totalRuns
  rw [e32]
  have hU := unitsPerOne_pos
  generalize F32.ofInt (cpx : Int) = c at *
  generalize F32.ofInt (32 - (cpx : Int)) = r at *
  have p2 : 0 ≤ r.units := by rw [e2.2]; exact Int.mul_nonneg (by omega) (by omega)
  -- the product lies between 0 and `r`
  have hs' := unit_iff.1 hs
  have fs := unit_finite hs
  have hpn : (spread.mul r).isNaN = false := mul_not_nan fs e2.1
  have hle : (spread.mul r).mag ≤ r.mag := by
    refine F32.mul_mag_le fs e2.1 (F32.isFinite_iff.1 e2.1).le ?_
    rw [Nat.mul_comm (magUnits r.mag)]
    refine Nat.mul_le_mul_right _ ?_
    rw [← magUnits_one]; exact magUnits_mono hs'.1
  have fp : (spread.mul r).isFinite = true :=
    F32.isFinite_iff.2 (lt_of_le_of_lt hle (F32.isFinite_iff.1 e2.1))
  have hp : 0 ≤ (spread.mul r).units ∧ (spread.mul r).units ≤ r.units := by
    have hr : r.sign = true → r.mag = 0 := by
      intro hsg
      unfold F32.units at p2
      rw [hsg] at p2
      have : magUnits r.mag = 0 := by simp only [if_true] at p2; omega
      exact magUnits_eq_zero.1 this
    have hz : (spread.mul r).sign = true → (spread.mul r).mag = 0 := by
      have m := F32.mul_mag fs e2.1
      rw [m.2, m.1]
      intro h
      have : spread.mag = 0 ∨ r.mag = 0 := by
        cases h1 : spread.sign <;> cases h2 : r.sign <;> simp_all
      rcases this with h | h <;> rw [h] <;> simp [roundMag_zero _ unitsPerOne_pos]
    have hmono := magUnits_mono hle
    have hr' : r.units = magUnits r.mag := by
      unfold F32.units; cases h : r.sign
      · rfl
      · rw [hr h]; rfl
    have hp' : (spread.mul r).units = magUnits (spread.mul r).mag := by
      unfold F32.units; cases h : (spread.mul r).sign
      · rfl
      · rw [hz h]; rfl
    rw [hr', hp']
    constructor <;> omega
  generalize spread.mul r = p at *
  -- so the sum lies between the complexity and 32
  have hadd := F32.add_finite e1.1 fp
  have hc0 : 0 < c.units := by rw [e1.2]; exact Int.mul_pos (by omega) (by omega)
  have h32 : thirtyTwo.units = 32 * (unitsPerOne : Int) := by decide +kernel
  have hlo : c.key ≤ (c.add p).key := by
    rw [hadd]; exact le_roundUnits (F32.isFinite_iff.1 e1.1).le (by omega)
  have hhi : (c.add p).key ≤ thirtyTwo.key := by
    rw [hadd]; refine roundUnits_le (by decide) ?_
    rw [h32, e1.2]
    have := e2.2
    have : (32 - (cpx : Int)) * (unitsPerOne : Int) = 32 * unitsPerOne - cpx * unitsPerOne := by ring
    omega
  generalize c.add p = x at *
  have kc : 0 < c.key := F32.units_pos_iff.1 hc0
  have k32 : thirtyTwo.key = 0x42000000 := by decide
  have hx : x.sign = false ∧ x.mag < magTwo31 := by
    unfold magTwo31
    have h := hlo
    have h' := hhi
    rw [k32] at h'
    unfold F32.key at h h'
    have := kc
    unfold F32.key at this
    revert h h' this; cases x.sign <;> cases c.sign <;> simp <;> omega
  rw [← F32.units_le_iff] at hlo hhi
  have hxu : x.units = magUnits x.mag := by unfold F32.units; rw [hx.1]; rfl
  rw [hxu, e1.2] at hlo
  rw [hxu, h32] at hhi
  have := roundi_range (x := x) (m := cpx) (n := 32) (by rw [hx.1]; simp) hx.2 (by exact_mod_cast hlo) (by exact_mod_cast hhi)
  omega

/-- A run is not empty and leaves a step for each run after it. -/
theorem runLength_spec {steps runs : Nat} (h : runs + 1 ≤ steps) :
    1 ≤ runLength steps (runs + 1) ∧ runLength steps (runs + 1) + runs ≤ steps ∧
    (runs = 0 → runLength steps (runs + 1) = steps) := by
  unfold runLength
  refine ⟨?_, ?_, ?_⟩
  · rw [Nat.le_div_iff_mul_le (by omega)]; omega
  · have : (2 * steps + (runs + 1)) / (2 * (runs + 1)) ≤ steps - runs := by
      obtain ⟨d, rfl⟩ := Nat.exists_eq_add_of_le h
      have e : runs + 1 + d - runs = d + 1 := by omega
      rw [e, ← Nat.lt_succ_iff, Nat.div_lt_iff_lt_mul (by omega)]
      have : 0 ≤ d * runs := Nat.zero_le _
      nlinarith
    omega
  · rintro rfl; omega

/-- The runs fill the steps from `step` on, each with the palette entry of its index. -/
theorem runValues_spec (pal : Vector F32 32) : ∀ (l : List Nat) (step : Nat), l ≠ [] → l.length + step ≤ 32 →
    (runValues pal l step).length + step = 32 ∧
    (∀ v, v ∈ runValues pal l step ↔ ∃ i ∈ l, v = pal.toList.getD i .zero) := by
  intro l
  induction l with
  | nil => intro _ h; exact absurd rfl h
  | cons i rest ih =>
    intro step _ hlen
    rw [List.length_cons] at hlen
    have e32 : cfg.seqSteps = 32 := rfl
    obtain ⟨r1, r2, r3⟩ := runLength_spec (steps := 32 - step) (runs := rest.length) (by omega)
    simp only [runValues, e32]
    generalize runLength (32 - step) (rest.length + 1) = len at *
    rcases rest with _ | ⟨j, tl⟩
    · have := r3 rfl
      constructor
      · simp [runValues]; omega
      · intro v; simp [runValues]; omega
    · obtain ⟨a, b⟩ := ih (step + len) (by simp) (by omega)
      refine ⟨by simp only [List.length_append, List.length_replicate]; omega, ?_⟩
      intro v
      rw [List.mem_append, b v, List.mem_replicate, List.exists_mem_cons_iff (a := i)]
      constructor
      · rintro (⟨_, h⟩ | h)
        · exact .inl h
        · exact .inr h
      · rintro (h | h)
        · exact .inl ⟨by omega, h⟩
        · exact .inr h

/-- Exchanging two entries permutes. -/
theorem swapAt_perm {l : List Nat} {i j : Nat} (hi : i < l.length) (hj : j < l.length) : (swapAt l i j).Perm l := by
  unfold swapAt
  have e1 : l.getD j 0 = l[j] := by simp [List.getD, hj]
  have e2 : l.getD i 0 = l[i] := by simp [List.getD, hi]
  rw [e1, e2]
  exact List.set_set_perm hi hj

/-- Exchanging two entries, entry by entry. -/
theorem swapAt_getElem? {l : List Nat} {k j : Nat} (m : Nat) (hk : k < l.length) (hj : j < l.length) :
    (swapAt l k j)[m]? = if m = k then l[j]? else if m = j then l[k]? else l[m]? := by
  have e1 : l.getD j 0 = l[j] := by simp [List.getD, hj]
  have e2 : l.getD k 0 = l[k] := by simp [List.getD, hk]
  simp only [swapAt, e1, e2, List.getElem?_set, List.length_set, hk, hj, if_true]
  rcases eq_or_ne m k with rfl | h1
  · rcases eq_or_ne j m with rfl | h2 <;> simp [*]
  · rcases eq_or_ne m j with rfl | h2 <;> simp [*, Ne.symm]

/-- The shuffle permutes. -/
theorem shuffleDown_perm : ∀ (k : Nat) (st : BitVec 32) (l : List Nat), k < l.length ∨ l = [] →
    (shuffleDown k st l).Perm l := by
  intro k
  induction k with
  | zero => intro _ _ _; exact .refl _
  | succ k ih =>
    intro st l h
    rcases h with h | rfl
    · have hp : (swapAt l (k + 1) (top24 (xorshift st) % (k + 2))).Perm l :=
        swapAt_perm h (lt_of_lt_of_le (Nat.mod_lt _ (by omega)) (by omega))
      simp only [shuffleDown]
      exact (ih _ _ (.inl (by rw [hp.length_eq]; omega))).trans hp
    · simp only [shuffleDown]
      have : swapAt [] (k + 1) (top24 (xorshift st) % (k + 2)) = [] := by simp [swapAt]
      rw [this]
      exact ih _ _ (.inr rfl)

/-- An insertion adds its value. -/
theorem insertFromTop_perm (v : F32) (l : List F32) : (insertFromTop v l).Perm (v :: l) := by
  induction l with
  | nil => exact .refl _
  | cons x xs ih =>
    simp only [insertFromTop]
    split
    · exact (List.Perm.cons x ih).trans (.swap _ _ _)
    · exact .refl _

/-- Where an insertion puts its value: past every entry it is below, before the first it is not below. -/
theorem insertFromTop_split (v : F32) (l : List F32) : ∃ above below, l = above ++ below ∧
    insertFromTop v l = above ++ v :: below ∧ (∀ x ∈ above, v.lt x = true) ∧
    ∀ x, below.head? = some x → v.lt x = false := by
  induction l with
  | nil => exact ⟨[], [], rfl, rfl, by simp, by simp⟩
  | cons x xs ih =>
    simp only [insertFromTop]
    rcases h : v.lt x with _ | _
    · exact ⟨[], x :: xs, rfl, by simp, by simp, by simp [h]⟩
    · obtain ⟨a, b, h1, h2, h3, h4⟩ := ih
      refine ⟨x :: a, b, by rw [h1]; rfl, by simp [h2], ?_, h4⟩
      intro y hy
      rcases List.mem_cons.1 hy with rfl | hy
      · exact h
      · exact h3 y hy

/-- Insertions add their values. -/
theorem foldl_insert_perm (vs p : List F32) : (vs.foldl (fun p v => insertFromTop v p) p).Perm (vs ++ p) := by
  induction vs generalizing p with
  | nil => exact .refl _
  | cons v vs ih =>
    refine (ih _).trans ?_
    exact ((insertFromTop_perm v p).append_left vs).trans List.perm_middle

/-- An insertion of a number keeps the descending order. -/
theorem insertFromTop_sorted (v : F32) (l : List F32) (hv : v.isNaN = false) (hl : ∀ x ∈ l, x.isNaN = false)
    (hs : l.Pairwise fun a b => b.le a = true) : (insertFromTop v l).Pairwise fun a b => b.le a = true := by
  induction l with
  | nil => simp [insertFromTop]
  | cons x xs ih =>
    rw [List.pairwise_cons] at hs
    have hx := hl x (by simp)
    simp only [insertFromTop]
    split
    · rename_i h
      rw [List.pairwise_cons]
      refine ⟨?_, ih (fun y hy => hl y (by simp [hy])) hs.2⟩
      intro y hy
      rcases List.mem_cons.1 ((insertFromTop_perm v xs).mem_iff.1 hy) with rfl | hy
      · rw [F32.lt_iff] at h; rw [F32.le_iff]; exact ⟨h.1, h.2.1, h.2.2.le⟩
      · exact hs.1 y hy
    · rename_i h
      rw [Bool.not_eq_true, F32.lt_eq_false_iff hv hx] at h
      rw [List.pairwise_cons]
      refine ⟨?_, List.pairwise_cons.2 hs⟩
      intro y hy
      rcases List.mem_cons.1 hy with rfl | hy
      · exact h
      · exact F32.le_trans (hs.1 y hy) h

/-- A word xored with itself shifted left determines the word, from the low bits up. -/
theorem xor_shl_injective {w k : Nat} (hk : 0 < k) : Function.Injective fun x : BitVec w => x ^^^ (x <<< k) := by
  intro x y h
  apply BitVec.eq_of_getLsbD_eq
  intro i hi
  induction i using Nat.strong_induction_on with
  | _ i ih =>
    have hb := congrArg (fun v => v.getLsbD i) h
    simp only [BitVec.getLsbD_xor, BitVec.getLsbD_shiftLeft, hi, decide_true, Bool.true_and] at hb
    by_cases hik : i < k
    · simpa [hik] using hb
    · rw [ih (i - k) (by omega) (by omega)] at hb
      simpa using hb

/-- A word xored with itself shifted right determines the word, from the high bits down. -/
theorem xor_shr_injective {w k : Nat} (hk : 0 < k) : Function.Injective fun x : BitVec w => x ^^^ (x >>> k) := by
  intro x y h
  have key : ∀ n i, w - i = n → x.getLsbD i = y.getLsbD i := by
    intro n
    induction n using Nat.strong_induction_on with
    | _ n ih =>
      intro i hn
      by_cases hi : i < w
      · have hb := congrArg (fun v => v.getLsbD i) h
        simp only [BitVec.getLsbD_xor, BitVec.getLsbD_ushiftRight] at hb
        rw [ih (w - (k + i)) (by omega) (k + i) rfl] at hb
        simpa using hb
      · rw [BitVec.getLsbD_of_ge _ _ (by omega), BitVec.getLsbD_of_ge _ _ (by omega)]
  exact BitVec.eq_of_getLsbD_eq fun i _ => key _ i rfl

/-- A sum of distinct powers of two has the bits it was made from, and no others. -/
theorem testBit_sum_pow (b : Nat → Bool) (n : Nat) :
    ((List.range n).map fun i => if b i then 2 ^ i else 0).sum < 2 ^ n ∧
    ∀ k, k < n → ((List.range n).map fun i => if b i then 2 ^ i else 0).sum.testBit k = b k := by
  induction n with
  | zero => simp
  | succ n ih =>
    rw [List.range_succ, List.map_append, List.sum_append]
    simp only [List.map_cons, List.map_nil, List.sum_cons, List.sum_nil, Nat.add_zero]
    generalize ((List.range n).map fun i => if b i then 2 ^ i else 0).sum = m at *
    obtain ⟨h1, h2⟩ := ih
    have hp : 2 ^ (n + 1) = 2 ^ n + 2 ^ n := by ring
    constructor
    · split <;> omega
    · intro k hk
      cases hb : b n
      · simp only [Bool.false_eq_true, if_false, Nat.add_zero]
        rcases Nat.lt_succ_iff_lt_or_eq.1 hk with h | rfl
        · exact h2 k h
        · rw [hb]; exact Nat.testBit_lt_two_pow h1
      · simp only [if_true]
        rcases Nat.lt_succ_iff_lt_or_eq.1 hk with h | rfl
        · rw [Nat.add_comm, Nat.testBit_two_pow_add_gt h]; exact h2 k h
        · rw [hb, Nat.add_comm, Nat.testBit_two_pow_add_eq, Nat.testBit_lt_two_pow h1]; rfl

end Sys2Proof.Machine
end

