-- ==== Sys2Proof/Tests/Slice0.lean ====
section
/-! SUPPORT. Tests. Expected values are the spec's: the encoding table and the examples of 30_encoding.md, and the vectors of
95_test_vectors.md that hold for every numerics record. The theorems named `witness_…` show, for each obligation with
hypotheses, states and operands that meet them, one for each clause. -/

namespace Sys2Proof.Tests
open Sys2Proof.Machine

set_option Elab.async false

/-! ### Helpers -/

/-- A datum by its pattern. -/
abbrev f (w : BitVec 32) : F32 := ⟨w⟩

/-- All six units initialised at 48 kHz and running: increments of one quarter, envelopes triggered. -/
def ready : State :=
  { State.reset with
    osc := { init := true, fs := f 0x473B8000#32, freq := f 0x463B8000#32, inc := f 0x3E800000#32, wave := .ramp,
             phase := .zero, last := .zero, eoc := false, eor := false }
    lad := { init := true, fs := f 0x473B8000#32, fc := f 0x447A0000#32, res := .zero, k := .zero,
             alpha := f 0x3D02B777#32, qadj := f 0x3F80FAC1#32, mode := .lp24, z0 := .replicate 4 .zero,
             z1 := .replicate 4 .zero, oldin := .zero }
    envx := { init := true, fs := f 0x473B8000#32, value := .one, coef := half, dir := false, hold := false }
    envl := { init := true, fs := f 0x473B8000#32, value := .one, rate := quarter }
    seq := regenGates (regenPalCv (seqDefaults State.reset.seq))
    met := { init := true, fs := f 0x473B8000#32, freq := f 0x463B8000#32, inc := f 0x3E800000#32, phase := .zero,
             tick := false } }

/-- `ready` with another oscillator phase, increment and waveform. -/
def oscAt (p inc : BitVec 32) (w : Wave) : State :=
  { ready with osc := { ready.osc with phase := f p, inc := f inc, wave := w } }

/-- `ready` with another metronome phase and increment. -/
def metAt (p inc : BitVec 32) : State := { ready with met := { ready.met with phase := f p, inc := f inc } }

/-- `ready` with a host event waiting. -/
def waiting (e : HostEvent) : State := { ready with port := { ready.port with inbox := [e] } }

/-- The response to a command word. -/
def answerTo (s : State) (w : CmdWord) : Option RspWord :=
  match stepOnWord s w with
  | .next t => t.port.rsp
  | _ => none

/-- The metronome after a command word. -/
def metAfter (s : State) (w : CmdWord) : MetState :=
  match stepOnWord s w with
  | .next t => t.met
  | _ => s.met

/-- A response without a stop. -/
def goesOn (r : StepResult) : Bool :=
  match r with
  | .next _ => true
  | _ => false

/-! ### WellFormed: an ill-formed word for each check -/

theorem test_reserved_opcode_refused :
    opcodeListed 0x1500000000000000#64 = false ∧ wellFormed 0x1500000000000000#64 = false ∧
    wellFormed 0x0200000000000000#64 = false ∧ wellFormed 0x4200000000000000#64 = false ∧
    wellFormed 0x6300000000000000#64 = false ∧ wellFormed 0x7000000000000000#64 = false := by decide

theorem test_reserved_field_refused :
    reservedClear 0x1000000100000000#64 = false ∧ wellFormed 0x1000000100000000#64 = false ∧
    wellFormed 0x1080000047BB8000#64 = false ∧ wellFormed 0x0100000100000000#64 = false := by decide

theorem test_stray_operand_refused :
    operandClear 0x1400000000000001#64 = false ∧ wellFormed 0x1400000000000001#64 = false ∧
    wellFormed 0x0000000000000001#64 = false ∧ wellFormed 0x5000000000000020#64 = false := by decide

theorem test_well_formed_accepted :
    wellFormed 0x0000000000000000#64 = true ∧ wellFormed 0x100000007FC00000#64 = true ∧
    wellFormed 0x51000000FFFFFFFF#64 = true := by decide

/-! ### Decode: the word of every command, from the table of 30_encoding.md R80 -/

theorem test_decode_global :
    decode 0x0000000000000000#64 = .ok .nop ∧ decode 0x0100000000000000#64 = .ok .getStatus := ⟨rfl, rfl⟩

theorem test_decode_osc :
    decode 0x10000000473B8000#64 = .ok (.oscInit ⟨0x473B8000#32⟩) ∧
    decode 0x11000000463B8000#64 = .ok (.oscSetFreq ⟨0x463B8000#32⟩) ∧
    decode 0x1200000000000006#64 = .ok (.oscSetWave 6#32) ∧
    decode 0x13000000BF000000#64 = .ok (.oscPhaseAdd ⟨0xBF000000#32⟩) ∧
    decode 0x1400000000000000#64 = .ok .oscProcess := ⟨rfl, rfl, rfl, rfl, rfl⟩

theorem test_decode_lad :
    decode 0x20000000473B8000#64 = .ok (.ladInit ⟨0x473B8000#32⟩) ∧
    decode 0x2100000046EA6000#64 = .ok (.ladSetFreq ⟨0x46EA6000#32⟩) ∧
    decode 0x220000003F666666#64 = .ok (.ladSetRes ⟨0x3F666666#32⟩) ∧
    decode 0x23000000FFFFFFFF#64 = .ok (.ladSetMode 0xFFFFFFFF#32) ∧
    decode 0x240000003F000000#64 = .ok (.ladProcess ⟨0x3F000000#32⟩) := ⟨rfl, rfl, rfl, rfl, rfl⟩

theorem test_decode_envx :
    decode 0x3000000040800000#64 = .ok (.envxInit ⟨0x40800000#32⟩) ∧
    decode 0x31000000BF000000#64 = .ok (.envxSetCtl ⟨0xBF000000#32⟩) ∧
    decode 0x320000003F466666#64 = .ok (.envxSetKnob ⟨0x3F466666#32⟩) ∧
    decode 0x3300000000000000#64 = .ok .envxTrigger ∧
    decode 0x3400000000000000#64 = .ok .envxProcess := ⟨rfl, rfl, rfl, rfl, rfl⟩

theorem test_decode_envl :
    decode 0x4000000040800000#64 = .ok (.envlInit ⟨0x40800000#32⟩) ∧
    decode 0x410000003E800000#64 = .ok (.envlSetTime ⟨0x3E800000#32⟩) ∧
    decode 0x4300000000000000#64 = .ok .envlTrigger ∧
    decode 0x4400000000000000#64 = .ok .envlProcess := ⟨rfl, rfl, rfl, rfl⟩

theorem test_decode_seq :
    decode 0x5000000000000000#64 = .ok .seqInit ∧
    decode 0x5100000000000063#64 = .ok (.seqSetLen 0x63#32) ∧
    decode 0x5200000000000004#64 = .ok (.seqSetComplexity 4#32) ∧
    decode 0x530000003E99999A#64 = .ok (.seqSetDensity ⟨0x3E99999A#32⟩) ∧
    decode 0x5400000000000000#64 = .ok .seqProcess ∧
    decode 0x550000003E800000#64 = .ok (.seqSetSpread ⟨0x3E800000#32⟩) ∧
    decode 0x560000003F028F5C#64 = .ok (.seqSetBias ⟨0x3F028F5C#32⟩) ∧
    decode 0x570000000000002A#64 = .ok (.seqSetCvSeed 0x2A#32) ∧
    decode 0x58000000FFFFFFFF#64 = .ok (.seqSetPalSeed 0xFFFFFFFF#32) ∧
    decode 0x5900000000000000#64 = .ok .seqRegenCv ∧
    decode 0x5A0000000000001F#64 = .ok (.seqReadCv 31#32) ∧
    decode 0x5B00000000000000#64 = .ok .seqReadGates := ⟨rfl, rfl, rfl, rfl, rfl, rfl, rfl, rfl, rfl, rfl, rfl, rfl⟩

theorem test_decode_met :
    decode 0x6000000041000000#64 = .ok (.metInit ⟨0x41000000#32⟩) ∧
    decode 0x6100000042C80000#64 = .ok (.metSetFreq ⟨0x42C80000#32⟩) ∧
    decode 0x6200000000000000#64 = .ok .metReset ∧
    decode 0x6400000000000000#64 = .ok .metProcess ∧
    decode 0x6500000000000000#64 = .ok .metGetPhase := ⟨rfl, rfl, rfl, rfl, rfl⟩

/-- The encoder, on words of the same table; and the host's two entries to the decoder and the port. -/
theorem test_encode_and_host_entry :
    encode (.oscInit ⟨0x473B8000#32⟩) = 0x10000000473B8000#64 ∧ encode (.seqReadCv 31#32) = 0x5A0000000000001F#64 ∧
    encode .metGetPhase = 0x6500000000000000#64 ∧
    decodeTableWord 64 0x5A0000000000001F = some (.seqReadCv 31#32) ∧ decodeTableWord 64 0x1500000000000000 = none ∧
    (State.reset.withFetchWord 64 0x6500000000000000).port.inbox = [.command 0x6500000000000000#64] :=
  ⟨rfl, rfl, rfl, rfl, rfl, rfl⟩

/-! ### The parameter table (00_scope.md R9), and the arithmetic that it says makes the values -/

theorem test_parameter_table_shapes :
    cfg.seqSteps = 32 ∧ cfg.seqLenMin = 1 ∧ cfg.seqLenMax = 32 ∧ cfg.seqCpxMin = 1 ∧ cfg.seqCpxMax = 32 ∧
    cfg.ladOs = 4 ∧ cfg.ladStages = 4 ∧ cfg.prngMix = 0x9E3779B9#32 ∧ cfg.prngWarmup = 4 := by decide

theorem test_parameter_table_decided :
    cfg.seqBiasSteps = F32.ofInt 25 ∧ cfg.seqSigma = (F32.ofInt 1).div (F32.ofInt 5) ∧
    cfg.ladResMax = (F32.ofInt 18).div (F32.ofInt 10) ∧ cfg.ladKMax = F32.ofInt 4 ∧ cfg.ladFcMin = F32.ofInt 5 ∧
    cfg.ladFcMaxRatio = (F32.ofInt 425).div (F32.ofInt 1000) ∧ cfg.envxLogTarget = (F32.ofInt 21).div (F32.ofInt 2) ∧
    cfg.envxTMax = F32.ofInt 20 ∧ cfg.envxZoneLo = (F32.ofInt 45).div (F32.ofInt 100) ∧
    cfg.envxZoneHi = (F32.ofInt 55).div (F32.ofInt 100) ∧ cfg.envxHoldLevel = F32.one.div (F32.ofInt 2) ∧
    cfg.oscPw = F32.one.div (F32.ofInt 2) ∧ cfg.ladFcInit = F32.ofInt 1000 ∧
    cfg.metFMaxRatio = F32.one.div (F32.ofInt 2) ∧ cfg.fsMin = F32.ofInt 1 := by decide +kernel

theorem test_parameter_table_general_knowledge :
    cfg.oscPbSqGain = (F32.ofInt 707).div (F32.ofInt 1000) ∧ cfg.oscPbTriGain = F32.ofInt 4 ∧
    cfg.ladC1 = F32.one.div ((F32.ofInt 13).div (F32.ofInt 10)) ∧
    cfg.ladC2 = ((F32.ofInt 3).div (F32.ofInt 10)).div ((F32.ofInt 13).div (F32.ofInt 10)) ∧
    cfg.ladA1 = (F32.ofInt 9892).div (F32.ofInt 10000) ∧ cfg.ladA2 = (F32.ofInt 4324).div (F32.ofInt 10000) ∧
    cfg.ladA3 = (F32.ofInt 1381).div (F32.ofInt 10000) ∧ cfg.ladA4 = (F32.ofInt 202).div (F32.ofInt 10000) ∧
    cfg.ladQ0 = (F32.ofInt 1006).div (F32.ofInt 1000) ∧ cfg.ladQ1 = (F32.ofInt 536).div (F32.ofInt 10000) ∧
    cfg.ladQ2 = (F32.ofInt 95).div (F32.ofInt 1000) ∧ cfg.ladQ4 = (F32.ofInt 5).div (F32.ofInt 100) := by decide +kernel

/-! ### Steps: words and responses of 95_test_vectors.md -/

/-- Section 2.1, from reset. -/
theorem test_reset_answers :
    answerTo .reset 0x0000000000000000#64 = some 0x0000000000000000#64 ∧
    answerTo .reset 0x0100000000000000#64 = some 0x0100000000000000#64 ∧
    answerTo .reset 0x1400000000000000#64 = some 0x1402800000000000#64 ∧
    answerTo .reset 0x5B00000000000000#64 = some 0x5B02800000000000#64 ∧
    answerTo .reset 0xFFFFFFFFFFFFFFFF#64 = some 0xFF01800000000000#64 := by decide +kernel

/-- Section 2.3: `BADARG` and the order of tests. -/
theorem test_bad_arg_and_order :
    answerTo .reset 0x110000007FC00000#64 = some 0x1102800000000000#64 ∧
    answerTo .reset 0x100000007F800000#64 = some 0x1003800000000000#64 ∧
    answerTo .reset 0x100000003F7FFFFF#64 = some 0x1003800000000000#64 ∧
    answerTo .reset 0x100000003F800000#64 = some 0x100000003F800000#64 ∧
    answerTo ready 0x5A00000000000020#64 = some 0x5A03800000000000#64 := by decide +kernel

/-- Section 3.1, the second sample of each waveform without a sine: phase 0.25, increment 0.25, and `EOR`. -/
theorem test_osc_process_waves :
    answerTo (oscAt 0x3E800000#32 0x3E800000#32 .tri) 0x1400000000000000#64 = some 0x1400020000000000#64 ∧
    answerTo (oscAt 0x3E800000#32 0x3E800000#32 .saw) 0x1400000000000000#64 = some 0x140002003F000000#64 ∧
    answerTo (oscAt 0x3E800000#32 0x3E800000#32 .ramp) 0x1400000000000000#64 = some 0x14000200BF000000#64 ∧
    answerTo (oscAt 0x3E800000#32 0x3E800000#32 .square) 0x1400000000000000#64 = some 0x140002003F800000#64 ∧
    answerTo (oscAt 0x3E800000#32 0x3E800000#32 .pbTri) 0x1400000000000000#64 = some 0x140002003F800000#64 ∧
    answerTo (oscAt 0x3E800000#32 0x3E800000#32 .pbSaw) 0x1400000000000000#64 = some 0x140002003F000000#64 ∧
    answerTo (oscAt 0x3E800000#32 0x3E800000#32 .pbSquare) 0x1400000000000000#64 = some 0x140002003F34FDF4#64 := by
  decide +kernel

/-- Section 3.3: a negative increment ends a cycle; an increment of 2 sets both flags. -/
theorem test_osc_process_flags :
    answerTo (oscAt 0x00000000#32 0xBE800000#32 .ramp) 0x1400000000000000#64 = some 0x14000100BF800000#64 ∧
    answerTo (oscAt 0x3F400000#32 0x40000000#32 .ramp) 0x1400000000000000#64 = some 0x140003003F000000#64 := by
  decide +kernel

/-- Sections 2.4 and 3.3: the setters of `OSC`. -/
theorem test_osc_setters :
    answerTo ready 0x11000000C63B8000#64 = some 0x11000000BE800000#64 ∧
    answerTo ready 0x1200000000000009#64 = some 0x1200000000000007#64 ∧
    answerTo (oscAt 0x3F000000#32 0 .saw) 0x1300000040300000#64 = some 0x130000003E800000#64 ∧
    answerTo (oscAt 0x00000000#32 0 .saw) 0x13000000AEDBE6FF#64 = some 0x1300000000000000#64 ∧
    answerTo (oscAt 0x00000000#32 0 .saw) 0x13000000B3800000#64 = some 0x130000003F7FFFFF#64 := by decide +kernel

/-- Section 4.1: the cutoff clamp, and the table of coefficients. -/
theorem test_lad_cutoff :
    answerTo ready 0x210000003F800000#64 = some 0x2100000040A00000#64 ∧
    answerTo ready 0x2100000046EA6000#64 = some 0x21000000469F6000#64 ∧
    fcClamp (f 0x42C80000#32) (f 0x41000000#32) = f 0x40A00000#32 ∧
    ladAlpha (f 0x447A0000#32) (f 0x473B8000#32) = f 0x3D02B777#32 ∧
    ladQadj (f 0x447A0000#32) (f 0x473B8000#32) = f 0x3F80FAC1#32 ∧
    ladAlpha (f 0x469F6000#32) (f 0x473B8000#32) = f 0x3F0136FB#32 ∧
    ladQadj (f 0x469F6000#32) (f 0x473B8000#32) = f 0x3F7D50AF#32 := by decide +kernel

/-- Section 4.2: resonance and mode. -/
theorem test_lad_resonance_and_mode :
    answerTo ready 0x220000003F666666#64 = some 0x2200000040000000#64 ∧
    answerTo ready 0x2200000040A00000#64 = some 0x2200000040800000#64 ∧
    answerTo ready 0x2200000080000000#64 = some 0x2200000080000000#64 ∧
    answerTo ready 0x2300000000000006#64 = some 0x2300000000000005#64 ∧
    answerTo .reset 0x20000000473B8000#64 = some 0x20000000473B8000#64 := by decide +kernel

/-- The mix of 41_ladder_filter.md R127, by hand at `u = 1`, `s1 = 1/2`, `s2 = 1/4` and the like. -/
theorem test_lad_mix :
    mixTaps .bp12 .one half quarter .zero .zero = half ∧
    mixTaps .hp12 .one half quarter .zero .zero = quarter ∧
    mixTaps .bp24 .one half quarter half quarter = f 0xC0000000#32 ∧
    mixTaps .hp24 .one half quarter half quarter = f 0xBFA00000#32 := by decide +kernel

/-- Section 4.4: a `-0.0` sample into a filter at rest gives the node `+0.0` at full resonance, by `P_TANH0`. -/
theorem test_lad_zero_node :
    inputNode { ready.lad with k := f 0x40800000#32 } .negZero .zero = .zero ∧
    stageOut ready.lad .zero 0 = .zero := by
  refine ⟨?_, by decide +kernel⟩
  exact (congrArg Config.num.tanh (by decide +kernel)).trans Config.num.tanh_zero

/-- Section 5.2: a zero control falls to the floor of one sample, whatever the exponent; 5.3: the zone's bounds. -/
theorem test_envx_floor :
    envxCoef .zero (f 0x40800000#32) = Config.num.exp (f 0xC1280000#32) ∧ envxDir .negZero = false := by
  refine ⟨?_, by decide⟩
  have h : Config.num.pow (ctlClamp .zero).abs cfg.envxTimeExp = .zero :=
    Config.num.pow_zero _ Config.timeExp.property.1 Config.timeExp.property.2
  unfold envxCoef envxTime
  rw [h]
  exact congrArg _ (by decide +kernel)

theorem test_envx_knob_zone :
    answerTo ready 0x320000003EE66666#64 = some 0x320010003F000000#64 ∧
    answerTo ready 0x320000003F0CCCCD#64 = some 0x320010003F000000#64 ∧
    holdOf (f 0x3EE66665#32) = false ∧ holdOf (f 0x3F0CCCCE#32) = false := by decide +kernel

/-- Section 5.1, with a coefficient of one half in place of `EXP`'s value; 5.3: the held level. -/
theorem test_envx_process :
    answerTo ready 0x3400000000000000#64 = some 0x340000003F000000#64 ∧
    answerTo { ready with envx := { ready.envx with dir := true, coef := quarter } } 0x3400000000000000#64 =
      some 0x340000003F400000#64 ∧
    answerTo { ready with envx := { ready.envx with hold := true, coef := quarter } } 0x3400000000000000#64 =
      some 0x340010003F000000#64 ∧
    answerTo .reset 0x3000000040800000#64 = some 0x3000000040800000#64 ∧
    answerTo ready 0x3300000000000000#64 = some 0x330000003F800000#64 := by decide +kernel

/-- Section 6: the largest time gives rate `+0.0`, by `P_EXP0`. -/
theorem test_envl_longest_time : envlRate (f 0x7F7FFFFF#32) (f 0x40800000#32) = .zero := by
  have h : Config.num.exp (minusOne.div ((f 0x40800000#32).mul (f 0x7F7FFFFF#32))) = .one := Config.num.exp_negZero
  have e : (f 0x7F7FFFFF#32).lt (F32.one.div (f 0x40800000#32)) = false := by decide +kernel
  simp only [envlRate, e, Bool.false_eq_true, if_false, h]
  decide +kernel

/-- Section 6: the subtraction, the floor at `+0.0`, and the trigger. -/
theorem test_envl_process :
    answerTo ready 0x4400000000000000#64 = some 0x440000003F400000#64 ∧
    answerTo { ready with envl := { ready.envl with value := f 0x3DEBEFA0#32, rate := f 0x3E62820C#32 } }
      0x4400000000000000#64 = some 0x4400000000000000#64 ∧
    answerTo ready 0x4300000000000000#64 = some 0x430000003F800000#64 ∧
    answerTo ready 0x4000000040800000#64 = some 0x4000000040800000#64 := by decide +kernel

/-- Section 7.1: bias quantisation; section 7.5: lengths. -/
theorem test_seq_setters :
    answerTo ready 0x560000003F000000#64 = some 0x560000003F051EB8#64 ∧
    answerTo ready 0x560000003CA3D70A#64 = some 0x560000003D23D70A#64 ∧
    answerTo ready 0x5100000000000000#64 = some 0x5100000000000001#64 ∧
    answerTo ready 0x5100000000000063#64 = some 0x5100000000000020#64 ∧
    answerTo ready 0x5200000000000004#64 = some 0x5200000000000004#64 ∧
    answerTo ready 0x530000003E99999A#64 = some 0x530000003E99999A#64 := by decide +kernel

/-- Section 7.1: seeds and the first outputs of the generator; section 7.3: the first two uniform numbers. -/
theorem test_seq_generator :
    seedState 0x2A#32 = 0xD8F36B75#32 ∧ seedState 0x9E3779B9#32 = 0x0183A8B5#32 ∧
    xorshift 0x0183A8B5#32 = 0xE6336D1F#32 ∧ xorshift 0xE6336D1F#32 = 0xF989D237#32 ∧
    uniform1 0xE6336D1F#32 = f 0x3F66336E#32 ∧ uniform2 0xF989D237#32 = f 0x3F7989D2#32 := by decide +kernel

/-- Section 7.2: gates. -/
theorem test_seq_gates :
    gateMask (vectorOf 32 false (gatesOf (f 0x3DCCCCCD#32))) = 0x00200801#32 ∧
    gateMask (vectorOf 32 false (gatesOf (f 0x3F333333#32))) = 0xB6DBB6DB#32 ∧
    gateMask (vectorOf 32 false (gatesOf (f 0x3F7C0000#32))) = 0xFFFFFFFF#32 := by decide +kernel

/-- Section 7.3: the sort of the four draws; section 7.4: run counts, order and lengths. -/
theorem test_seq_runs :
    sortAscending [f 0x3F1C6C50#32, f 0x3F2DE1B2#32, f 0x3EF21734#32, f 0x3F7092F6#32] =
      [f 0x3EF21734#32, f 0x3F1C6C50#32, f 0x3F2DE1B2#32, f 0x3F7092F6#32] ∧
    totalRuns 4 quarter = 11 ∧ shuffledRuns 11 4 0#32 = [3, 2, 0, 2, 1, 3, 0, 1, 1, 2, 0] ∧
    shuffledRuns 4 4 1#32 = [3, 0, 1, 2] ∧ runLength 32 11 = 3 ∧ runLength 2 1 = 2 ∧ runLength 32 18 = 2 := by
  decide +kernel

/-- Section 7.5: the step under the cursor, and the wrap of the cursor at the length. -/
theorem test_seq_process :
    answerTo { ready with seq := { ready.seq with
      len := 3, cur := 2, cv := .replicate 32 (f 0x3EF21734#32), gate := .replicate 32 true } } 0x5400000000000000#64 =
      some 0x540008003EF21734#64 ∧
    (match execSeqProcess { ready with seq := { ready.seq with len := 3, cur := 2 } } with
      | .next t => t.seq.cur
      | _ => 31) = 0 := by decide +kernel

/-- Section 8.1: the tick and the remainder, the clamp at half the rate; section 8.2: a subnormal frequency. -/
theorem test_met :
    answerTo (metAt 0x3F400000#32 0x3E800000#32) 0x6400000000000000#64 = some 0x6400040000000001#64 ∧
    (metAfter (metAt 0x3F400000#32 0x3EC00000#32) 0x6400000000000000#64).phase = f 0x3E000000#32 ∧
    answerTo ready 0x6100000047BB8000#64 = some 0x610000003F000000#64 ∧
    answerTo ready 0x6100000000000001#64 = some 0x6100000000000000#64 ∧
    answerTo ready 0x6100000040800000#64 = some 0x6100000038AEC33E#64 := by decide +kernel

/-- Section 8.1: the phase read, and the reset of the phase alone. -/
theorem test_met_phase :
    answerTo (metAt 0x3F000000#32 0x3E800000#32) 0x6500000000000000#64 = some 0x650000003F000000#64 ∧
    (metAfter (metAt 0x3F000000#32 0x3E800000#32) 0x6200000000000000#64).phase = .zero ∧
    answerTo .reset 0x6000000041000000#64 = some 0x6000000041000000#64 := by decide +kernel

/-- 70_reset_and_hazards.md R241: `rst` in the middle of a command resets and answers nothing. -/
theorem test_rst :
    (match step (waiting (.reset (some 0x1400000000000000#64))) with
      | .next t => some (t.met, t.port)
      | _ => none) = some (State.reset.met, State.reset.port) := by decide +kernel

/-! ### Witnesses: for each obligation with hypotheses, instances that meet them -/

theorem witness_EncodeInvertsDecode :
    decode 0x5A0000000000001F#64 = .ok (.seqReadCv 31#32) ∧ decode 0x0000000000000000#64 = .ok .nop := ⟨rfl, rfl⟩

theorem witness_DecodePredicates :
    operandTypeOf .oscProcess = .none ∧ decode 0x1400000000000000#64 = .ok .oscProcess ∧
    (CmdWord.op 0x1400000000000001#64 = opcodeOf .oscProcess ∧ CmdWord.rsv 0x1400000000000001#64 = 0#24 ∧
      CmdWord.arg 0x1400000000000001#64 ≠ 0#32) ∧
    operandTypeOf (.oscSetWave 7#32) ≠ .none ∧ decode 0x1200000000000007#64 = .ok (.oscSetWave 7#32) := by decide

theorem witness_StepRunsDecodedCommand :
    (waiting (.command 0x6400000000000000#64)).port.inbox = .command 0x6400000000000000#64 :: [] ∧
    decode 0x6400000000000000#64 = .ok .metProcess := ⟨rfl, rfl⟩

/-- The three causes of `BADCMD`, each alone, at the smallest violation. -/
theorem witness_MalformedWordAnswersBadCmd :
    CmdWord.op 0x0200000000000000#64 ∉ noneOpcodes ++ f32Opcodes ++ u32Opcodes ∧
    CmdWord.rsv 0x1000000100000000#64 ≠ 0#24 ∧
    (CmdWord.op 0x1400000000000001#64 ∈ noneOpcodes ∧ CmdWord.arg 0x1400000000000001#64 ≠ 0#32) ∧
    answerTo ready 0x0200000000000000#64 = some 0x0201800000000000#64 := by decide +kernel

/-- Each of the four codes is an outcome; the index 31 is the last accepted. -/
theorem witness_OrderOfTests :
    outcomeOf ready 0x5A0000000000001F#64 = 0x00 ∧ outcomeOf ready 0x1500000000000000#64 = 0x01 ∧
    outcomeOf .reset 0x110000007FC00000#64 = 0x02 ∧ outcomeOf ready 0x5A00000000000020#64 = 0x03 ∧
    outcomeOf .reset 0x100000003F7FFFFF#64 = 0x03 ∧ outcomeOf .reset 0x100000003F800000#64 = 0x00 := by decide +kernel

/-- An accepted word and each of the three refusals. -/
theorem witness_RefusalChangesOnlyErr :
    (answerTo ready 0x6400000000000000#64).map rspCode = some 0x00 ∧
    (answerTo ready 0x6400000000000001#64).map rspCode = some 0x01 ∧
    (answerTo .reset 0x6400000000000000#64).map rspCode = some 0x02 ∧
    (answerTo ready 0x610000007F800000#64).map rspCode = some 0x03 := by decide +kernel

theorem witness_ErrBitIsSticky :
    (∃ t r, stepOnWord .reset 0xFF00000000000000#64 = .next t ∧ t.port.rsp = some r ∧ rspCode r ≠ 0x00) ∧
    (∃ t r, stepOnWord .reset 0x0000000000000000#64 = .next t ∧ t.port.rsp = some r ∧ rspCode r = 0x00) ∧
    (({ ready with err := true } : State).err = true ∧
      (∀ c rest, ({ ready with err := true } : State).port.inbox ≠ .reset c :: rest) ∧
      ∃ t, step { ready with err := true } = .next t) ∧
    (waiting (.reset none)).port.inbox = .reset none :: [] ∧
    (ready.err = false ∧ ∃ t, runWords ready [0x6400000000000000#64, 0xFF00000000000000#64] = .next t) :=
  ⟨⟨_, _, rfl, rfl, by decide⟩, ⟨_, _, rfl, rfl, by decide⟩, ⟨rfl, fun _ _ h => (List.cons_ne_nil _ _ h.symm), _, rfl⟩, rfl,
    rfl, _, rfl⟩

theorem witness_ResetState :
    (isInitCommand (.oscInit .one) = true ∧ operandRejected (encode (.oscInit .one)) = false) ∧
    (isInitCommand .seqInit = true ∧ operandRejected (encode .seqInit) = false) ∧
    isInitCommand .oscProcess = false := by decide

theorem witness_ResetAndIdleSteps :
    (waiting (.reset (some 0x1400000000000000#64))).port.inbox = .reset (some 0x1400000000000000#64) :: [] ∧
    ready.port.inbox = [] := ⟨rfl, rfl⟩

theorem witness_InitBitLifecycle :
    UnitId.met ≠ .control ∧ (isInitCommand (.metInit .one) = true ∧ operandRejected (encode (.metInit .one)) = false) ∧
    (ready.initOf .met = true ∧ (∀ c rest, ready.port.inbox ≠ .reset c :: rest) ∧ ∃ t, step ready = .next t) ∧
    ((∃ t, exec .metProcess ready = .next t) ∧ isInitCommand .metProcess = false) ∧
    State.reset.initOf (unitOf .metProcess) = false :=
  ⟨by decide, by decide, ⟨rfl, fun _ _ h => (List.cons_ne_nil _ _ h.symm), _, rfl⟩, ⟨⟨_, rfl⟩, rfl⟩, rfl⟩

theorem witness_CommandsReadOnlyTheirUnit :
    unitOf .metProcess ≠ .control ∧ SameUnit (unitOf .metProcess) ready { ready with lad := State.reset.lad, err := true } ∧
    (∃ t r, exec .metProcess ready = .next t ∧ t.port.rsp = some r) ∧
    ∃ t r, exec .metProcess { ready with lad := State.reset.lad, err := true } = .next t ∧ t.port.rsp = some r :=
  ⟨by decide, rfl, ⟨_, _, rfl, rfl⟩, _, _, rfl, rfl⟩

theorem witness_DifferentUnitsCommute :
    unitOf .metProcess ≠ .control ∧ unitOf (.oscSetFreq .one) ≠ .control ∧
    unitOf .metProcess ≠ unitOf (.oscSetFreq .one) := by decide

theorem witness_SettersAreIdempotent :
    isSetter (.seqSetLen 0#32) = true ∧ isSetter (.metSetFreq .one) = true := by decide

theorem witness_FlagsWrittenOnlyByTheirCommands :
    (∃ t, exec .metProcess ready = .next t) ∧ (∃ t, exec (.envxInit .one) ready = .next t) ∧
    operandRejected (encode (.envxInit .one)) = false ∧ operandRejected (encode (.oscInit .one)) = false ∧
    operandRejected (encode (.metInit .one)) = false ∧ operandRejected (encode .seqInit) = false :=
  ⟨⟨_, rfl⟩, ⟨_, rfl⟩, by decide, by decide, by decide, by decide⟩

theorem witness_StatusAndGlobalCommands :
    (CmdWord.op 0x0000000000000001#64 = 0x00#8 ∧ CmdWord.arg 0x0000000000000001#64 ≠ 0#32) ∧
    (CmdWord.op 0x0100000100000000#64 = 0x01#8 ∧ CmdWord.rsv 0x0100000100000000#64 ≠ 0#24) := by decide

/-- The smallest accepted rate, the largest number below it, and infinity. -/
theorem witness_OscInitResult :
    (F32.one.isFinite = true ∧ F32.one.le .one = true) ∧ F32.one.le (f 0x3F7FFFFF#32) = false ∧
    (f 0x7F800000#32).isFinite = false := by decide

theorem witness_OscSettersResult :
    ready.osc.init = true ∧ (f 0x7F7FFFFF#32).isFinite = true ∧ ¬ 7 < (7#32).toNat ∧ 7 < (8#32).toNat := by decide

/-- The two halves of the cycle at the edge, and every waveform. -/
theorem witness_OscProcessResult :
    (∀ w, (oscAt 0x3F000000#32 0x3E800000#32 w).osc.init = true ∧ (oscAt 0x3F000000#32 0x3E800000#32 w).osc.wave = w) ∧
    half.lt half = false ∧ (f 0x3EFFFFFF#32).lt half = true := ⟨fun _ => ⟨rfl, rfl⟩, by decide, by decide⟩

/-- Increment one quarter: below it, at it, at and above three quarters; then an increment of zero and one below. -/
theorem witness_PolyBlepPieces :
    (f 0x3E7FFFFF#32).lt quarter = true ∧
    (quarter.lt quarter = false ∧ (F32.one.sub quarter).lt quarter = false) ∧
    ((f 0x3F400000#32).lt quarter = false ∧ (F32.one.sub quarter).lt (f 0x3F400000#32) = false) ∧
    ((f 0x3F400001#32).lt quarter = false ∧ (F32.one.sub quarter).lt (f 0x3F400001#32) = true) ∧
    (F32.zero.le .zero = true ∧ F32.zero.lt .one = true ∧ F32.zero.le .zero = true ∧ minusOne.le .zero = true) := by
  decide +kernel

/-- Both ends of `[0, 1)`, 1, and a negative number that rounds to 1. -/
theorem witness_WrapIntoUnitInterval :
    F32.zero.isFinite = true ∧ F32.zero.le .zero = true ∧ (f 0x3F7FFFFF#32).lt .one = true ∧ F32.one.le .one = true ∧
    ((f 0xBE800000#32).sub (f 0xBE800000#32).floor).lt .one = true ∧
    F32.one.le ((f 0xAEDBE6FF#32).sub (f 0xAEDBE6FF#32).floor) = true := by decide +kernel

/-- A tie, the largest number below `2^31`, and the largest integer converted. -/
theorem witness_FloorAndRound :
    (f 0x41480000#32).isFinite = true ∧ (f 0x41480000#32).roundi = 13 ∧ (f 0xBF000000#32).roundi = -1 ∧
    (f 0x4EFFFFFF#32).mag < magTwo31 ∧ |(-2 ^ 24 : Int)| ≤ 2 ^ 24 := by decide +kernel

theorem rateOk_48k : RateOk (f 0x473B8000#32) := ⟨rfl, rfl⟩

/-- The oscillator's invariant of `ready` with another phase and increment. -/
theorem oscInv_oscAt (p inc : BitVec 32) (w : Wave) (hi : (f inc).isFinite = true)
    (hp : (f p).isFinite = true ∧ F32.zero.le (f p) = true ∧ (f p).lt .one = true) : OscInv (oscAt p inc w).osc :=
  fun _ => ⟨rateOk_48k, rfl, hi, hp⟩

theorem witness_OscFlagCornerCases :
    (OscInv (oscAt 0 0 .ramp).osc ∧ (oscAt 0 0 .ramp).osc.phase.sign = false ∧
      (oscAt 0 0 .ramp).osc.inc.isZero = true ∧ ∃ t, exec .oscProcess (oscAt 0 0 .ramp) = .next t) ∧
    (OscInv (oscAt 0x3F7FFFFF#32 0x80000001#32 .ramp).osc ∧ (f 0x80000001#32).lt .zero = true ∧
      ∃ t, exec .oscProcess (oscAt 0x3F7FFFFF#32 0x80000001#32 .ramp) = .next t) ∧
    (OscInv (oscAt 0 0x3F800000#32 .ramp).osc ∧ F32.one.le (f 0x3F800000#32) = true ∧
      ∃ t, exec .oscProcess (oscAt 0 0x3F800000#32 .ramp) = .next t) :=
  ⟨⟨oscInv_oscAt _ _ _ (by decide) (by decide), by decide, by decide, _, rfl⟩,
    ⟨oscInv_oscAt _ _ _ (by decide) (by decide), by decide, _, rfl⟩,
    ⟨oscInv_oscAt _ _ _ (by decide) (by decide), by decide, _, rfl⟩⟩

theorem witness_OscInvariantKept :
    OscInv ready.osc ∧ ready.osc.init = true ∧ ∃ t, stepOnWord ready 0x1400000000000000#64 = .next t :=
  ⟨oscInv_oscAt 0 0x3E800000#32 .ramp (by decide) (by decide), rfl, _, rfl⟩

theorem ladInv_ready : LadInv ready.lad :=
  fun _ => ⟨rateOk_48k, by decide +kernel, by decide, by decide⟩

theorem ladCoefsFinite_ready : LadCoefsFinite ready.lad := fun _ => by decide

/-- The smallest rate, where the bounds cross, and the largest frequency. -/
theorem witness_LadRateAndCutoffResult :
    (f 0x447A0000#32 = ⟨0x447A0000#32⟩ ∧ F32.one.isFinite = true ∧ F32.one.le .one = true) ∧
    (ready.lad.init = true ∧ (f 0x7F7FFFFF#32).isFinite = true) := by decide

theorem witness_LadResonanceAndModeResult :
    ready.lad.init = true ∧ (f 0xFF7FFFFF#32).isFinite = true ∧ ¬ 5 < (5#32).toNat ∧ 5 < (6#32).toNat := by decide

theorem witness_LadProcessResult : ready.lad.init = true ∧ (f 0x7F7FFFFF#32).isFinite = true := by decide

theorem witness_LadZeroInZeroOut :
    ready.lad.init = true ∧ LadInv ready.lad ∧ LadCoefsFinite ready.lad ∧ ready.lad.z0 = .replicate 4 .zero ∧
    ready.lad.z1 = .replicate 4 .zero ∧ ready.lad.oldin = .zero :=
  ⟨rfl, ladInv_ready, ladCoefsFinite_ready, rfl, rfl, rfl⟩

theorem witness_LadModeChangesOnlyTheMix :
    ready.lad = { ({ ready with lad := { ready.lad with mode := .hp24 } } : State).lad with mode := ready.lad.mode } ∧
    (∃ t, exec (.ladProcess .one) ready = .next t) ∧
    ∃ t, exec (.ladProcess .one) { ready with lad := { ready.lad with mode := .hp24 } } = .next t :=
  ⟨rfl, ⟨_, rfl⟩, _, rfl⟩

theorem witness_LadInvariantKept :
    LadInv ready.lad ∧ LadCoefsFinite ready.lad ∧ ready.lad.init = true ∧
    ∃ t, stepOnWord ready 0x2100000046EA6000#64 = .next t := ⟨ladInv_ready, ladCoefsFinite_ready, rfl, _, rfl⟩

theorem witness_LadCoefsStayFinite :
    LadInv ready.lad ∧ LadCoefsFinite ready.lad ∧ ∃ t, stepOnWord ready 0x200000003F800000#64 = .next t :=
  ⟨ladInv_ready, ladCoefsFinite_ready, _, rfl⟩

theorem witness_EnvxInitAndControlResult :
    (F32.one.isFinite = true ∧ F32.one.le .one = true) ∧ ready.envx.init = true ∧ (f 0x7F7FFFFF#32).isFinite = true := by
  decide

/-- The two bounds of the centre zone, and the nearest numbers outside. -/
theorem witness_EnvxKnobResult :
    ready.envx.init = true ∧
    ((f 0x3EE66666#32).clamp .zero .one = f 0x3EE66666#32 ∧ (f 0x3EE66666#32).le (f 0x3EE66666#32) = true ∧
      (f 0x3EE66666#32).le (f 0x3F0CCCCD#32) = true) ∧
    ((f 0x3F0CCCCD#32).clamp .zero .one = f 0x3F0CCCCD#32 ∧ (f 0x3F0CCCCD#32).le (f 0x3F0CCCCD#32) = true) ∧
    ((f 0x3EE66665#32).clamp .zero .one).lt (f 0x3EE66666#32) = true ∧
    (f 0x3F0CCCCD#32).lt ((f 0x3F0CCCCE#32).clamp .zero .one) = true := by decide

theorem witness_EnvxTriggerAndProcessResult :
    (ready.envx.init = true ∧ ready.envx.hold = false) ∧
    ({ ready.envx with hold := true } : EnvxState).hold = true := by decide

theorem envxInv_ready : EnvxInv ready.envx := fun _ => ⟨rateOk_48k, by decide, by decide⟩

theorem witness_EnvxValueNeverRises :
    ready.envx.init = true ∧ EnvxInv ready.envx ∧ ∃ t r, exec .envxProcess ready = .next t ∧ t.port.rsp = some r :=
  ⟨rfl, envxInv_ready, _, _, rfl, rfl⟩

theorem witness_EnvxInvariantKept :
    EnvxInv ready.envx ∧ ready.envx.init = true ∧ ∃ t, stepOnWord ready 0x31000000BF000000#64 = .next t :=
  ⟨envxInv_ready, rfl, _, rfl⟩

/-- At 4 samples a second: a time below one sample, and one of exactly one sample. -/
theorem witness_EnvlCommandsResult :
    (F32.one.isFinite = true ∧ F32.one.le .one = true) ∧ ready.envl.init = true ∧
    (f 0x3E7FFFFF#32).lt (F32.one.div (f 0x40800000#32)) = true ∧
    (f 0x3E800000#32).lt (F32.one.div (f 0x40800000#32)) = false ∧
    (quarter.sub half).lt .zero = true ∧ (half.sub half).lt .zero = false := by decide +kernel

theorem envlInv_ready : EnvlInv ready.envl := fun _ => ⟨rateOk_48k, by decide, by decide, by decide⟩

theorem witness_EnvlValueNeverRises :
    (ready.envl.init = true ∧ EnvlInv ready.envl ∧ ∃ t r, exec .envlProcess ready = .next t ∧ t.port.rsp = some r) ∧
    EnvlInv { ready.envl with value := .zero } :=
  ⟨⟨rfl, envlInv_ready, _, _, rfl, rfl⟩, fun _ => ⟨rateOk_48k, by decide, by decide, by decide⟩⟩

theorem witness_EnvlInvariantKept :
    EnvlInv ready.envl ∧ ready.envl.init = true ∧ ∃ t, stepOnWord ready 0x410000003F800000#64 = .next t :=
  ⟨envlInv_ready, rfl, _, rfl⟩

theorem witness_SeqSetLenResult : ready.seq.init = true := rfl

/-- The sequencer's invariant of `ready`: its arrays are written by the same functions as the invariant names. -/
theorem seqInv_ready : SeqInv ready.seq :=
  fun _ => ⟨by decide, by decide, by decide, by decide, by decide, ⟨13, by decide, by decide +kernel⟩, rfl, rfl, rfl⟩

theorem witness_SeqRegenerationTable :
    ready.seq.init = true ∧ (f 0x7F7FFFFF#32).isFinite = true ∧ (f 0xFF7FFFFF#32).isFinite = true ∧ SeqInv ready.seq :=
  ⟨rfl, rfl, rfl, seqInv_ready⟩

/-- Both ends of the range of the length. -/
theorem witness_SeqProcessResult :
    (ready.seq.init = true ∧ 1 ≤ ready.seq.len.toNat ∧ ready.seq.len.toNat ≤ 32) ∧ ready.seq.len.toNat = 32 ∧
    1 ≤ (1#6).toNat := by decide

theorem witness_SeqReadsResult :
    ready.seq.init = true ∧ (31#32).toNat < 32 ∧ 31 < (32#32).toNat := by decide

/-- No gate, one gate and 32 gates; the first and the last step of the third list are gated. -/
theorem witness_GateCountIsExact :
    F32.zero.within .zero .one = true ∧ F32.one.within .zero .one = true ∧
    (F32.zero.mul thirtyTwo).roundi = 0 ∧ ((f 0x3C800000#32).mul thirtyTwo).roundi = 1 ∧
    (F32.one.mul thirtyTwo).roundi = 32 ∧ (gatesOf .one)[0]? = some true ∧ (gatesOf .one)[31]? = some true := by
  decide +kernel

/-- The first generator output of this seed has its top 24 bits set, so that `u1` is 1.0, whose logarithm every numerics
record has as `+0`: the draw is a zero and the palette value the bias. -/
theorem draw_not_nan : (paletteValue biasMid (xorshift (seedState 0x260BF4F5#32))
    (xorshift (xorshift (seedState 0x260BF4F5#32)))).isNaN = false := by
  have h1 : uniform1 (xorshift (seedState 0x260BF4F5#32)) = .one := by decide +kernel
  have h2 : (cfg.twoPi.mul (uniform2 (xorshift (xorshift (seedState 0x260BF4F5#32))))).isFinite = true := by
    decide +kernel
  generalize xorshift (seedState 0x260BF4F5#32) = a at *
  have hs : (minusTwo.mul .zero).sqrt = .negZero := by decide +kernel
  have hc := Config.num.cos_range _ h2
  unfold paletteValue gauss
  rw [h1, Config.num.ln_one, hs]
  generalize Config.num.cos _ = c at *
  have fc : c.isFinite = true := by
    rw [F32.isFinite_iff]
    simp only [F32.within, Bool.and_eq_true, F32.le_iff] at hc
    have k1 : F32.one.key = 0x3F800000 := by decide
    have k2 : F32.one.neg.key = -0x3F800000 := by decide
    have := hc.1.2.2
    have := hc.2.2.2
    unfold F32.key at *
    unfold infMag
    split at * <;> omega
  have zero_of : ∀ {x y : F32}, x.isFinite = true → y.isFinite = true → x.mag = 0 ∨ y.mag = 0 →
      (x.mul y).isFinite = true ∧ (x.mul y).mag = 0 := fun {x y} hx hy h => by
    have : (x.mul y).mag = 0 := by
      rw [(F32.mul_mag hx hy).1]; rcases h with h | h <;> rw [h] <;> simp [roundMag_zero _ unitsPerOne_pos]
    exact ⟨F32.isFinite_iff.2 (by rw [this]; decide), this⟩
  have z1 := zero_of (x := .negZero) (y := c) (by decide) fc (.inl (by decide))
  have z2 := zero_of (x := cfg.seqSigma) (y := F32.negZero.mul c) (by decide) z1.1 (.inr z1.2)
  have hn : (biasMid.add (cfg.seqSigma.mul (F32.negZero.mul c))).isNaN = false := by
    rw [F32.add_finite (by decide) z2.1]; exact roundUnits_not_nan _ _
  exact (F32.le_iff.1 (Bool.and_eq_true _ _ ▸ clamp_within (lo := .zero) (hi := .one) hn (by decide)).1).2.1

/-- A palette of a draw that is no NaN, under every numerics record; a list without a NaN to sort; two complexities in
order, and a first draw. -/
theorem witness_PaletteSorted :
    (∀ v ∈ paletteDraws biasMid 1 (seedState 0x260BF4F5#32), v.isNaN = false) ∧
    (∃ v, v ∈ paletteOf 0x260BF4F5#32 1 biasMid) ∧
    (∀ v ∈ [F32.one, .zero, half], v.isNaN = false) ∧ .zero ∈ sortAscending [F32.one, .zero, half] ∧ 0 < 1 ∧ 1 ≤ 32 :=
  ⟨fun _ hv => List.mem_singleton.1 hv ▸ draw_not_nan, ⟨_, List.mem_singleton.2 rfl⟩, by decide, by decide, by decide,
    by decide⟩

/-- The worked trace of 44_sequencer.md R174 for seed 1, with its first exchange, of entries 3 and 2; and every index
below the complexity. -/
theorem witness_ShufflePermutes :
    0 + 1 < 4 ∧ 3 = 4 - 1 - 0 ∧ (xorshift (seedState 1#32) >>> 8).toNat % (3 + 1) = 2 ∧
    shuffledRuns 4 4 1#32 = [3, 0, 1, 2] ∧ 1 ≤ 4 ∧ 4 ≤ 4 ∧ 3 < 4 := by decide +kernel

/-- One run, and 32 runs; the first and the last run of each. -/
theorem witness_RunsCoverAllSteps :
    (1 ≤ 1 ∧ 1 ≤ 32 ∧ F32.zero.within .zero .one = true ∧ F32.zero.isZero = true ∧ totalRuns 1 .zero = 1 ∧
      0 < totalRuns 1 .zero) ∧
    (1 ≤ 32 ∧ 32 ≤ 32 ∧ F32.one.within .zero .one = true ∧ totalRuns 32 .one = 32 ∧ totalRuns 1 .one = 32 ∧
      31 < totalRuns 1 .one) := by decide +kernel

theorem witness_CursorReturns : ready.seq.init = true ∧ SeqInv ready.seq := ⟨rfl, seqInv_ready⟩

theorem witness_SeqInvariantKept :
    SeqInv ready.seq ∧ ready.seq.init = true ∧ ∃ t, stepOnWord ready 0x5100000000000003#64 = .next t :=
  ⟨seqInv_ready, rfl, _, rfl⟩

theorem metInv_metAt (p inc : BitVec 32) (hi : (f inc).isFinite = true ∧ (f inc).within .zero half = true)
    (hp : (f p).isFinite = true ∧ F32.zero.le (f p) = true ∧ (f p).lt .one = true) : MetInv (metAt p inc).met :=
  have hw : (f 0x463B8000#32).within .zero ((f 0x473B8000#32).mul half) = true := by decide +kernel
  fun _ => ⟨rateOk_48k, rfl, hw, hi.1, hi.2, hp⟩

theorem witness_MetCommandsResult :
    (F32.one.isFinite = true ∧ F32.one.le .one = true) ∧ ready.met.init = true ∧ (f 0xFF7FFFFF#32).isFinite = true := by
  decide

/-- A sum of exactly 1 ticks; the next lower sum does not. -/
theorem witness_MetProcessResult :
    ((metAt 0x3F400000#32 0x3E800000#32).met.init = true ∧ F32.one.le ((f 0x3F400000#32).add (f 0x3E800000#32)) = true ∧
      MetInv (metAt 0x3F400000#32 0x3E800000#32).met) ∧
    F32.one.le ((f 0x3F3FFFFF#32).add (f 0x3E800000#32)) = false :=
  ⟨⟨rfl, by decide +kernel, metInv_metAt _ _ (by decide) (by decide)⟩, by decide +kernel⟩

/-- Zero of either sign, a negative number; and a stopped metronome with a phase. -/
theorem witness_StoppedMetronomeNeverTicks :
    (ready.met.init = true ∧ MetInv ready.met ∧ F32.negZero.isFinite = true ∧ F32.negZero.le .zero = true ∧
      minusOne.le .zero = true) ∧
    (MetInv (metAt 0x3F7FFFFF#32 0x80000000#32).met ∧ (metAt 0x3F7FFFFF#32 0x80000000#32).met.inc.isZero = true ∧
      (metAt 0x3F7FFFFF#32 0x80000000#32).met.phase.sign = false) :=
  ⟨⟨rfl, metInv_metAt 0 0x3E800000#32 (by decide) (by decide), by decide, by decide, by decide⟩,
    metInv_metAt _ _ (by decide) (by decide), by decide, by decide⟩

theorem witness_MetInvariantKept :
    MetInv ready.met ∧ ready.met.init = true ∧ ∃ t, stepOnWord ready 0x6400000000000000#64 = .next t :=
  ⟨metInv_metAt 0 0x3E800000#32 (by decide) (by decide), rfl, _, rfl⟩

theorem witness_InvariantsHoldAtResetAndInit :
    (isInitCommand (.oscInit .one) = true ∧ operandRejected (encode (.oscInit .one)) = false) ∧
    (isInitCommand (.ladInit .one) = true ∧ operandRejected (encode (.ladInit .one)) = false) ∧
    (isInitCommand (.envxInit .one) = true ∧ operandRejected (encode (.envxInit .one)) = false) ∧
    (isInitCommand (.envlInit .one) = true ∧ operandRejected (encode (.envlInit .one)) = false) ∧
    (isInitCommand .seqInit = true ∧ operandRejected (encode .seqInit) = false) ∧
    (isInitCommand (.metInit .one) = true ∧ operandRejected (encode (.metInit .one)) = false) ∧
    (∃ t, exec (.ladInit .one) .reset = .next t) ∧ ∃ t, exec .seqInit .reset = .next t :=
  ⟨by decide, by decide, by decide, by decide, by decide, by decide, ⟨_, rfl⟩, _, rfl⟩

end Sys2Proof.Tests
end

section
/-! PROOFS. The shared rules of 00_scope.md: the step runs the decoded command (R23, R71), `floor`, `ROUNDI` and `toF32`
(R17), and the phase wrap `WRAP1` (R18). -/

namespace Sys2Proof.Machine

/-! ### The decoder undoes the encoder -/

/-- The opcode map takes a command's opcode and operand field back to the command. -/
theorem instrOf_opcodeOf (i : Instr) : instrOf (opcodeOf i) (argOf i) = some i := by
  cases i <;> rfl

/-- A command without operand leaves the field `arg` zero (30_encoding.md R83). -/
theorem argOf_eq_zero {i : Instr} (h : operandTypeOf i = .none) : argOf i = 0#32 := by
  revert h
  cases i <;> simp [operandTypeOf, argOf]

/-- None of the three checks fails on an encoded command. -/
theorem decode_encode (i : Instr) : decode (encode i) = .ok i := by
  obtain ⟨hop, hrsv, harg⟩ := Laws.encode_fields i
  have hstray : ¬ (operandTypeOf i = .none ∧ argOf i ≠ 0#32) := fun ⟨ht, h0⟩ => h0 (argOf_eq_zero ht)
  simp only [decode, hop, hrsv, harg, instrOf_opcodeOf, if_neg hstray, ne_eq, not_true_eq_false, if_false]

/-! ### Presenting an encoded command -/

/-- Presenting a 64-bit word as its number presents the word. -/
theorem step_withFetchWord (s : State) (w : CmdWord) : step (s.withFetchWord 64 w.toNat) = stepOnWord s w := by
  have hw : BitVec.ofNat 64 (w.toNat % 2 ^ 64) = w := by
    rw [Nat.mod_eq_of_lt w.isLt, BitVec.ofNat_toNat, BitVec.setWidth_eq]
  unfold State.withFetchWord stepOnWord
  rw [hw]

/-- A word that decodes, presented in any state, is that command's execution there: the event taken is the word's own. -/
theorem stepOnWord_of_decode (s : State) {w : CmdWord} {i : Instr} (h : decode w = .ok i) : stepOnWord s w = exec i s :=
  step_command _ w i s.port.inbox rfl h

theorem stepOnWord_encode (s : State) (i : Instr) : stepOnWord s (encode i) = exec i s :=
  stepOnWord_of_decode s (decode_encode i)

/-- Settles O6: `step` on a decoded word, then the round trip through the encoder. -/
theorem stepRunsDecodedCommand : Obligations.StepRunsDecodedCommand := by
  unfold Obligations.StepRunsDecodedCommand
  exact ⟨step_command, fun s i =>
    ⟨stepOnWord_encode s i, (step_withFetchWord s (encode i)).trans (stepOnWord_encode s i)⟩⟩

/-! ### `ROUNDI` (00_scope.md R17) -/

/-- A value is its magnitude, up to the sign. -/
theorem abs_units (x : F32) : |x.units| = (magUnits x.mag : Int) := by
  unfold F32.units
  split <;> simp

/-- The magnitude that `ROUNDI` gives a number of `m` units: halves go up. -/
def roundHalfUp (m : Nat) : Nat := (2 * m + unitsPerOne) / (2 * unitsPerOne)

theorem roundi_eq {x : F32} (h : x.mag < magTwo31) :
    x.roundi = if x.sign then -(roundHalfUp (magUnits x.mag) : Int) else (roundHalfUp (magUnits x.mag) : Int) := by
  unfold F32.roundi
  rw [if_pos h]
  rfl

theorem abs_roundi {x : F32} (h : x.mag < magTwo31) : |x.roundi| = (roundHalfUp (magUnits x.mag) : Int) := by
  rw [roundi_eq h]
  split <;> simp

/-- `ROUNDI` errs by what the rounding of the magnitude errs: the sign goes along. -/
theorem abs_units_sub_roundi {x : F32} (h : x.mag < magTwo31) :
    |x.units - x.roundi * (unitsPerOne : Int)| =
      |(magUnits x.mag : Int) - (roundHalfUp (magUnits x.mag) : Int) * (unitsPerOne : Int)| := by
  rw [roundi_eq h]
  unfold F32.units
  split
  · rw [← abs_neg]
    congr 1
    ring
  · rfl

/-- Rounding a magnitude errs by less than one half downwards and by at most one half upwards. -/
theorem roundHalfUp_bounds (m : Nat) :
    2 * ((m : Int) - roundHalfUp m * (unitsPerOne : Int)) < unitsPerOne ∧
      2 * ((roundHalfUp m : Int) * (unitsPerOne : Int) - m) ≤ unitsPerOne := by
  have hdiv := Nat.div_add_mod (2 * m + unitsPerOne) (2 * unitsPerOne)
  have hmod := Nat.mod_lt (2 * m + unitsPerOne) (show 0 < 2 * unitsPerOne by have := unitsPerOne_pos; omega)
  change 2 * unitsPerOne * roundHalfUp m + _ = _ at hdiv
  have hassoc : 2 * unitsPerOne * roundHalfUp m = 2 * (roundHalfUp m * unitsPerOne) := by ring
  rw [hassoc] at hdiv
  have hcast : ((roundHalfUp m * unitsPerOne : Nat) : Int) = (roundHalfUp m : Int) * (unitsPerOne : Int) := Nat.cast_mul _ _
  omega

/-- `ROUNDI` is within one half of its operand, and away from zero at exactly one half. -/
theorem roundi_nearest {x : F32} (h : x.mag < magTwo31) :
    2 * |x.units - x.roundi * (unitsPerOne : Int)| ≤ (unitsPerOne : Int) ∧
      (2 * |x.units - x.roundi * (unitsPerOne : Int)| = (unitsPerOne : Int) →
        |x.units| < |x.roundi| * (unitsPerOne : Int)) := by
  obtain ⟨hdown, hup⟩ := roundHalfUp_bounds (magUnits x.mag)
  have hU : (0 : Int) < (unitsPerOne : Int) := by exact_mod_cast unitsPerOne_pos
  rw [abs_units_sub_roundi h, abs_units, abs_roundi h]
  generalize (roundHalfUp (magUnits x.mag) : Int) * (unitsPerOne : Int) = r at *
  rcases abs_cases ((magUnits x.mag : Int) - r) with ⟨he, _⟩ | ⟨he, _⟩ <;> rw [he] <;> omega

/-- Settles O26: the three functions of R17, each by its own lemma. -/
theorem floorAndRound : Obligations.FloorAndRound := by
  unfold Obligations.FloorAndRound
  intro x hx
  refine ⟨F32.floor_units hx, roundi_nearest, fun n hn => F32.ofInt_exact ?_⟩
  rw [Int.abs_eq_natAbs] at hn
  omega

/-! ### `WRAP1` (00_scope.md R18) -/

/-- A fractional part has no more bits than the number: `(m * 2^e) mod 2^149` is `m mod 2^(149 - e)`, at the same scale. -/
theorem magUnits_mod_representable (p : Nat) :
    ∃ a j, a ≤ 2 ^ 24 ∧ j ≤ 252 ∧ magUnits p % unitsPerOne = a * 2 ^ j := by
  obtain ⟨m, e, hm, hv⟩ := magUnits_decomp p
  rcases Nat.lt_or_ge e 149 with he | he
  · refine ⟨m % 2 ^ (149 - e), e, (Nat.mod_le _ _).trans hm.le, by omega, ?_⟩
    have hU : unitsPerOne = 2 ^ (149 - e) * 2 ^ e := by
      rw [← pow_add, Nat.sub_add_cancel he.le]
      rfl
    rw [hv, hU, Nat.mul_mod_mul_right]
  · refine ⟨0, 0, by omega, by omega, ?_⟩
    rw [hv, zero_mul]
    exact Nat.mod_eq_zero_of_dvd (Dvd.dvd.mul_left (pow_dvd_pow 2 he) m)

/-- The units of a number that is not negative are those of its magnitude. -/
theorem units_of_nonneg {x : F32} (h : 0 ≤ x.units) : x.units = (magUnits x.mag : Int) := by
  rw [← abs_units, abs_of_nonneg h]

/-- Taking the floor off a number that is not negative is exact. -/
theorem sub_floor_exact {x : F32} (hx : x.isFinite = true) (h0 : 0 ≤ x.units) :
    (x.sub x.floor).units = x.units % (unitsPerOne : Int) := by
  obtain ⟨a, j, ha, hj, hv⟩ := magUnits_mod_representable x.mag
  rw [F32.sub_floor hx]
  refine (roundUnits_representable ha hj ?_ _).2
  rw [units_of_nonneg h0, ← Int.natCast_mod, Int.natAbs_natCast, hv]

theorem wrap1_of_lt {x : F32} (h : (x.sub x.floor).lt .one = true) : x.wrap1 = x.sub x.floor := by
  obtain ⟨hn, _, hlt⟩ := F32.lt_iff.1 h
  have hle : F32.one.le (x.sub x.floor) = false := (F32.le_eq_false_iff (by decide) hn).2 h
  simp [F32.wrap1, hle]

theorem wrap1_of_ge {x : F32} (h : F32.one.le (x.sub x.floor) = true) : x.wrap1 = .zero := by
  simp [F32.wrap1, h]

/-- The difference from the floor of a number that is not negative stays below 1: nothing is rounded. -/
theorem sub_floor_lt_one {x : F32} (hx : x.isFinite = true) (h0 : 0 ≤ x.units) : (x.sub x.floor).lt .one = true := by
  have hn := F32.not_nan_of_finite (F32.sub_floor_range hx).1
  rw [F32.lt_iff_units hn (by decide), sub_floor_exact hx h0, F32.one_units]
  exact Int.emod_lt_of_pos _ (by exact_mod_cast unitsPerOne_pos)

/-- From a number that is not negative, `WRAP1` removes exactly the integer part. -/
theorem wrap1_units {x : F32} (hx : x.isFinite = true) (h0 : 0 ≤ x.units) :
    x.wrap1.units = x.units % (unitsPerOne : Int) := by
  rw [wrap1_of_lt (sub_floor_lt_one hx h0), sub_floor_exact hx h0]

/-- A sum that is not negative rounds to sign plus, an exact zero too where the sum's zero is `+0.0`. -/
theorem roundUnits_sign_of_nonneg {v : Int} (h : 0 ≤ v) : (roundUnits v false).sign = false := by
  unfold roundUnits
  split
  · exact F32.sign_ofMag _ _ (by norm_num)
  · rw [F32.sign_ofMag _ _ (lt_of_le_of_lt (roundMag_le_inf v.natAbs 1) infMag_lt)]
    exact decide_eq_false (not_lt.2 h)

/-- A number in `[0, 1)` keeps its value. -/
theorem wrap1_key_of_phase {x : F32} (hx : x.isFinite = true) (h0 : 0 ≤ x.units) (h1 : x.units < unitsPerOne) :
    x.wrap1.key = x.key := by
  rw [← F32.units_eq_iff, wrap1_units hx h0, Int.emod_eq_of_lt h0 h1]

/-- `+0.0 - floor(+0.0)` is `+0.0`, so that a phase with sign plus keeps its sign too. -/
theorem wrap1_of_phase {x : F32} (hx : x.isFinite = true) (h0 : 0 ≤ x.units) (h1 : x.units < unitsPerOne)
    (hs : x.sign = false) : x.wrap1 = x := by
  refine F32.eq_of_key (wrap1_key_of_phase hx h0 h1) (.inr ?_)
  rw [wrap1_of_lt (sub_floor_lt_one hx h0), F32.sub_floor hx, hs, Bool.false_and, Int.emod_eq_of_lt h0 h1]
  exact roundUnits_sign_of_nonneg h0

/-- Only a negative number can round up to 1 when its floor is taken off. -/
theorem neg_of_sub_floor_ge_one {x : F32} (hx : x.isFinite = true) (h : F32.one.le (x.sub x.floor) = true) :
    x.lt .zero = true := by
  have hn := F32.not_nan_of_finite (F32.sub_floor_range hx).1
  rw [F32.lt_iff_units (F32.not_nan_of_finite hx) (by decide), F32.zero_units]
  by_contra hc
  have hlt := sub_floor_lt_one hx (not_lt.1 hc)
  rw [← F32.le_eq_false_iff (by decide) hn, h] at hlt
  cases hlt

/-- Settles O25: the range is `wrap_phase`; for the rest, taking the floor off is exact unless the number is negative. -/
theorem wrapIntoUnitInterval : Obligations.WrapIntoUnitInterval := by
  unfold Obligations.WrapIntoUnitInterval
  intro x hx
  have hn := F32.not_nan_of_finite hx
  obtain ⟨hfin, hge, hlt⟩ := wrap_phase hx
  refine ⟨hfin, hge, hlt, fun h0 h1 => ?_, fun h1 => ?_, wrap1_of_lt,
    fun h => ⟨wrap1_of_ge h, neg_of_sub_floor_ge_one hx h⟩⟩
  · rw [F32.le_iff_units (by decide) hn, F32.zero_units] at h0
    rw [F32.lt_iff_units hn (by decide), F32.one_units] at h1
    exact ⟨wrap1_key_of_phase hx h0 h1, wrap1_of_phase hx h0 h1⟩
  · rw [F32.le_iff_units (by decide) hn, F32.one_units] at h1
    exact wrap1_units hx ((Int.natCast_nonneg _).trans h1)

end Sys2Proof.Machine
end

section
/-! PROOFS. What a command does to each unit, in the terms of 10_state.md: the units it leaves alone (R30), the `init`
bits (R31), and how an invariant of one unit follows from that unit's own commands. -/

namespace Sys2Proof.Machine

/-! ### A command leaves the other units alone -/

theorem effectOf_osc_of_ne {i : Instr} (h : unitOf i ≠ .osc) (s : State) : (effectOf i s).osc = s.osc := by
  obtain ⟨⟨hosc, -⟩, -⟩ := effectOf_keeps i s
  exact hosc h

theorem effectOf_lad_of_ne {i : Instr} (h : unitOf i ≠ .lad) (s : State) : (effectOf i s).lad = s.lad := by
  obtain ⟨⟨-, hlad, -⟩, -⟩ := effectOf_keeps i s
  exact hlad h

theorem effectOf_envx_of_ne {i : Instr} (h : unitOf i ≠ .envx) (s : State) : (effectOf i s).envx = s.envx := by
  obtain ⟨⟨-, -, henvx, -⟩, -⟩ := effectOf_keeps i s
  exact henvx h

theorem effectOf_envl_of_ne {i : Instr} (h : unitOf i ≠ .envl) (s : State) : (effectOf i s).envl = s.envl := by
  obtain ⟨⟨-, -, -, henvl, -⟩, -⟩ := effectOf_keeps i s
  exact henvl h

theorem effectOf_seq_of_ne {i : Instr} (h : unitOf i ≠ .seq) (s : State) : (effectOf i s).seq = s.seq := by
  obtain ⟨⟨-, -, -, -, hseq, -⟩, -⟩ := effectOf_keeps i s
  exact hseq h

theorem effectOf_met_of_ne {i : Instr} (h : unitOf i ≠ .met) (s : State) : (effectOf i s).met = s.met := by
  obtain ⟨⟨-, -, -, -, -, hmet⟩, -⟩ := effectOf_keeps i s
  exact hmet h

/-- A property of unit `u` that reset has and that the accepted commands of `u` keep survives every step: no other command
touches `u`. -/
theorem step_keeps_unit {α : Type} (u : UnitId) (P : α → Prop) (f : State → α)
    (hport : ∀ s p e, f { s with port := p, err := e } = f s) (hreset : P (f .reset))
    (hother : ∀ {i : Instr}, unitOf i ≠ u → ∀ s : State, f (effectOf i s) = f s)
    (hown : ∀ (i : Instr) (s : State), unitOf i = u → (isInitCommand i || s.initOf (unitOf i)) = true →
      operandOk i = true → P (f s) → P (f (effectOf i s)))
    (s t : State) (h : P (f s)) (hs : step s = .next t) : P (f t) := by
  refine step_keeps P f hport hreset (fun i s hi ha hP => ?_) s t h hs
  by_cases hu : unitOf i = u
  · exact hown i s hu hi ha hP
  · rw [hother hu]
    exact hP

/-! ### The passes of the filter leave its registers alone (41_ladder_filter.md R126) -/

section
variable (x : F32) (n : Nat) (l : LadState) (k : F32)

@[simp] theorem passesState_init : (passesState x n l k).init = l.init := by rw [passesState_keeps]
@[simp] theorem passesState_fs : (passesState x n l k).fs = l.fs := by rw [passesState_keeps]
@[simp] theorem passesState_fc : (passesState x n l k).fc = l.fc := by rw [passesState_keeps]
@[simp] theorem passesState_res : (passesState x n l k).res = l.res := by rw [passesState_keeps]
@[simp] theorem passesState_k : (passesState x n l k).k = l.k := by rw [passesState_keeps]

end

/-! ### The `init` bits (10_state.md R31) -/

/-- The `init` bit of a unit is in the unit. -/
theorem KeepsUnitsBut.initOf_eq {u v : UnitId} {s t : State} (h : KeepsUnitsBut u s t) (hv : u ≠ v) :
    t.initOf v = s.initOf v := by
  obtain ⟨hosc, hlad, henvx, henvl, hseq, hmet⟩ := h
  cases v with
  | control => rfl
  | osc => exact congrArg OscState.init (hosc hv)
  | lad => exact congrArg LadState.init (hlad hv)
  | envx => exact congrArg EnvxState.init (henvx hv)
  | envl => exact congrArg EnvlState.init (henvl hv)
  | seq => exact congrArg SeqState.init (hseq hv)
  | met => exact congrArg MetState.init (hmet hv)

/-- An accepted `*_INIT` sets the `init` bit of its unit. -/
theorem effectOf_initOf_of_init {i : Instr} (h : isInitCommand i = true) (s : State) :
    (effectOf i s).initOf (unitOf i) = true := by
  cases i with
  | oscInit _ | ladInit _ | envxInit _ | envlInit _ | seqInit | metInit _ => rfl
  | _ => cases h

/-- Every other command leaves the `init` bit of its own unit too. -/
theorem effectOf_initOf_own {i : Instr} (h : isInitCommand i = false) (s : State) :
    (effectOf i s).initOf (unitOf i) = s.initOf (unitOf i) := by
  cases i with
  | oscInit _ | ladInit _ | envxInit _ | envlInit _ | seqInit | metInit _ => cases h
  | ladProcess x => simp only [effectOf, unitOf, State.initOf, passesState_init]
  | envxSetKnob x => simp only [effectOf]; split <;> rfl
  | envxProcess => simp only [effectOf]; split <;> rfl
  | metProcess => simp only [effectOf]; split <;> rfl
  | _ => rfl

/-- A command that is no `*_INIT` changes no `init` bit. -/
theorem effectOf_initOf_of_not_init {i : Instr} (h : isInitCommand i = false) (s : State) (u : UnitId) :
    (effectOf i s).initOf u = s.initOf u := by
  by_cases hu : unitOf i = u
  · exact hu ▸ effectOf_initOf_own h s
  · exact (effectOf_keeps i s).1.initOf_eq hu

/-- No command clears an `init` bit. -/
theorem effectOf_keeps_initOf {u : UnitId} {s : State} (h : s.initOf u = true) (i : Instr) :
    (effectOf i s).initOf u = true := by
  by_cases hu : unitOf i = u
  · cases hi : isInitCommand i
    · rw [effectOf_initOf_of_not_init hi, h]
    · exact hu ▸ effectOf_initOf_of_init hi s
  · rw [(effectOf_keeps i s).1.initOf_eq hu, h]

end Sys2Proof.Machine
end

section
/-! PROOFS. The invariants of 10_state.md, unit by unit: what each command of the unit makes of it. That a step keeps it is
then `step_keeps_unit`. -/

namespace Sys2Proof.Machine

/-! ### The values that `*_INIT` and the triggers store -/

theorem zero_within_unit : F32.zero.within .zero .one = true := by decide
theorem one_within_unit : F32.one.within .zero .one = true := by decide

theorem zero_ne_negZero : F32.zero ≠ .negZero := by decide
theorem one_ne_negZero : F32.one ≠ .negZero := by decide

/-- A finite number in `[0, 1)`: what R38 and R47 say of the two phase accumulators. -/
def IsPhase (p : F32) : Prop := p.isFinite = true ∧ F32.zero.le p = true ∧ p.lt .one = true

theorem isPhase_zero : IsPhase .zero := ⟨rfl, rfl, rfl⟩

theorem isPhase_wrap1 {x : F32} (hx : x.isFinite = true) : IsPhase x.wrap1 := wrap_phase hx

theorem IsPhase.add_finite {p d : F32} (hp : IsPhase p) (hd : d.isFinite = true) : (p.add d).isFinite = true :=
  F32.add_phase_finite hp.1 hd hp.2.1 hp.2.2

/-- A phase by value. -/
theorem isPhase_iff_units {p : F32} :
    IsPhase p ↔ p.isFinite = true ∧ 0 ≤ p.units ∧ p.units < (unitsPerOne : Int) := by
  refine and_congr_right fun hp => ?_
  have hn := F32.not_nan_of_finite hp
  rw [F32.le_iff_units (by decide) hn, F32.lt_iff_units hn (by decide), F32.zero_units, F32.one_units]

/-! ### The oscillator (R38) -/

/-- `OSC_INIT` gives the invariant, whatever the unit held. -/
theorem oscInv_oscInit {fs : F32} (h : acceptsRate fs = true) (s : State) : OscInv (effectOf (.oscInit fs) s).osc :=
  fun _ => ⟨rateOk_of_accepts h, rfl, rfl, isPhase_zero⟩

/-- The rate is at least 1, so the increment stays finite; every new phase comes out of `WRAP1`. -/
theorem effectOf_keeps_oscInv (i : Instr) (s : State) (hu : unitOf i = .osc)
    (hi : (isInitCommand i || s.initOf (unitOf i)) = true) (ha : operandOk i = true) (h : OscInv s.osc) :
    OscInv (effectOf i s).osc := by
  cases i with
  | oscInit fs => exact oscInv_oscInit ha s
  | oscSetFreq f =>
    obtain ⟨hfs, -, -, hphase⟩ := h hi
    exact fun _ => ⟨hfs, ha, div_rate_finite ha hfs, hphase⟩
  | oscSetWave w => exact h
  | oscPhaseAdd d =>
    obtain ⟨hfs, hfreq, hinc, hphase⟩ := h hi
    exact fun _ => ⟨hfs, hfreq, hinc, isPhase_wrap1 (IsPhase.add_finite hphase ha)⟩
  | oscProcess =>
    obtain ⟨hfs, hfreq, hinc, hphase⟩ := h hi
    exact fun _ => ⟨hfs, hfreq, hinc, isPhase_wrap1 (IsPhase.add_finite hphase hinc)⟩
  | _ => cases hu

/-- Settles O28: each command of the oscillator keeps the invariant. -/
theorem oscInvariantKept : Obligations.OscInvariantKept := by
  unfold Obligations.OscInvariantKept
  exact step_keeps_unit .osc OscInv State.osc (fun _ _ _ => rfl) nofun effectOf_osc_of_ne effectOf_keeps_oscInv

/-! ### The filter (R40) -/

/-- `LAD_INIT` gives the invariant, whatever the unit held. -/
theorem ladInv_ladInit {fs : F32} (h : acceptsRate fs = true) (s : State) : LadInv (effectOf (.ladInit fs) s).lad := by
  intro _
  have hfs := rateOk_of_accepts h
  obtain ⟨-, hfc, -⟩ := fcClamp_range (f := cfg.ladFcInit) hfs (by decide)
  exact ⟨hfs, hfc, rfl, rfl⟩

/-- The setters store clamped values; the passes leave the parameters alone. -/
theorem effectOf_keeps_ladInv (i : Instr) (s : State) (hu : unitOf i = .lad)
    (hi : (isInitCommand i || s.initOf (unitOf i)) = true) (ha : operandOk i = true) (h : LadInv s.lad) :
    LadInv (effectOf i s).lad := by
  cases i with
  | ladInit fs => exact ladInv_ladInit ha s
  | ladSetFreq f =>
    obtain ⟨hfs, -, hres, hk⟩ := h hi
    obtain ⟨-, hfc, -⟩ := fcClamp_range hfs ha
    exact fun _ => ⟨hfs, hfc, hres, hk⟩
  | ladSetRes r =>
    obtain ⟨hfs, hfc, -, -⟩ := h hi
    exact fun _ => ⟨hfs, hfc, ladGain_range ha⟩
  | ladSetMode m => exact h
  | ladProcess x => simpa only [LadInv, effectOf, passesState_init, passesState_fs, passesState_fc, passesState_res,
      passesState_k] using h
  | _ => cases hu

/-- Settles O34: each command of the filter keeps the invariant. -/
theorem ladInvariantKept : Obligations.LadInvariantKept := by
  unfold Obligations.LadInvariantKept
  exact step_keeps_unit .lad LadInv State.lad (fun _ _ _ => rfl) nofun effectOf_lad_of_ne effectOf_keeps_ladInv

/-! ### The exponential envelope (R43, R146) -/

/-- `ENVX_INIT` gives the invariant, whatever the unit held. -/
theorem envxInv_envxInit {fs : F32} (h : acceptsRate fs = true) (s : State) :
    EnvxInv (effectOf (.envxInit fs) s).envx :=
  fun _ => ⟨rateOk_of_accepts h, zero_within_unit, zero_within_unit⟩

/-- The coefficient is an exponential of a number not above zero; the value only ever becomes 1 or a product of two numbers
of `[0, 1]`. -/
theorem effectOf_keeps_envxInv (i : Instr) (s : State) (hu : unitOf i = .envx)
    (hi : (isInitCommand i || s.initOf (unitOf i)) = true) (ha : operandOk i = true) (h : EnvxInv s.envx) :
    EnvxInv (effectOf i s).envx := by
  cases i with
  | envxInit fs => exact envxInv_envxInit ha s
  | envxSetCtl c =>
    obtain ⟨hfs, hvalue, -⟩ := h hi
    exact fun _ => ⟨hfs, hvalue, envxCoef_unit hfs ha⟩
  | envxSetKnob x =>
    obtain ⟨hfs, hvalue, -⟩ := h hi
    simp only [effectOf]
    split
    · exact h
    · exact fun _ => ⟨hfs, hvalue, envxCoef_unit hfs (knobControl_finite ha)⟩
  | envxTrigger =>
    obtain ⟨hfs, -, hcoef⟩ := h hi
    exact fun _ => ⟨hfs, one_within_unit, hcoef⟩
  | envxProcess =>
    obtain ⟨hfs, hvalue, hcoef⟩ := h hi
    simp only [effectOf]
    split
    · exact h
    · exact fun _ => ⟨hfs, (mul_unit hvalue hcoef).1, hcoef⟩
  | _ => cases hu

/-- Settles O40: each command of the exponential envelope keeps the invariant. -/
theorem envxInvariantKept : Obligations.EnvxInvariantKept := by
  unfold Obligations.EnvxInvariantKept
  exact step_keeps_unit .envx EnvxInv State.envx (fun _ _ _ => rfl) nofun effectOf_envx_of_ne effectOf_keeps_envxInv

/-! ### The linear envelope (R43, R159) -/

/-- `ENVL_INIT` gives the invariant, whatever the unit held. -/
theorem envlInv_envlInit {fs : F32} (h : acceptsRate fs = true) (s : State) :
    EnvlInv (effectOf (.envlInit fs) s).envl :=
  fun _ => ⟨rateOk_of_accepts h, zero_within_unit, zero_ne_negZero, one_within_unit⟩

/-- The rate is one minus a number of `[0, 1]`; the value becomes 1 or goes down by the rate, with `+0.0` as its floor. -/
theorem effectOf_keeps_envlInv (i : Instr) (s : State) (hu : unitOf i = .envl)
    (hi : (isInitCommand i || s.initOf (unitOf i)) = true) (ha : operandOk i = true) (h : EnvlInv s.envl) :
    EnvlInv (effectOf i s).envl := by
  cases i with
  | envlInit fs => exact envlInv_envlInit ha s
  | envlSetTime t =>
    obtain ⟨hfs, hvalue, hnz, -⟩ := h hi
    exact fun _ => ⟨hfs, hvalue, hnz, envlRate_unit hfs ha⟩
  | envlTrigger =>
    obtain ⟨hfs, -, -, hrate⟩ := h hi
    exact fun _ => ⟨hfs, one_within_unit, one_ne_negZero, hrate⟩
  | envlProcess =>
    obtain ⟨hfs, hvalue, hnz, hrate⟩ := h hi
    obtain ⟨hvalue', hnz', -⟩ := envlNext_ok hvalue hnz hrate
    exact fun _ => ⟨hfs, hvalue', hnz', hrate⟩
  | _ => cases hu

/-- Settles O43: each command of the linear envelope keeps the invariant. -/
theorem envlInvariantKept : Obligations.EnvlInvariantKept := by
  unfold Obligations.EnvlInvariantKept
  exact step_keeps_unit .envl EnvlInv State.envl (fun _ _ _ => rfl) nofun effectOf_envl_of_ne effectOf_keeps_envlInv

/-! ### The metronome (R47) -/

/-- A rounded value between two numbers lies between them. -/
theorem roundUnits_between {v : Int} {z : Bool} {a b : F32} (ha : a.mag ≤ infMag) (hb : b.mag ≤ infMag)
    (hav : a.units ≤ v) (hvb : v ≤ b.units) :
    a.units ≤ (roundUnits v z).units ∧ (roundUnits v z).units ≤ b.units :=
  ⟨F32.units_le_iff.2 (le_roundUnits ha hav), F32.units_le_iff.2 (roundUnits_le hb hvb)⟩

theorem half_units : 2 * half.units = (unitsPerOne : Int) := by decide +kernel

/-- A phase plus an increment of at most one half is at most 3/2: below 2 with room for the rounding. -/
theorem phase_add_inc_units {p d : F32} (hp : IsPhase p) (hd : d.isFinite = true) (hd' : d.within .zero half = true) :
    0 ≤ (p.add d).units ∧ 2 * (p.add d).units ≤ 3 * (unitsPerOne : Int) := by
  obtain ⟨hpf, hp0, hp1⟩ := isPhase_iff_units.1 hp
  obtain ⟨-, hd0, hd1⟩ := (within_iff (by decide) (by decide)).1 hd'
  rw [← F32.units_le_iff] at hd0 hd1
  have hzero := F32.zero_units
  have hhalf := half_units
  have hbound : 2 * (⟨0x3FC00000#32⟩ : F32).units = 3 * (unitsPerOne : Int) := by decide +kernel
  rw [F32.add_finite hpf hd]
  obtain ⟨hlo, hhi⟩ := roundUnits_between (v := p.units + d.units) (z := p.sign && d.sign) (a := .zero)
    (b := ⟨0x3FC00000#32⟩) (by decide) (by decide) (by omega) (by omega)
  omega

/-- Taking 1 off a number of `[1, 3/2]` leaves a phase. -/
theorem isPhase_sub_one {x : F32} (hx : x.isFinite = true) (h1 : (unitsPerOne : Int) ≤ x.units)
    (h2 : 2 * x.units ≤ 3 * (unitsPerOne : Int)) : IsPhase (x.sub .one) := by
  have hzero := F32.zero_units
  have hone := F32.one_units
  have hhalf := half_units
  have hpos := unitsPerOne_pos
  rw [F32.sub_finite hx F32.one_finite]
  obtain ⟨hlo, hhi⟩ := roundUnits_between (v := x.units - F32.one.units) (z := x.sign && !F32.one.sign) (a := .zero)
    (b := half) (by decide) (by decide) (by omega) (by omega)
  have hfin := F32.finite_of_key (lt_of_lt_of_le (by decide) (F32.units_le_iff.1 hlo))
    (lt_of_le_of_lt (F32.units_le_iff.1 hhi) (by decide))
  exact isPhase_iff_units.2 ⟨hfin, by omega, by omega⟩

/-- A tick takes one cycle off a sum of at least 1; without a tick the sum is a phase as it stands. -/
theorem isPhase_advance {p d : F32} (hp : IsPhase p) (hd : d.isFinite = true) (hd' : d.within .zero half = true) :
    IsPhase (if tickOf (p.add d) then (p.add d).sub .one else p.add d) := by
  obtain ⟨hx0, hx1⟩ := phase_add_inc_units hp hd hd'
  have hx := hp.add_finite hd
  have htick : tickOf (p.add d) = true ↔ (unitsPerOne : Int) ≤ (p.add d).units := by
    rw [← F32.one_units]
    exact F32.le_iff_units (by decide) (F32.not_nan_of_finite hx)
  split
  case isTrue h => exact isPhase_sub_one hx (htick.1 h) hx1
  case isFalse h => exact isPhase_iff_units.2 ⟨hx, hx0, not_le.1 fun hle => h (htick.2 hle)⟩

/-- `MET_PROCESS`, whether it ticks or not (45_metronome.md R198). -/
theorem effectOf_metProcess_met (s : State) :
    (effectOf .metProcess s).met = { s.met with
      phase := if tickOf (s.met.phase.add s.met.inc) then (s.met.phase.add s.met.inc).sub .one
               else s.met.phase.add s.met.inc
      tick := tickOf (s.met.phase.add s.met.inc) } := by
  cases h : tickOf (s.met.phase.add s.met.inc) <;> simp [effectOf, h]

/-- `MET_INIT` gives the invariant, whatever the unit held. -/
theorem metInv_metInit {fs : F32} (h : acceptsRate fs = true) (s : State) : MetInv (effectOf (.metInit fs) s).met := by
  intro _
  have hfs := rateOk_of_accepts h
  obtain ⟨hhalf, hsign, -⟩ := half_rate hfs
  have hmax : F32.zero.le (fs.mul half) = true := (nonneg_iff (F32.not_nan_of_finite hhalf)).2 (by simp [hsign])
  have hfreq : F32.zero.within .zero (fs.mul half) = true := Bool.and_eq_true_iff.2 ⟨rfl, hmax⟩
  exact ⟨hfs, rfl, hfreq, rfl, rfl, isPhase_zero⟩

/-- The clamp bounds the frequency, so the increment too; the phase advances, or goes back to zero. -/
theorem effectOf_keeps_metInv (i : Instr) (s : State) (hu : unitOf i = .met)
    (hi : (isInitCommand i || s.initOf (unitOf i)) = true) (ha : operandOk i = true) (h : MetInv s.met) :
    MetInv (effectOf i s).met := by
  cases i with
  | metInit fs => exact metInv_metInit ha s
  | metSetFreq f =>
    obtain ⟨hfs, -, -, -, -, hphase⟩ := h hi
    obtain ⟨hfreq, hfreq', hinc, hinc'⟩ := metClamp_range hfs ha
    exact fun _ => ⟨hfs, hfreq, hfreq', hinc, hinc', hphase⟩
  | metReset =>
    obtain ⟨hfs, hfreq, hfreq', hinc, hinc', -⟩ := h hi
    exact fun _ => ⟨hfs, hfreq, hfreq', hinc, hinc', isPhase_zero⟩
  | metProcess =>
    obtain ⟨hfs, hfreq, hfreq', hinc, hinc', hphase⟩ := h hi
    rw [effectOf_metProcess_met]
    exact fun _ => ⟨hfs, hfreq, hfreq', hinc, hinc', isPhase_advance hphase hinc hinc'⟩
  | metGetPhase => exact h
  | _ => cases hu

/-- Settles O59: each command of the metronome keeps the invariant. -/
theorem metInvariantKept : Obligations.MetInvariantKept := by
  unfold Obligations.MetInvariantKept
  exact step_keeps_unit .met MetInv State.met (fun _ _ _ => rfl) nofun effectOf_met_of_ne effectOf_keeps_metInv

end Sys2Proof.Machine
end

section
/-! PROOFS. The invariant of the sequencer (10_state.md R45): its registers in range, its arrays the functions of them. -/

namespace Sys2Proof.Machine

/-- The first half of R45: the ranges of the registers. -/
def SeqRanges (q : SeqState) : Prop :=
  (1 ≤ q.len.toNat ∧ q.len.toNat ≤ 32) ∧ (1 ≤ q.cpx.toNat ∧ q.cpx.toNat ≤ 32) ∧ q.cur.toNat < q.len.toNat ∧
    q.density.within .zero .one = true ∧ q.spread.within .zero .one = true ∧
    ∃ k : Nat, k ≤ 25 ∧ q.bias = (F32.ofInt k).div ⟨0x41C80000#32⟩

/-- The second half of R45: the arrays as functions of the registers. -/
def SeqArrays (q : SeqState) : Prop :=
  q.gate = vectorOf 32 false (gatesOf q.density) ∧
    q.pal = vectorOf 32 .zero (paletteOf q.palseed q.cpx.toNat q.bias) ∧
    q.cv = vectorOf 32 .zero (cvsOf q.pal q.cpx.toNat q.spread q.cvseed)

theorem seqInv_iff {q : SeqState} : SeqInv q ↔ (q.init = true → SeqRanges q ∧ SeqArrays q) := by
  simp only [SeqInv, SeqRanges, SeqArrays, and_assoc]

/-! ### What each regeneration makes right (44_sequencer.md R176) -/

/-- The gates depend on the density alone. -/
theorem seqArrays_regenGates {q : SeqState} (hpal : q.pal = vectorOf 32 .zero (paletteOf q.palseed q.cpx.toNat q.bias))
    (hcv : q.cv = vectorOf 32 .zero (cvsOf q.pal q.cpx.toNat q.spread q.cvseed)) : SeqArrays (regenGates q) :=
  ⟨regenGates_gate q, hpal, hcv⟩

theorem seqArrays_regenCv {q : SeqState} (hgate : q.gate = vectorOf 32 false (gatesOf q.density))
    (hpal : q.pal = vectorOf 32 .zero (paletteOf q.palseed q.cpx.toNat q.bias)) : SeqArrays (regenCv q) :=
  ⟨hgate, hpal, regenCv_cv q⟩

/-- The palette is written before the control voltages, which are made from it. -/
theorem seqArrays_regenPalCv {q : SeqState} (hgate : q.gate = vectorOf 32 false (gatesOf q.density)) :
    SeqArrays (regenPalCv q) :=
  ⟨hgate, regenPalCv_pal q, regenPalCv_cv q⟩

/-! ### The registers stored by the setters -/

/-- A clamped count fits its 6-bit register. -/
theorem toNat_clampCount (n : BitVec 32) : (BitVec.ofNat 6 (clampCount 1 32 n)).toNat = clampCount 1 32 n := by
  have hrange := clampCount_range n
  rw [BitVec.toNat_ofNat]
  omega

/-- A cursor reduced by a length of at most 32 is below it. -/
theorem toNat_cursor_lt (a : Nat) {len : Nat} (h1 : 1 ≤ len) (h32 : len ≤ 32) :
    (BitVec.ofNat 5 (a % len)).toNat < len := by
  have hlt := Nat.mod_lt a h1
  rw [BitVec.toNat_ofNat]
  omega

/-- The bias after `SEQ_INIT` is `13.0 / 25.0` (R177). -/
theorem biasMid_eq : biasMid = (F32.ofInt (13 : Nat)).div ⟨0x41C80000#32⟩ := by decide +kernel

theorem seqRanges_seqDefaults (q : SeqState) : SeqRanges (seqDefaults q) :=
  ⟨by simp [seqDefaults], by simp [seqDefaults], by simp [seqDefaults], rfl, rfl, 13, by decide, biasMid_eq⟩

/-- `SEQ_INIT` gives the invariant, whatever the unit held. -/
theorem seqInv_seqInit (s : State) : SeqInv (effectOf .seqInit s).seq :=
  seqInv_iff.2 fun _ =>
    ⟨seqRanges_seqDefaults s.seq, seqArrays_regenGates (regenPalCv_pal _) (regenPalCv_cv _)⟩

/-- A setter stores a clamped value and regenerates just the arrays that depend on it; the cursor stays below the length. -/
theorem effectOf_keeps_seqInv (i : Instr) (s : State) (hu : unitOf i = .seq)
    (hi : (isInitCommand i || s.initOf (unitOf i)) = true) (ha : operandOk i = true) (h : SeqInv s.seq) :
    SeqInv (effectOf i s).seq := by
  rw [seqInv_iff] at h ⊢
  intro _
  cases i with
  | seqInit => exact seqInv_iff.1 (seqInv_seqInit s) rfl
  | seqSetLen n =>
    obtain ⟨⟨-, hcpx, -, hregs⟩, harrays⟩ := h hi
    have hlen := clampCount_range n
    have hcur := toNat_cursor_lt s.seq.cur.toNat hlen.1 hlen.2
    rw [← toNat_clampCount n] at hlen
    exact ⟨⟨hlen, hcpx, (toNat_clampCount n).symm ▸ hcur, hregs⟩, harrays⟩
  | seqSetComplexity n =>
    obtain ⟨⟨hlen, -, hregs⟩, hgate, -, -⟩ := h hi
    have hcpx := clampCount_range n
    rw [← toNat_clampCount n] at hcpx
    exact ⟨⟨hlen, hcpx, hregs⟩, seqArrays_regenPalCv hgate⟩
  | seqSetDensity d =>
    obtain ⟨⟨hlen, hcpx, hcur, -, hregs⟩, -, hpal, hcv⟩ := h hi
    exact ⟨⟨hlen, hcpx, hcur, clampUnit_within ha, hregs⟩, seqArrays_regenGates hpal hcv⟩
  | seqProcess =>
    obtain ⟨⟨hlen, hcpx, -, hregs⟩, harrays⟩ := h hi
    exact ⟨⟨hlen, hcpx, toNat_cursor_lt _ hlen.1 hlen.2, hregs⟩, harrays⟩
  | seqSetSpread x =>
    obtain ⟨⟨hlen, hcpx, hcur, hdensity, -, hbias⟩, hgate, hpal, -⟩ := h hi
    exact ⟨⟨hlen, hcpx, hcur, hdensity, clampUnit_within ha, hbias⟩, seqArrays_regenCv hgate hpal⟩
  | seqSetBias b =>
    obtain ⟨⟨hlen, hcpx, hcur, hdensity, hspread, -⟩, hgate, -, -⟩ := h hi
    exact ⟨⟨hlen, hcpx, hcur, hdensity, hspread, quantBias_form ha⟩, seqArrays_regenPalCv hgate⟩
  | seqSetCvSeed n =>
    obtain ⟨hranges, hgate, hpal, -⟩ := h hi
    exact ⟨hranges, seqArrays_regenCv hgate hpal⟩
  | seqSetPalSeed n =>
    obtain ⟨hranges, hgate, -, -⟩ := h hi
    exact ⟨hranges, seqArrays_regenPalCv hgate⟩
  | seqRegenCv =>
    obtain ⟨hranges, hgate, hpal, -⟩ := h hi
    exact ⟨hranges, seqArrays_regenCv hgate hpal⟩
  | seqReadCv idx => exact h hi
  | seqReadGates => exact h hi
  | _ => cases hu

/-- Settles O55: each command of the sequencer keeps the invariant. -/
theorem seqInvariantKept : Obligations.SeqInvariantKept := by
  unfold Obligations.SeqInvariantKept
  exact step_keeps_unit .seq SeqInv State.seq (fun _ _ _ => rfl) nofun effectOf_seq_of_ne effectOf_keeps_seqInv

end Sys2Proof.Machine
end

section
/-! PROOFS. What one word does: the operand test of its command, the two ways it can be answered, and the error bit. -/

namespace Sys2Proof.Machine

/-! ### The operand test (60_exceptions.md R225) -/

/-- `CMD[30:23] = 0xFF` is an infinity or a NaN. -/
theorem exponent_ones (b : BitVec 32) : (b.extractLsb' 23 8 == 0xFF#8) = !F32.isFinite ⟨b⟩ := by
  have hb := b.isLt
  rw [Bool.eq_iff_iff, beq_iff_eq, BitVec.toNat_eq, BitVec.extractLsb'_toNat, Bool.not_eq_true', ← Bool.not_eq_true,
    F32.isFinite_iff, Nat.shiftRight_eq_div_pow]
  simp only [F32.mag, infMag, BitVec.toNat_ofNat]
  omega

/-- The two causes of `BADARG` for a sample rate. -/
theorem not_acceptsRate (fs : F32) : (!acceptsRate fs) = (!fs.isFinite || fs.lt .one) := by
  simp [acceptsRate, cfg, F32.one]

/-- The test that the word's `BADARG` stands for is the command's own. -/
theorem operandRejected_encode (i : Instr) : operandRejected (encode i) = !operandOk i := by
  obtain ⟨hop, -, harg⟩ := Laws.encode_fields i
  rw [operandRejected, hop, harg]
  cases i with
  | oscInit fs | ladInit fs | envxInit fs | envlInit fs | metInit fs =>
    simp only [argOf, exponent_ones, operandOk, not_acceptsRate]
    simp [opcodeOf, f32Opcodes, rateOpcodes]
  | oscSetFreq x | oscPhaseAdd x | ladSetFreq x | ladSetRes x | ladProcess x | envxSetCtl x | envxSetKnob x | envlSetTime x
  | seqSetDensity x | seqSetSpread x | seqSetBias x | metSetFreq x =>
    simp only [argOf, exponent_ones, operandOk]
    simp [opcodeOf, f32Opcodes, rateOpcodes]
  | seqReadCv idx =>
    change decide (31 < idx.toNat) = !decide (idx.toNat ≤ 31)
    rw [← decide_not, decide_eq_decide, not_le]
  | _ => rfl

/-! ### An accepted and a refused command -/

theorem accepted_effectOf (i : Instr) (s : State) :
    Accepted (unitOf i) s ((effectOf i s).answer (opcodeOf i) .ok (dataOf i s)) (opcodeOf i) (dataOf i s) := by
  obtain ⟨hunits, herr, hport⟩ := effectOf_keeps i s
  exact ⟨answered_answer hport _ .ok _, hunits, herr⟩

/-- An `*_INIT` is accepted in every state, its operand apart. -/
theorem exec_init {i : Instr} (hinit : isInitCommand i = true) (hop : operandRejected (encode i) = false) (s : State) :
    exec i s = .next ((effectOf i s).answer (opcodeOf i) .ok (dataOf i s)) := by
  rw [operandRejected_encode] at hop
  exact exec_accepted (by simp [hinit]) (by simpa using hop)

theorem exec_refused_notInit {i : Instr} {s : State} (h : (isInitCommand i || s.initOf (unitOf i)) = false) :
    ∃ t, exec i s = .next t ∧ Refused s t (opcodeOf i) 0x02 := by
  rw [exec_eq, h, whenInit_false]
  exact refuse_spec s (opcodeOf i) .notInit

theorem stepOnWord_badCmd {w : CmdWord} {e : DecodeError} (h : decode w = .error e) (s : State) :
    stepOnWord s w = refuse w.op .badCmd s :=
  step_bad_command _ w e s.port.inbox rfl h

/-- What a next state after one command can be: the state with `ERR` set, or the command's effect. -/
theorem exec_next_cases {i : Instr} {s t : State} (h : exec i s = .next t) :
    (∃ c, c ≠ .ok ∧ t = ({ s with err := true } : State).answer (opcodeOf i) c 0#32) ∨
      t = (effectOf i s).answer (opcodeOf i) .ok (dataOf i s) := by
  rcases exec_next h with ⟨-, ht⟩ | ⟨-, -, ht⟩ | ⟨-, -, ht⟩
  · exact .inl ⟨.notInit, by decide, ht⟩
  · exact .inl ⟨.badArg, by decide, ht⟩
  · exact .inr ht

/-- The same for one word, of the 2^64. -/
theorem stepOnWord_cases {s t : State} {w : CmdWord} (h : stepOnWord s w = .next t) :
    (∃ op c, c ≠ .ok ∧ t = ({ s with err := true } : State).answer op c 0#32) ∨
      ∃ i, t = (effectOf i s).answer (opcodeOf i) .ok (dataOf i s) := by
  rcases hd : decode w with e | i
  · rw [stepOnWord_badCmd hd] at h
    exact .inl ⟨w.op, .badCmd, by decide, refuse_next h⟩
  · rw [stepOnWord_of_decode s hd] at h
    rcases exec_next_cases h with ⟨c, hc, ht⟩ | ht
    · exact .inl ⟨opcodeOf i, c, hc, ht⟩
    · exact .inr ⟨i, ht⟩

/-! ### The error bit (10_state.md R48; 60_exceptions.md R222) -/

theorem codeByte_eq_zero {c : OutcomeCode} : codeByte c = 0x00 ↔ c = .ok := by
  cases c <;> decide

/-- Every word is answered once, and `ERR` records whether its code is `OK`. -/
theorem stepOnWord_err {s t : State} {w : CmdWord} (h : stepOnWord s w = .next t) :
    ∃ r, t.port.rsp = some r ∧ t.port.log = s.port.log ++ [r] ∧ rspStatus r = t.status ∧
      (rspCode r = 0x00 → t.err = s.err) ∧ (rspCode r ≠ 0x00 → t.err = true) := by
  rcases stepOnWord_cases h with ⟨op, c, hc, rfl⟩ | ⟨i, rfl⟩
  · refine ⟨_, State.answer_rsp .., State.answer_log .., by simp, fun h0 => ?_, fun _ => rfl⟩
    rw [rspCode_rspWord, codeByte_eq_zero] at h0
    exact absurd h0 hc
  · obtain ⟨-, herr, hport⟩ := effectOf_keeps i s
    refine ⟨_, State.answer_rsp .., ?_, by simp, fun _ => herr, fun h0 => ?_⟩
    · rw [State.answer_log, hport]
    · rw [rspCode_rspWord] at h0
      exact absurd rfl h0

/-- A run answers with new words at the end of the log, and ends with `ERR` clear just when it began so and every one of
them has code `OK`. -/
theorem runWords_err (ws : List CmdWord) : ∀ s t : State, runWords s ws = .next t →
    ∃ rs, t.port.log = s.port.log ++ rs ∧ (t.err = false ↔ s.err = false ∧ ∀ r ∈ rs, rspCode r = 0x00) := by
  induction ws with
  | nil =>
    intro s t h
    rw [runWords_nil] at h
    cases h
    exact ⟨[], by simp, by simp⟩
  | cons w ws ih =>
    intro s t h
    obtain ⟨u, hu, hrun⟩ := runWords_cons s w ws
    obtain ⟨rs, hlog, herr⟩ := ih u t (hrun ▸ h)
    obtain ⟨r, -, hlog', -, hok, hbad⟩ := stepOnWord_err hu
    refine ⟨r :: rs, by rw [hlog, hlog', List.append_assoc, List.singleton_append], ?_⟩
    rw [herr, List.forall_mem_cons]
    by_cases hr : rspCode r = 0x00
    · simp [hok hr, hr]
    · exact ⟨fun ⟨hclear, _⟩ => Bool.noConfusion (hclear.symm.trans (hbad hr)),
        fun ⟨_, hr0, _⟩ => absurd hr0 hr⟩

/-- What a step that is no reset can do, the port apart: nothing, set `ERR`, or the effect of a command. -/
theorem step_cases_of_no_reset {s t : State} (hr : ∀ c rest, s.port.inbox ≠ .reset c :: rest) (h : step s = .next t) :
    ∃ p, t = { s with port := p } ∨ t = { s with err := true, port := p } ∨
      ∃ i, t = { effectOf i s with port := p } := by
  rcases step_next h with ⟨-, rfl⟩ | ⟨c, rest, hc, -⟩ | ⟨w, rest, i, -, -, hexec⟩ | ⟨w, rest, e, -, -, rfl⟩
  · exact ⟨_, .inl rfl⟩
  · exact absurd hc (hr c rest)
  · rcases exec_next_cases hexec with ⟨c, -, rfl⟩ | rfl
    · exact ⟨_, .inr (.inl rfl)⟩
    · rw [effectOf_port]
      exact ⟨_, .inr (.inr ⟨i, rfl⟩)⟩
  · exact ⟨_, .inr (.inl rfl)⟩

/-- No step but a reset clears `ERR`. -/
theorem step_keeps_err {s t : State} (he : s.err = true) (hr : ∀ c rest, s.port.inbox ≠ .reset c :: rest)
    (h : step s = .next t) : t.err = true := by
  obtain ⟨p, rfl | rfl | ⟨i, rfl⟩⟩ := step_cases_of_no_reset hr h
  · exact he
  · rfl
  · exact (effectOf_keeps i s).2.1.trans he

/-- Settles O10: each word by `stepOnWord_err`, the list by `runWords_err`. -/
theorem errBitIsSticky : Obligations.ErrBitIsSticky := by
  unfold Obligations.ErrBitIsSticky
  refine ⟨rfl, fun s t w r h hr => ?_, fun s t he hr h => step_keeps_err he hr h,
    fun s c rest hc => ⟨_, step_reset s c rest hc, rfl⟩, fun ws s t he h => ?_⟩
  · obtain ⟨r', hr', -, -, hok, hbad⟩ := stepOnWord_err h
    cases hr.symm.trans hr'
    exact ⟨hbad, hok⟩
  · obtain ⟨rs, hlog, herr⟩ := runWords_err ws s t h
    rw [hlog, List.drop_left, herr]
    simp only [he, true_and]

/-! ### The `init` bits (10_state.md R31) -/

/-- Neither the port nor `ERR` holds an `init` bit. -/
theorem initOf_port_err (s : State) (p : Port) (e : Bool) (u : UnitId) :
    ({ s with port := p, err := e } : State).initOf u = s.initOf u := by
  cases u <;> rfl

/-- No step but a reset clears an `init` bit. -/
theorem step_keeps_initOf {u : UnitId} {s t : State} (hu : s.initOf u = true)
    (hr : ∀ c rest, s.port.inbox ≠ .reset c :: rest) (h : step s = .next t) : t.initOf u = true := by
  obtain ⟨p, rfl | rfl | ⟨i, rfl⟩⟩ := step_cases_of_no_reset hr h
  · exact (initOf_port_err s p s.err u).trans hu
  · exact (initOf_port_err s p true u).trans hu
  · exact (initOf_port_err _ p _ u).trans (effectOf_keeps_initOf hu i)

/-- A command that is no `*_INIT` changes no `init` bit, accepted or refused. -/
theorem exec_initOf_of_not_init {i : Instr} {s t : State} (h : exec i s = .next t) (hi : isInitCommand i = false)
    (u : UnitId) : t.initOf u = s.initOf u := by
  rcases exec_next_cases h with ⟨c, -, rfl⟩ | rfl
  · exact initOf_port_err s _ true u
  · exact (initOf_port_err _ _ _ u).trans (effectOf_initOf_of_not_init hi s u)

/-- An accepted `*_INIT` leaves its unit initialised. -/
theorem answer_initOf_of_init {i : Instr} (hi : isInitCommand i = true) (s : State) (op : BitVec 8) (c : OutcomeCode)
    (d : BitVec 32) : ((effectOf i s).answer op c d).initOf (unitOf i) = true :=
  (initOf_port_err _ _ _ _).trans (effectOf_initOf_of_init hi s)

/-- Settles O14: what an effect makes of the bits, and the two refusals of `exec`. -/
theorem initBitLifecycle : Obligations.InitBitLifecycle := by
  unfold Obligations.InitBitLifecycle
  refine ⟨fun u hu => ?_, fun i s hi hop => ?_, fun u s t hu hr h => step_keeps_initOf hu hr h,
    fun i s t h hi u => exec_initOf_of_not_init h hi u, fun i s hs hi => exec_refused_notInit (by rw [hi, hs]; rfl)⟩
  · cases u with
    | control => exact absurd rfl hu
    | _ => rfl
  · exact ⟨_, _, exec_init hi hop s, accepted_effectOf i s, answer_initOf_of_init hi s _ _ _⟩

end Sys2Proof.Machine
end

section
/-! PROOFS. The flags and the `STATUS` view (10_state.md R34 to R36; 46_core_control.md), and where
every invariant begins. -/

namespace Sys2Proof.Machine

/-! ### The flags (10_state.md R35) -/

theorem effectOf_eoc_eor {i : Instr} (hp : i ≠ .oscProcess) (hi : ∀ fs, i ≠ .oscInit fs) (s : State) :
    (effectOf i s).osc.eoc = s.osc.eoc ∧ (effectOf i s).osc.eor = s.osc.eor := by
  by_cases hu : unitOf i = .osc
  · cases i with
    | oscInit fs => exact absurd rfl (hi fs)
    | oscProcess => exact absurd rfl hp
    | oscSetFreq _ | oscSetWave _ | oscPhaseAdd _ => exact ⟨rfl, rfl⟩
    | _ => cases hu
  · rw [effectOf_osc_of_ne hu]
    exact ⟨rfl, rfl⟩

theorem effectOf_tick {i : Instr} (hp : i ≠ .metProcess) (hi : ∀ fs, i ≠ .metInit fs) (s : State) :
    (effectOf i s).met.tick = s.met.tick := by
  by_cases hu : unitOf i = .met
  · cases i with
    | metInit fs => exact absurd rfl (hi fs)
    | metProcess => exact absurd rfl hp
    | metSetFreq _ | metReset | metGetPhase => rfl
    | _ => cases hu
  · rw [effectOf_met_of_ne hu]

theorem effectOf_gateflag {i : Instr} (hp : i ≠ .seqProcess) (hi : i ≠ .seqInit) (s : State) :
    (effectOf i s).seq.gateflag = s.seq.gateflag := by
  by_cases hu : unitOf i = .seq
  · cases i with
    | seqInit => exact absurd rfl hi
    | seqProcess => exact absurd rfl hp
    | seqSetLen _ | seqSetComplexity _ | seqSetDensity _ | seqSetSpread _ | seqSetBias _ | seqSetCvSeed _
    | seqSetPalSeed _ | seqRegenCv | seqReadCv _ | seqReadGates => rfl
    | _ => cases hu
  · rw [effectOf_seq_of_ne hu]

theorem effectOf_hold {i : Instr} (hk : ∀ x, i ≠ .envxSetKnob x) (hc : ∀ c, i ≠ .envxSetCtl c)
    (hi : ∀ fs, i ≠ .envxInit fs) (s : State) : (effectOf i s).envx.hold = s.envx.hold := by
  by_cases hu : unitOf i = .envx
  · cases i with
    | envxInit fs => exact absurd rfl (hi fs)
    | envxSetCtl c => exact absurd rfl (hc c)
    | envxSetKnob x => exact absurd rfl (hk x)
    | envxTrigger => rfl
    | envxProcess => simp only [effectOf]; split <;> rfl
    | _ => cases hu
  · rw [effectOf_envx_of_ne hu]

/-- A field that the port does not hold and that an effect leaves is left by the whole command: a refusal changes `ERR`
alone. -/
theorem exec_keeps {α : Type} (f : State → α) (hport : ∀ s p e, f { s with port := p, err := e } = f s) {i : Instr}
    {s t : State} (h : exec i s = .next t) (heffect : f (effectOf i s) = f s) : f t = f s := by
  rcases exec_next_cases h with ⟨c, -, rfl⟩ | rfl
  · exact hport s _ true
  · exact (hport _ _ _).trans heffect

/-- What an accepted `*_INIT` leaves. -/
theorem exec_init_next {i : Instr} {s t : State} (h : exec i s = .next t) (hinit : isInitCommand i = true)
    (hop : operandRejected (encode i) = false) : t = (effectOf i s).answer (opcodeOf i) .ok (dataOf i s) := by
  rw [exec_init hinit hop] at h
  injection h with h
  exact h.symm

/-- Settles O19: what the effects leave, by flag; then the four `*_INIT` that clear one. -/
theorem flagsWrittenOnlyByTheirCommands : Obligations.FlagsWrittenOnlyByTheirCommands := by
  unfold Obligations.FlagsWrittenOnlyByTheirCommands
  intro i s t h
  refine ⟨fun hp hi => ⟨?_, ?_⟩, fun hp hi => ?_, fun hp hi => ?_, fun hk hc hi => ?_,
    fun hop => ⟨?_, ?_, ?_, ?_⟩⟩
  · exact exec_keeps (·.osc.eoc) (fun _ _ _ => rfl) h (effectOf_eoc_eor hp hi s).1
  · exact exec_keeps (·.osc.eor) (fun _ _ _ => rfl) h (effectOf_eoc_eor hp hi s).2
  · exact exec_keeps (·.met.tick) (fun _ _ _ => rfl) h (effectOf_tick hp hi s)
  · exact exec_keeps (·.seq.gateflag) (fun _ _ _ => rfl) h (effectOf_gateflag hp hi s)
  · exact exec_keeps (·.envx.hold) (fun _ _ _ => rfl) h (effectOf_hold hk hc hi s)
  · rintro fs rfl
    cases exec_init_next h rfl hop
    exact ⟨rfl, rfl⟩
  · rintro fs rfl
    cases exec_init_next h rfl hop
    rfl
  · rintro rfl
    cases exec_init_next h rfl hop
    rfl
  · rintro fs rfl
    cases exec_init_next h rfl hop
    rfl

/-! ### `STATUS` (R34) and the global commands (46_core_control.md R210, R211) -/

theorem status_bits (s : State) :
    s.status.getLsbD 0 = s.osc.eoc ∧ s.status.getLsbD 1 = s.osc.eor ∧ s.status.getLsbD 2 = s.met.tick ∧
      s.status.getLsbD 3 = s.seq.gateflag ∧ s.status.getLsbD 4 = s.envx.hold ∧ s.status.getLsbD 5 = false ∧
      s.status.getLsbD 6 = false ∧ s.status.getLsbD 7 = s.err := by
  simp only [State.status, BitVec.getLsbD_append, BitVec.getLsbD_ofBool]
  simp

/-- A global opcode names a command without operand. -/
theorem instrOf_global {op : BitVec 8} (h : op = 0x00#8 ∨ op = 0x01#8) (arg : BitVec 32) :
    ∃ i, instrOf op arg = some i ∧ operandTypeOf i = .none := by
  rcases h with rfl | rfl
  · exact ⟨.nop, rfl, rfl⟩
  · exact ⟨.getStatus, rfl, rfl⟩

/-- A global opcode with any other bit set is no command. -/
theorem decode_global_error {w : CmdWord} (hop : w.op = 0x00#8 ∨ w.op = 0x01#8)
    (hbits : w.rsv ≠ 0#24 ∨ w.arg ≠ 0#32) :
    ∃ e, decode w = .error e := by
  obtain ⟨i, hi, htype⟩ := instrOf_global hop w.arg
  by_cases hrsv : w.rsv = 0#24
  · exact ⟨.strayOperand, by simp [decode, hi, htype, hrsv, hbits.resolve_left (not_not.2 hrsv)]⟩
  · exact ⟨.reservedField, by simp [decode, hi, hrsv]⟩

/-- Every word is answered. -/
theorem stepOnWord_next (s : State) (w : CmdWord) : ∃ t, stepOnWord s w = .next t := by
  obtain ⟨t, ht, -⟩ := stepOnWord_inbox s w []
  exact ⟨t, ht⟩

/-- Settles O20: the bits one by one, then the two commands, then the response of every word. -/
theorem statusAndGlobalCommands : Obligations.StatusAndGlobalCommands := by
  unfold Obligations.StatusAndGlobalCommands
  refine ⟨fun s => ?_, by decide, by decide, fun s w => ?_⟩
  · obtain ⟨h0, h1, h2, h3, h4, h5, h6, h7⟩ := status_bits s
    exact ⟨h0, h1, h2, h3, h4, h5, h6, h7, rfl, ⟨_, exec_accepted rfl rfl, accepted_effectOf .getStatus s⟩,
      ⟨_, exec_accepted rfl rfl, accepted_effectOf .nop s⟩⟩
  · obtain ⟨t, ht⟩ := stepOnWord_next s w
    obtain ⟨r, hr, -, hstatus, -⟩ := stepOnWord_err ht
    refine ⟨t, r, ht, hr, hstatus, fun hop hbits => ?_⟩
    obtain ⟨e, he⟩ := decode_global_error hop hbits
    obtain ⟨t', ht', hrefused⟩ := refuse_spec s w.op .badCmd
    rw [stepOnWord_badCmd he, ht'] at ht
    cases ht
    exact hrefused

/-! ### Where the invariants begin (R38, R40, R43, R45, R47) -/

/-- After reset no unit is initialised: the invariants say nothing yet. -/
theorem inv_reset : Inv .reset := ⟨nofun, nofun, nofun, nofun, nofun, nofun⟩

/-- Settles O60: each unit's own `*_INIT`. -/
theorem invariantsHoldAtResetAndInit : Obligations.InvariantsHoldAtResetAndInit := by
  unfold Obligations.InvariantsHoldAtResetAndInit
  refine ⟨inv_reset, nofun, fun i s t hi hop h => ?_⟩
  cases exec_init_next h hi hop
  have hok : operandOk i = true := by simpa [operandRejected_encode] using hop
  have hbit := answer_initOf_of_init hi s (opcodeOf i) .ok (dataOf i s)
  cases i with
  | oscInit fs => exact ⟨hbit, fun _ => oscInv_oscInit hok s, nofun, nofun, nofun, nofun, nofun⟩
  | ladInit fs => exact ⟨hbit, nofun, fun _ => ladInv_ladInit hok s, nofun, nofun, nofun, nofun⟩
  | envxInit fs => exact ⟨hbit, nofun, nofun, fun _ => envxInv_envxInit hok s, nofun, nofun, nofun⟩
  | envlInit fs => exact ⟨hbit, nofun, nofun, nofun, fun _ => envlInv_envlInit hok s, nofun, nofun⟩
  | seqInit => exact ⟨hbit, nofun, nofun, nofun, nofun, fun _ => seqInv_seqInit s, nofun⟩
  | metInit fs => exact ⟨hbit, nofun, nofun, nofun, nofun, nofun, fun _ => metInv_metInit hok s⟩
  | _ => cases hi

end Sys2Proof.Machine
end

section
/-! PROOFS. The memory's guarantees to the host (20_memory.md): a list of commands is answered in its order, one response
each (R68), and a setter issued twice leaves what it leaves once (R65). -/

namespace Sys2Proof.Machine

/-! ### One response for each word (R68; 30_encoding.md R84) -/

/-- The opcode map files every command under its own opcode (30_encoding.md R80). -/
theorem opcodeOf_instrOf {op : BitVec 8} {arg : BitVec 32} {i : Instr} (h : instrOf op arg = some i) :
    opcodeOf i = op := by
  unfold instrOf at h
  split at h <;> cases h
  all_goals
    next hop => exact BitVec.eq_of_toNat_eq hop.symm

/-- A word decodes to a command of the word's own opcode. -/
theorem opcodeOf_of_decode {w : CmdWord} {i : Instr} (h : decode w = .ok i) : opcodeOf i = w.op := by
  unfold decode at h
  rcases hj : instrOf w.op w.arg with _ | j <;> simp only [hj] at h
  · cases h
  · split_ifs at h
    cases h
    exact opcodeOf_instrOf hj

/-- A command, accepted or refused, appends one response, and it echoes the command's opcode. -/
theorem exec_log {i : Instr} {s t : State} (h : exec i s = .next t) :
    ∃ r, t.port.log = s.port.log ++ [r] ∧ rspOp r = opcodeOf i := by
  rcases exec_next_cases h with ⟨c, -, rfl⟩ | rfl
  · exact ⟨_, State.answer_log .., rspOp_rspWord ..⟩
  · obtain ⟨-, -, hport⟩ := effectOf_keeps i s
    exact ⟨_, by rw [State.answer_log, hport], rspOp_rspWord ..⟩

/-- A word appends one response, and it echoes the word's opcode, even where that is no command's. -/
theorem stepOnWord_log {s t : State} {w : CmdWord} (h : stepOnWord s w = .next t) :
    ∃ r, t.port.log = s.port.log ++ [r] ∧ rspOp r = w.op := by
  rcases hd : decode w with e | i
  · rw [stepOnWord_badCmd hd] at h
    cases refuse_next h
    exact ⟨_, State.answer_log .., rspOp_rspWord ..⟩
  · rw [stepOnWord_of_decode s hd] at h
    obtain ⟨r, hlog, hop⟩ := exec_log h
    exact ⟨r, hlog, hop.trans (opcodeOf_of_decode hd)⟩

/-! ### A list of words (R68; 70_reset_and_hazards.md R243) -/

/-- A run takes every word and answers them in their order. -/
theorem runWords_answers (s : State) (ws : List CmdWord) :
    ∃ t rs, runWords s ws = .next t ∧ t.port.inbox = [] ∧ t.port.log = s.port.log ++ rs ∧
      rs.map rspOp = ws.map CmdWord.op := by
  induction ws generalizing s with
  | nil => exact ⟨_, [], runWords_nil s, rfl, (List.append_nil _).symm, rfl⟩
  | cons w ws ih =>
    obtain ⟨u, hu, hrun⟩ := runWords_cons s w ws
    obtain ⟨r, hlog, hop⟩ := stepOnWord_log hu
    obtain ⟨t, rs, ht, hinbox, hlogs, hops⟩ := ih u
    refine ⟨t, r :: rs, hrun.trans ht, hinbox, ?_, ?_⟩
    · rw [hlogs, hlog, List.append_assoc, List.singleton_append]
    · rw [List.map_cons, List.map_cons, hop, hops]

/-- A run of one list after another goes on from where the first one ended. -/
theorem runWords_append {s t : State} {ws : List CmdWord} (h : runWords s ws = .next t) (vs : List CmdWord) :
    runWords s (ws ++ vs) = runWords t vs := by
  induction ws generalizing s with
  | nil =>
    rw [runWords_nil] at h
    cases h
    exact (runWords_inbox s [] vs).symm
  | cons w ws ih =>
    obtain ⟨u, hu, hrun⟩ := runWords_cons s w ws
    obtain ⟨u', hu', hrun'⟩ := runWords_cons s w (ws ++ vs)
    cases hu.symm.trans hu'
    exact hrun'.trans (ih (hrun ▸ h))

/-- A run of one word is its step, where the host had nothing else in mind. -/
theorem runWords_singleton {s : State} (h : s.port.inbox = []) (w : CmdWord) : runWords s [w] = stepOnWord s w := by
  obtain ⟨t, ht, hrun⟩ := runWords_cons s w []
  obtain ⟨t', ht', hinbox, -⟩ := stepOnWord_inbox s w []
  cases ht.symm.trans ht'
  rw [hrun, ht, runWords_nil, ← hinbox.trans h]

/-- Settles O11: the list by `runWords_answers`, one word more by `runWords_append`. -/
theorem commandListAnsweredInOrder : Obligations.CommandListAnsweredInOrder := by
  unfold Obligations.CommandListAnsweredInOrder
  intro s ws
  obtain ⟨t, rs, hrun, hinbox, hlog, hops⟩ := runWords_answers s ws
  exact ⟨t, rs, hrun, hinbox, hlog, hops, fun w => (runWords_append hrun [w]).trans (runWords_singleton hinbox w)⟩

/-! ### Setters (R65) -/

theorem isInitCommand_of_isSetter {i : Instr} (h : isSetter i = true) : isInitCommand i = false := by
  cases i with
  | oscInit _ | ladInit _ | envxInit _ | envlInit _ | seqInit | metInit _ => cases h
  | _ => rfl

/-- A cursor reduced by a length is not changed by reducing it again: it passes through its 5-bit register whole. -/
theorem toNat_cursor_mod (a : Nat) {len : Nat} (h1 : 1 ≤ len) (h32 : len ≤ 32) :
    (BitVec.ofNat 5 (a % len)).toNat % len = a % len := by
  have hlt := Nat.mod_lt a h1
  rw [BitVec.toNat_ofNat, Nat.mod_eq_of_lt (a := a % len) (by omega), Nat.mod_mod]

/-- A setter stores values that depend on its operand and on registers that it does not write; the arrays it regenerates
are functions of the registers. -/
theorem effectOf_setter_twice {i : Instr} (h : isSetter i = true) (s : State) :
    effectOf i (effectOf i s) = effectOf i s := by
  cases i with
  | envxSetKnob x => simp only [effectOf]; split <;> rfl
  | seqSetLen n =>
    obtain ⟨h1, h32⟩ : 1 ≤ clampCount cfg.seqLenMin cfg.seqLenMax n ∧ clampCount cfg.seqLenMin cfg.seqLenMax n ≤ 32 :=
      clampCount_range n
    simp only [effectOf, toNat_cursor_mod _ h1 h32]
  | oscSetFreq _ | oscSetWave _ | ladSetFreq _ | ladSetRes _ | ladSetMode _ | envxSetCtl _ | envlSetTime _
  | seqSetComplexity _ | seqSetDensity _ | seqSetSpread _ | seqSetBias _ | seqSetCvSeed _ | seqSetPalSeed _
  | metSetFreq _ => rfl
  | _ => cases h

/-- The datum of a setter does not depend on what the setter writes; `ENVX_SETKNOB` in the centre zone answers with the
coefficient that it leaves. -/
theorem dataOf_setter_twice {i : Instr} (h : isSetter i = true) (s : State) :
    dataOf i (effectOf i s) = dataOf i s := by
  cases i with
  | envxSetKnob x => simp only [dataOf, effectOf]; split <;> rfl
  | oscSetFreq _ | oscSetWave _ | ladSetFreq _ | ladSetRes _ | ladSetMode _ | envxSetCtl _ | envlSetTime _
  | seqSetLen _ | seqSetComplexity _ | seqSetDensity _ | seqSetSpread _ | seqSetBias _ | seqSetCvSeed _
  | seqSetPalSeed _ | metSetFreq _ => rfl
  | _ => cases h

/-- A response holds no `init` bit. -/
theorem initOf_answer (s : State) (op : BitVec 8) (c : OutcomeCode) (d : BitVec 32) (u : UnitId) :
    (s.answer op c d).initOf u = s.initOf u :=
  initOf_port_err s _ s.err u

/-- A refusal changes no `init` bit. -/
theorem initOf_refused (s : State) (op : BitVec 8) (c : OutcomeCode) (d : BitVec 32) (u : UnitId) :
    (({ s with err := true } : State).answer op c d).initOf u = s.initOf u :=
  initOf_port_err s _ true u

/-- A command's datum does not depend on the responses given. -/
theorem dataOf_answer (i : Instr) (s : State) (op : BitVec 8) (c : OutcomeCode) (d : BitVec 32) :
    dataOf i (s.answer op c d) = dataOf i s :=
  dataOf_port i s _

/-- A state that a command's effect does not change is not changed by it after a response either. -/
theorem effectOf_answer_of_fixed {i : Instr} {s : State} (h : effectOf i s = s) (op : BitVec 8) (c : OutcomeCode)
    (d : BitVec 32) : effectOf i (s.answer op c d) = s.answer op c d := by
  refine (effectOf_port i s _).trans ?_
  rw [h]
  rfl

/-- The second issue of a setter passes the tests that the first one passed, and only answers the state that the first
one left, with the same code and datum. -/
theorem exec_setter_twice {i : Instr} (h : isSetter i = true) (s : State) :
    ∃ a c d, exec i s = .next a ∧ a.port.rsp = some (rspWord (opcodeOf i) c a.status d) ∧
      exec i a = .next (a.answer (opcodeOf i) c d) := by
  rcases hi : isInitCommand i || s.initOf (unitOf i) with _ | _
  · exact ⟨_, _, _, exec_not_init hi, rfl, exec_not_init (by rw [initOf_refused, hi])⟩
  rcases ha : operandOk i with _ | _
  · exact ⟨_, _, _, exec_bad_arg hi ha, rfl, exec_bad_arg (by rw [initOf_refused, hi]) ha⟩
  · refine ⟨_, _, _, exec_accepted hi ha, rfl, ?_⟩
    have hbit := effectOf_initOf_own (isInitCommand_of_isSetter h) s
    rw [exec_accepted (by rw [initOf_answer, hbit, hi]) ha, effectOf_answer_of_fixed (effectOf_setter_twice h s),
      dataOf_answer, dataOf_setter_twice h]

/-- Settles O18: the second issue answers the state of the first again. -/
theorem settersAreIdempotent : Obligations.SettersAreIdempotent := by
  unfold Obligations.SettersAreIdempotent
  intro i s h
  obtain ⟨a, c, d, ha, hrsp, hb⟩ := exec_setter_twice h s
  exact ⟨a, _, _, _, ha, hb, by simp [SameUnits, KeepsUnitsBut], rfl, hrsp, State.answer_rsp .., rfl, rfl⟩

end Sys2Proof.Machine
end

section
/-! PROOFS. The encoding (30_encoding.md): a command and its word determine each other (R76, R77, R80, R82), and the two
decode predicates (R83). -/

namespace Sys2Proof.Machine

/-! ### A word and its three fields (R76) -/

/-- Fields laid side by side are read back one by one. -/
theorem append_eq_append_iff {m n : Nat} {a c : BitVec m} {b d : BitVec n} : a ++ b = c ++ d ↔ a = c ∧ b = d := by
  refine ⟨fun h => ?_, fun ⟨hac, hbd⟩ => hac ▸ hbd ▸ rfl⟩
  have hhigh := congrArg (BitVec.extractLsb' n m) h
  have hlow := congrArg (BitVec.extractLsb' 0 n) h
  rw [BitVec.extractLsb'_append_eq_left, BitVec.extractLsb'_append_eq_left] at hhigh
  rw [BitVec.extractLsb'_append_eq_right, BitVec.extractLsb'_append_eq_right] at hlow
  exact ⟨hhigh, hlow⟩

/-- A word is its opcode, its reserved field and its operand field. -/
theorem cmdWord_append_fields (w : CmdWord) : w.op ++ w.rsv ++ w.arg = w := by
  ext k hk
  simp only [CmdWord.op, CmdWord.rsv, CmdWord.arg, BitVec.getElem_append, BitVec.getElem_extractLsb']
  grind

/-- The word of a command, by its fields. -/
theorem encode_eq_iff {i : Instr} {w : CmdWord} :
    encode i = w ↔ opcodeOf i = w.op ∧ w.rsv = 0#24 ∧ argOf i = w.arg := by
  conv_lhs => rw [← cmdWord_append_fields w, encode, append_eq_append_iff, append_eq_append_iff, and_assoc]
  rw [eq_comm (a := 0#24)]

/-! ### The round trips (R76, R77, R80, R82, R83) -/

/-- The opcode map takes the operand of a command from the field `arg`, where the command has one. -/
theorem argOf_instrOf {op : BitVec 8} {arg : BitVec 32} {i : Instr} (h : instrOf op arg = some i)
    (htype : operandTypeOf i ≠ .none) : argOf i = arg := by
  cases opcodeOf_instrOf h
  cases i with
  | nop | getStatus | oscProcess | envxTrigger | envxProcess | envlTrigger | envlProcess | seqInit | seqProcess
  | seqRegenCv | seqReadGates | metReset | metProcess | metGetPhase => exact absurd rfl htype
  | _ => cases h; rfl

/-- What the three checks of the decoder leave of a word that passes them. -/
theorem checks_of_decode {w : CmdWord} {i : Instr} (h : decode w = .ok i) :
    instrOf w.op w.arg = some i ∧ w.rsv = 0#24 ∧ (operandTypeOf i = .none → w.arg = 0#32) := by
  unfold decode at h
  rcases hj : instrOf w.op w.arg with _ | j <;> simp only [hj] at h
  · cases h
  · split_ifs at h with hrsv hstray
    cases h
    exact ⟨rfl, not_not.1 hrsv, fun htype => not_not.1 fun harg => hstray ⟨htype, harg⟩⟩

/-- The encoder writes the word that was decoded: the operand field holds the operand, or zero where there is none. -/
theorem encode_of_decode {w : CmdWord} {i : Instr} (h : decode w = .ok i) : encode i = w := by
  obtain ⟨hinstr, hrsv, hzero⟩ := checks_of_decode h
  refine encode_eq_iff.2 ⟨opcodeOf_instrOf hinstr, hrsv, ?_⟩
  by_cases htype : operandTypeOf i = .none
  · rw [argOf_eq_zero htype, hzero htype]
  · exact argOf_instrOf hinstr htype

/-- The words that decode are those of the commands, one word for each. -/
theorem decode_eq_ok_iff {w : CmdWord} {i : Instr} : decode w = .ok i ↔ encode i = w :=
  ⟨encode_of_decode, fun h => h ▸ decode_encode i⟩

/-- Settles O1: none of the decoder's checks fails on an encoded command. -/
theorem decodeInvertsEncode : Obligations.DecodeInvertsEncode := by
  unfold Obligations.DecodeInvertsEncode
  exact decode_encode

/-- Settles O2: field by field. -/
theorem encodeInvertsDecode : Obligations.EncodeInvertsDecode := by
  unfold Obligations.EncodeInvertsDecode
  exact fun w i => encode_of_decode

/-! ### The decode predicates (R83) -/

/-- An opcode in its place, `op << 56`, leaves the other two fields zero. -/
theorem opcode_shiftLeft (op : BitVec 8) : op.setWidth 64 <<< 56 = op ++ 0#24 ++ 0#32 := by
  ext k hk
  simp only [BitVec.getElem_shiftLeft]
  grind

/-- The mask of the high 32 bits keeps the opcode and the reserved field. -/
theorem highMask_and (w : CmdWord) : w &&& 0xFFFFFFFF00000000#64 = w.op ++ w.rsv ++ 0#32 := by
  have hmask : 0xFFFFFFFF00000000#64 = BitVec.allOnes 8 ++ BitVec.allOnes 24 ++ 0#32 := by decide
  conv_lhs => rw [hmask, ← cmdWord_append_fields w]
  rw [BitVec.and_append, BitVec.and_append, BitVec.and_allOnes, BitVec.and_allOnes, BitVec.and_zero]

/-- The high 32 bits of a word are an opcode and a zero reserved field. -/
theorem highMask_and_eq_iff {w : CmdWord} {op : BitVec 8} :
    w &&& 0xFFFFFFFF00000000#64 = op.setWidth 64 <<< 56 ↔ w.op = op ∧ w.rsv = 0#24 := by
  rw [highMask_and, opcode_shiftLeft, BitVec.append_left_inj, append_eq_append_iff]

/-- The word of a command without operand is its opcode in its place. -/
theorem encode_of_none {i : Instr} (h : operandTypeOf i = .none) : encode i = (opcodeOf i).setWidth 64 <<< 56 := by
  rw [encode, argOf_eq_zero h, opcode_shiftLeft]

/-- The operand type goes with the opcode, whatever the operand field holds (R77, R80). -/
theorem instrOf_opcodeOf_any (i : Instr) (arg : BitVec 32) :
    ∃ j, instrOf (opcodeOf i) arg = some j ∧ operandTypeOf j = operandTypeOf i := by
  cases i <;> exact ⟨_, rfl, rfl⟩

/-- A command without operand, its operand field not zero. -/
theorem decode_strayOperand {i : Instr} (htype : operandTypeOf i = .none) {w : CmdWord} (hop : w.op = opcodeOf i)
    (hrsv : w.rsv = 0#24) (harg : w.arg ≠ 0#32) : decode w = .error .strayOperand := by
  obtain ⟨j, hj, hjtype⟩ := instrOf_opcodeOf_any i w.arg
  simp [decode, hop, hj, hjtype.trans htype, hrsv, harg]

/-- A command with an operand takes any operand field: the high half of the word alone decides. -/
theorem decode_opcode_iff {i : Instr} (htype : operandTypeOf i ≠ .none) {w : CmdWord} :
    (∃ j, opcodeOf j = opcodeOf i ∧ decode w = .ok j) ↔ w.op = opcodeOf i ∧ w.rsv = 0#24 := by
  constructor
  · rintro ⟨j, hop, hd⟩
    obtain ⟨-, hrsv, -⟩ := checks_of_decode hd
    exact ⟨(opcodeOf_of_decode hd).symm.trans hop, hrsv⟩
  · rintro ⟨hop, hrsv⟩
    obtain ⟨j, hj, hjtype⟩ := instrOf_opcodeOf_any i w.arg
    have hjop := opcodeOf_instrOf hj
    refine ⟨j, hjop, decode_eq_ok_iff.2 (encode_eq_iff.2 ⟨hjop.trans hop.symm, hrsv, ?_⟩)⟩
    exact argOf_instrOf hj (hjtype ▸ htype)

/-- Settles O4: the whole word for a command without operand, the high half for one with an operand. -/
theorem decodePredicates : Obligations.DecodePredicates := by
  unfold Obligations.DecodePredicates
  intro i w
  have hall : 0xFFFFFFFFFFFFFFFF#64 = BitVec.allOnes 64 := rfl
  refine ⟨fun htype => ?_, fun htype s hop hrsv harg => ?_, fun htype => ?_⟩
  · rw [hall, BitVec.and_allOnes, ← encode_of_none htype, decode_eq_ok_iff, eq_comm]
  · rw [stepOnWord_badCmd (decode_strayOperand htype hop hrsv harg)]
    exact refuse_spec s w.op .badCmd
  · rw [highMask_and_eq_iff, decode_opcode_iff htype]

/-- Settles O5: the eight words are those of their commands; the three refusals compute. -/
theorem specWordsDecode : Obligations.SpecWordsDecode := by
  unfold Obligations.SpecWordsDecode
  exact ⟨decode_encode .nop, decode_encode (.oscInit ⟨0x473B8000#32⟩), decode_encode (.oscSetWave 6#32),
    decode_encode (.ladSetRes ⟨0x3FE66666#32⟩), decode_encode .envxTrigger,
    decode_encode (.envlSetTime ⟨0x3F800000#32⟩), decode_encode (.seqReadCv 8#32),
    decode_encode (.metSetFreq ⟨0x40000000#32⟩), rfl, rfl, rfl⟩

end Sys2Proof.Machine
end

section
/-! PROOFS. A command and its unit (30_encoding.md R79; 10_state.md R30; 70_reset_and_hazards.md R244): it writes no
other unit, and it reads no other. -/

namespace Sys2Proof.Machine

/-! ### What a command writes -/

/-- A response, or a refusal's `ERR` bit, is in no unit. -/
theorem sameUnits_port_err (s : State) (p : Port) (e : Bool) : SameUnits s { s with port := p, err := e } :=
  ⟨fun _ => rfl, fun _ => rfl, fun _ => rfl, fun _ => rfl, fun _ => rfl, fun _ => rfl⟩

/-- What keeps every unit keeps every unit but one. -/
theorem SameUnits.keepsUnitsBut {s t : State} (h : SameUnits s t) (u : UnitId) : KeepsUnitsBut u s t := by
  obtain ⟨hosc, hlad, henvx, henvl, hseq, hmet⟩ := h
  exact ⟨fun _ => hosc nofun, fun _ => hlad nofun, fun _ => henvx nofun, fun _ => henvl nofun, fun _ => hseq nofun,
    fun _ => hmet nofun⟩

/-- Settles O15: a refusal sets `ERR` alone, and an effect keeps the other units. -/
theorem commandsWriteOnlyTheirUnit : Obligations.CommandsWriteOnlyTheirUnit := by
  unfold Obligations.CommandsWriteOnlyTheirUnit
  intro i s
  obtain ⟨t, h, hinbox, -⟩ := exec_inbox i s []
  refine ⟨t, h, ?_⟩
  rcases exec_next_cases h with ⟨c, -, rfl⟩ | rfl
  · exact ⟨(sameUnits_port_err s _ true).keepsUnitsBut _, .inr rfl, hinbox⟩
  · obtain ⟨-, hunits, herr⟩ := accepted_effectOf i s
    exact ⟨hunits, .inl herr, hinbox⟩

/-! ### What a command reads -/

/-- Neither the port nor `ERR` belongs to a unit. -/
theorem SameUnit.port_err {u : UnitId} {s s' : State} (h : SameUnit u s s') (p p' : Port) (e e' : Bool) :
    SameUnit u { s with port := p, err := e } { s' with port := p', err := e' } := by
  cases u <;> exact h

/-- The `init` bit of a unit is in the unit. -/
theorem SameUnit.initOf_eq {u : UnitId} {s s' : State} (h : SameUnit u s s') : s.initOf u = s'.initOf u := by
  cases u with
  | control => rfl
  | osc => exact congrArg OscState.init h
  | lad => exact congrArg LadState.init h
  | envx => exact congrArg EnvxState.init h
  | envl => exact congrArg EnvlState.init h
  | seq => exact congrArg SeqState.init h
  | met => exact congrArg MetState.init h

/-- The effect and the datum of a command are made of the registers and arrays of its own unit. -/
theorem effectOf_dataOf_of_sameUnit {i : Instr} (hu : unitOf i ≠ .control) {s s' : State}
    (h : SameUnit (unitOf i) s s') :
    SameUnit (unitOf i) (effectOf i s) (effectOf i s') ∧ dataOf i s = dataOf i s' := by
  cases i with
  | nop | getStatus => exact absurd rfl hu
  | envxSetKnob _ | envxProcess | metProcess =>
    simp only [SameUnit, unitOf] at h
    simp only [SameUnit, unitOf, effectOf, dataOf, h, and_true]
    split <;> simp only [h]
  | _ =>
    simp only [SameUnit, unitOf] at h
    simp only [SameUnit, unitOf, effectOf, dataOf, h, and_self]

/-- Two states that agree on a command's unit pass the same tests, so the two answers have one code and one datum. -/
theorem exec_of_sameUnit {i : Instr} (hu : unitOf i ≠ .control) {s s' : State} (h : SameUnit (unitOf i) s s') :
    ∃ a a' c d, exec i s = .next (a.answer (opcodeOf i) c d) ∧ exec i s' = .next (a'.answer (opcodeOf i) c d) ∧
      SameUnit (unitOf i) a a' := by
  have hinit : (isInitCommand i || s'.initOf (unitOf i)) = (isInitCommand i || s.initOf (unitOf i)) := by
    rw [h.initOf_eq]
  rcases hi : isInitCommand i || s.initOf (unitOf i) with _ | _
  · exact ⟨_, _, _, _, exec_not_init hi, exec_not_init (hinit.trans hi), h.port_err _ _ true true⟩
  rcases ha : operandOk i with _ | _
  · exact ⟨_, _, _, _, exec_bad_arg hi ha, exec_bad_arg (hinit.trans hi) ha, h.port_err _ _ true true⟩
  · obtain ⟨heffect, hdata⟩ := effectOf_dataOf_of_sameUnit hu h
    exact ⟨_, _, _, _, exec_accepted hi ha, hdata ▸ exec_accepted (hinit.trans hi) ha, heffect⟩

/-- Settles O16: both answers are those of `exec_of_sameUnit`, and a response is in no unit. -/
theorem commandsReadOnlyTheirUnit : Obligations.CommandsReadOnlyTheirUnit := by
  unfold Obligations.CommandsReadOnlyTheirUnit
  intro i s s' t t' r r' hu h ht ht' hr hr'
  obtain ⟨a, a', c, d, ha, ha', hsame⟩ := exec_of_sameUnit hu h
  cases ht.symm.trans ha
  cases ht'.symm.trans ha'
  cases hr.symm.trans (State.answer_rsp ..)
  cases hr'.symm.trans (State.answer_rsp ..)
  exact ⟨hsame.port_err _ _ a.err a'.err, by rw [rspCode_rspWord, rspCode_rspWord],
    by rw [rspData_rspWord, rspData_rspWord]⟩

end Sys2Proof.Machine
end

section
/-! PROOFS. What every unit's results rest on: the one state that an accepted command leaves, the refusal of an operand, and
sums and differences of finite numbers by value. -/

namespace Sys2Proof.Machine

/-! ### The answer to a command (60_exceptions.md R225, R226) -/

/-- An accepted command has one outcome. -/
theorem exec_accepted_next {i : Instr} {s t : State} (h : exec i s = .next t)
    (hi : (isInitCommand i || s.initOf (unitOf i)) = true) (ha : operandOk i = true) :
    t = (effectOf i s).answer (opcodeOf i) .ok (dataOf i s) := by
  rw [exec_accepted hi ha] at h
  injection h with h
  exact h.symm

theorem exec_refused_badArg {i : Instr} {s : State} (hi : (isInitCommand i || s.initOf (unitOf i)) = true)
    (ha : operandOk i = false) : ∃ t, exec i s = .next t ∧ Refused s t (opcodeOf i) 0x03 := by
  rw [exec_eq, hi, ha, whenInit_true, whenAccepted_false]
  exact refuse_spec s (opcodeOf i) .badArg

/-- The rates that an `*_INIT` accepts: finite and at least 1. -/
theorem acceptsRate_iff {fs : F32} : acceptsRate fs = true ↔ fs.isFinite = true ∧ F32.one.le fs = true := by
  refine ⟨rateOk_of_accepts, fun ⟨hfin, hle⟩ => ?_⟩
  have hlt : fs.lt .one = false := (F32.lt_eq_false_iff (F32.not_nan_of_finite hfin) (by decide)).2 hle
  rw [← Bool.not_inj_iff, not_acceptsRate, hfin, hlt]
  rfl

/-! ### Sums and differences by value (00_scope.md R15) -/

/-- A number of sign plus comes back from its own value, `+0.0` too where the sum's zero is `+0.0`. -/
theorem roundUnits_self {x : F32} (hx : x.isFinite = true) (hs : x.sign = false) : roundUnits x.units false = x := by
  have hmag : x.mag ≤ infMag := F32.not_nan_iff.1 (F32.not_nan_of_finite hx)
  have hnonneg : 0 ≤ x.units := by simp [F32.units, hs]
  exact F32.eq_of_key (roundUnits_key_exact hmag rfl) (.inr ((roundUnits_sign_of_nonneg hnonneg).trans hs.symm))

theorem add_of_isZero {p d : F32} (hp : p.isFinite = true) (hs : p.sign = false) (hd : d.isFinite = true)
    (hz : d.isZero = true) : p.add d = p := by
  rw [F32.add_finite hp hd, F32.units_eq_zero.2 (F32.isZero_iff.1 hz), hs, Bool.false_and, add_zero]
  exact roundUnits_self hp hs

section
variable {p d : F32} (hp : p.isFinite = true) (hd : d.isFinite = true)
include hp hd

theorem add_not_nan : (p.add d).isNaN = false := by
  rw [F32.add_finite hp hd]
  exact roundUnits_not_nan _ _

theorem sub_not_nan : (p.sub d).isNaN = false := by
  rw [F32.sub_finite hp hd]
  exact roundUnits_not_nan _ _

/-- A sum is rounded, but never past its first addend. -/
theorem add_units_le (h : d.units ≤ 0) : (p.add d).units ≤ p.units := by
  rw [F32.add_finite hp hd]
  exact F32.units_le_iff.2 (roundUnits_le (F32.not_nan_iff.1 (F32.not_nan_of_finite hp)) (by omega))

/-- Nor past its second. -/
theorem le_add_units (h : 0 ≤ p.units) : d.units ≤ (p.add d).units := by
  rw [F32.add_finite hp hd]
  exact F32.units_le_iff.2 (le_roundUnits (F32.not_nan_iff.1 (F32.not_nan_of_finite hd)) (by omega))

theorem le_sub_units (h : d.units ≤ 0) : p.units ≤ (p.sub d).units := by
  rw [F32.sub_finite hp hd]
  exact F32.units_le_iff.2 (le_roundUnits (F32.not_nan_iff.1 (F32.not_nan_of_finite hp)) (by omega))

end

/-- A finite number less an infinity is the opposite infinity. -/
theorem sub_of_isInf {p d : F32} (hp : p.isFinite = true) (hd : d.isInf = true) : p.sub d = d.neg := by
  have hmag : d.neg.mag = infMag := (F32.mag_neg d).trans (F32.isInf_iff.1 hd)
  have hinf : d.neg.isInf = true := F32.isInf_iff.2 hmag
  have hnan : d.neg.isNaN = false := F32.not_nan_iff.2 hmag.le
  simp [F32.sub, F32.addNum, F32.not_nan_of_finite hp, F32.not_inf_of_finite hp, hinf, hnan]

end Sys2Proof.Machine
end

section
/-! PROOFS. The oscillator (40_oscillator.md): its initialisation and setters (R101 to R104), the polyBLEP correction (R105),
and the sample, the phase and the flags of `OSC_PROCESS` (R106 to R109). -/

namespace Sys2Proof.Machine

/-! ### The polyBLEP correction (R105) -/

theorem polyBlep_of_lt {dt t : F32} (h : t.lt dt = true) :
    polyBlep dt t = (((t.div dt).add (t.div dt)).sub ((t.div dt).mul (t.div dt))).sub .one := if_pos h

theorem polyBlep_of_gt {dt t : F32} (h : t.lt dt = false) (h' : (F32.one.sub dt).lt t = true) :
    polyBlep dt t = (((((t.sub .one).div dt).mul ((t.sub .one).div dt)).add ((t.sub .one).div dt)).add
      ((t.sub .one).div dt)).add .one :=
  (if_neg (Bool.eq_false_iff.1 h)).trans (if_pos h')

theorem polyBlep_of_between {dt t : F32} (h : t.lt dt = false) (h' : (F32.one.sub dt).lt t = false) :
    polyBlep dt t = .zero :=
  (if_neg (Bool.eq_false_iff.1 h)).trans (if_neg (Bool.eq_false_iff.1 h'))

/-- Of an increment not above zero, minus infinity included, `1.0 - dt` is at least 1. -/
theorem one_le_one_sub {dt : F32} (h : dt.le .zero = true) : F32.one.le (F32.one.sub dt) = true := by
  obtain ⟨hnan, -, hkey⟩ := F32.le_iff.1 h
  cases hfin : dt.isFinite with
  | true =>
    rw [F32.le_iff_units (by decide) (sub_not_nan F32.one_finite hfin)]
    exact le_sub_units F32.one_finite hfin (F32.units_le_iff.2 hkey)
  | false =>
    have hmag : dt.mag = infMag := by
      have hle := F32.not_nan_iff.1 hnan
      simp only [F32.isFinite, decide_eq_false_iff_not] at hfin
      omega
    rw [sub_of_isInf F32.one_finite (F32.isInf_iff.2 hmag), F32.le_iff, F32.key_neg]
    refine ⟨by decide, F32.not_nan_iff.2 ((F32.mag_neg dt).trans hmag).le, ?_⟩
    have hdt : dt.key = -(infMag : Int) := by
      have hzero : F32.zero.key = 0 := by decide
      rw [hzero] at hkey
      unfold F32.key at hkey ⊢
      rw [hmag] at hkey ⊢
      split at hkey
      case isTrue hs => exact if_pos hs
      case isFalse => exact absurd hkey (by decide)
    rw [hdt]
    decide

/-- Settles O24: the pieces are the branches of the definition; with `dt <= 0 <= t` the first does not apply, and with
`t < 1 <= 1.0 - dt` the second does not. -/
theorem polyBlepPieces : Obligations.PolyBlepPieces := by
  unfold Obligations.PolyBlepPieces
  refine fun dt t => ⟨polyBlep_of_lt, polyBlep_of_gt, polyBlep_of_between, fun h0 h1 hdt => ?_⟩
  obtain ⟨hdn, -, -⟩ := F32.le_iff.1 hdt
  obtain ⟨-, htn, -⟩ := F32.le_iff.1 h0
  obtain ⟨-, hsn, hsub⟩ := F32.le_iff.1 (one_le_one_sub hdt)
  obtain ⟨-, -, hlt⟩ := F32.lt_iff.1 h1
  refine polyBlep_of_between ((F32.lt_eq_false_iff htn hdn).2 (F32.le_trans hdt h0)) ?_
  exact (F32.lt_eq_false_iff hsn htn).2 (F32.le_iff.2 ⟨htn, hsn, hlt.le.trans hsub⟩)

/-! ### Initialisation and setters (R101 to R104) -/

/-- Settles O21: the operand test accepts exactly the finite rates of at least 1. -/
theorem oscInitResult : Obligations.OscInitResult := by
  unfold Obligations.OscInitResult
  refine fun s fs => ⟨fun hfin hle => ?_, fun hbad => ?_⟩
  · exact ⟨_, exec_accepted rfl (acceptsRate_iff.2 ⟨hfin, hle⟩), accepted_effectOf (.oscInit fs) s, rfl⟩
  · refine exec_refused_badArg (i := .oscInit fs) rfl (Bool.eq_false_iff.2 fun haccepts => ?_)
    obtain ⟨hfin, hle⟩ := acceptsRate_iff.1 haccepts
    rcases hbad with hbad | hbad
    · exact Bool.false_ne_true (hbad.symm.trans hfin)
    · exact Bool.false_ne_true (hbad.symm.trans hle)

/-- The code stored for a waveform operand: the operand, clamped to 7. -/
theorem waveCode_waveOf (w : BitVec 32) : (waveCode (waveOf w)).toNat = if 7 < w.toNat then 7 else w.toNat := by
  rcases le_or_gt w.toNat 7 with h | h
  · rw [if_neg (not_lt.2 h), waveOf]
    interval_cases w.toNat <;> rfl
  · rw [if_pos h, waveOf]
    split
    case h_8 => rfl
    all_goals omega

/-- The answer to `OSC_SETWAVE` is the stored code. -/
theorem dataOf_oscSetWave (w : BitVec 32) (s : State) :
    dataOf (.oscSetWave w) s = if 7 < w.toNat then 7#32 else w := by
  apply BitVec.eq_of_toNat_eq
  have hcode := waveCode_waveOf w
  rw [dataOf, BitVec.toNat_setWidth, hcode]
  split
  · rfl
  · exact Nat.mod_eq_of_lt w.isLt

/-- Settles O22: the effects of the three setters, past the test of the `init` bit. -/
theorem oscSettersResult : Obligations.OscSettersResult := by
  unfold Obligations.OscSettersResult
  refine fun s hinit => ⟨fun f hf => ?_, fun w => ?_, fun d hd => ?_⟩
  · exact ⟨_, exec_accepted hinit hf, accepted_effectOf (.oscSetFreq f) s, rfl⟩
  · rw [← dataOf_oscSetWave w s]
    exact ⟨_, exec_accepted hinit rfl, accepted_effectOf (.oscSetWave w) s, rfl, waveCode_waveOf w⟩
  · exact ⟨_, exec_accepted hinit hd, accepted_effectOf (.oscPhaseAdd d) s, rfl⟩

/-! ### `OSC_PROCESS` (R106, R107, R108) -/

/-- Only `PB_TRI` has a memory. -/
theorem waveLast_of_ne {w : Wave} (h : w ≠ .pbTri) (p dt last : F32) : waveLast w p dt last = last := by
  cases w with
  | pbTri => exact absurd rfl h
  | _ => rfl

/-- Settles O23: the sample of the stored waveform is `waveOut` at that waveform, which is the rule's formula. -/
theorem oscProcessResult : Obligations.OscProcessResult := by
  unfold Obligations.OscProcessResult
  rintro s _ _ _ _ hinit rfl rfl rfl rfl
  have hout {w : Wave} (hw : s.osc.wave = w) : waveOut s.osc.wave s.osc.phase s.osc.inc s.osc.last =
      waveOut w s.osc.phase s.osc.inc s.osc.last := by rw [hw]
  have hlast (hw : s.osc.wave = .pbTri) : waveLast s.osc.wave s.osc.phase s.osc.inc s.osc.last =
      leakyIntegral s.osc.phase s.osc.inc s.osc.last := by rw [hw]; rfl
  exact ⟨_, _, _, squareOf s.osc.phase, exec_accepted hinit rfl, accepted_effectOf .oscProcess s, rfl,
    fun h => if_pos h, fun h => if_neg (Bool.eq_false_iff.1 h), hout, hout, hout, hout, hout,
    fun hw => ⟨hlast hw, by rw [hlast hw]; exact hout hw⟩, hout, hout, fun hw => waveLast_of_ne hw _ _ _⟩

/-! ### The flags in the corner cases (R109) -/

/-- A number below 1 ends a cycle only by being below 0. -/
theorem eocOf_of_lt_one {x : F32} (h : x.lt .one = true) : eocOf x = x.lt .zero := by
  obtain ⟨hn, -, -⟩ := F32.lt_iff.1 h
  rw [eocOf, F32.ge, (F32.le_eq_false_iff (by decide) hn).2 h, Bool.false_or]

/-- With an increment not above zero the sum of a phase and it stays below 1. -/
theorem IsPhase.add_lt_one {p d : F32} (hp : IsPhase p) (hd : d.isFinite = true) (h : d.units ≤ 0) :
    (p.add d).lt .one = true := by
  obtain ⟨hfin, -, hlt⟩ := isPhase_iff_units.1 hp
  rw [F32.lt_iff_units (add_not_nan hfin hd) (by decide), F32.one_units]
  exact (add_units_le hfin hd h).trans_lt hlt

/-- With an increment not above zero `pn - dt` is not below `pn`, so that not both tests of `EOR` can succeed. -/
theorem eorOf_of_nonpos {pn dt : F32} (hpn : pn.isFinite = true) (hdt : dt.isFinite = true) (h : dt.units ≤ 0) :
    eorOf pn dt = false := by
  rw [eorOf, Bool.and_eq_false_iff, or_iff_not_imp_right, Bool.not_eq_false]
  intro hhalf
  rw [F32.le_iff_units (by decide) (F32.not_nan_of_finite hpn)] at hhalf
  rw [F32.lt_eq_false_iff (sub_not_nan hpn hdt) (by decide), F32.le_iff_units (by decide) (sub_not_nan hpn hdt)]
  exact hhalf.trans (le_sub_units hpn hdt h)

/-- With an increment of at least 1 the sum of a phase and it is at least 1. -/
theorem eocOf_of_one_le {p d : F32} (hp : IsPhase p) (hd : d.isFinite = true) (h : F32.one.le d = true) :
    eocOf (p.add d) = true := by
  obtain ⟨hfin, h0, -⟩ := isPhase_iff_units.1 hp
  rw [F32.le_iff_units (by decide) (F32.not_nan_of_finite hd)] at h
  rw [eocOf, Bool.or_eq_true, F32.le_iff_units (by decide) (add_not_nan hfin hd)]
  exact .inl (h.trans (le_add_units hfin hd h0))

/-- Settles O27: a zero increment adds nothing; one not above zero ends no rise and no cycle at 1; one of at least 1
reaches 1. -/
theorem oscFlagCornerCases : Obligations.OscFlagCornerCases := by
  unfold Obligations.OscFlagCornerCases
  intro s t hinit hinv hsign h
  obtain rfl := exec_accepted_next h hinit rfl
  obtain ⟨-, -, hinc, hphase⟩ := hinv hinit
  have hphase : IsPhase s.osc.phase := hphase
  obtain ⟨hfin, h0, h1⟩ := isPhase_iff_units.1 hphase
  obtain ⟨hpn, -⟩ := isPhase_wrap1 (hphase.add_finite hinc)
  refine ⟨fun hz => ?_, fun hneg => ?_, eocOf_of_one_le hphase hinc⟩
  · have hle : s.osc.inc.units ≤ 0 := (F32.units_eq_zero.2 (F32.isZero_iff.1 hz)).le
    have hadd := add_of_isZero hfin hsign hinc hz
    refine ⟨?_, ?_, eorOf_of_nonpos hpn hinc hle⟩
    · exact (congrArg F32.wrap1 hadd).trans (wrap1_of_phase hfin h0 h1 hsign)
    · refine (eocOf_of_lt_one (hphase.add_lt_one hinc hle)).trans ?_
      rw [hadd]
      exact (F32.lt_eq_false_iff (F32.not_nan_of_finite hfin) (by decide)).2 hphase.2.1
  · rw [F32.lt_iff_units (F32.not_nan_of_finite hinc) (by decide), F32.zero_units] at hneg
    exact ⟨eorOf_of_nonpos hpn hinc hneg.le, eocOf_of_lt_one (hphase.add_lt_one hinc hneg.le)⟩

end Sys2Proof.Machine
end

section
/-! PROOFS. The ladder filter (41_ladder_filter.md): its initialisation and setters (R120 to R124), the passes of
`LAD_PROCESS` (R125 to R127), silence (R128), and the finiteness of its coefficients (R122). -/

namespace Sys2Proof.Machine

/-! ### Initialisation and setters (R120 to R124) -/

/-- Settles O29: the clamp and the two polynomials are `fcClamp`, `ladAlpha` and `ladQadj`, which both commands store. -/
theorem ladRateAndCutoffResult : Obligations.LadRateAndCutoffResult := by
  unfold Obligations.LadRateAndCutoffResult
  rintro s f fs _ _ _ _ _ rfl rfl rfl rfl rfl
  refine ⟨?_, ?_⟩
  · rintro rfl hfin hle
    exact ⟨_, exec_accepted rfl (acceptsRate_iff.2 ⟨hfin, hle⟩), accepted_effectOf (.ladInit fs) s, rfl⟩
  · rintro hinit rfl hf
    exact ⟨_, exec_accepted hinit hf, accepted_effectOf (.ladSetFreq f) s, rfl⟩

/-- The code stored for a mode operand: the operand, clamped to 5. -/
theorem modeCode_modeOf (m : BitVec 32) : (modeCode (modeOf m)).toNat = if 5 < m.toNat then 5 else m.toNat := by
  rcases le_or_gt m.toNat 5 with h | h
  · rw [if_neg (not_lt.2 h), modeOf]
    interval_cases m.toNat <;> rfl
  · rw [if_pos h, modeOf]
    split
    case h_6 => rfl
    all_goals omega

/-- The answer to `LAD_SETMODE` is the stored code. -/
theorem dataOf_ladSetMode (m : BitVec 32) (s : State) : dataOf (.ladSetMode m) s = if 5 < m.toNat then 5#32 else m := by
  apply BitVec.eq_of_toNat_eq
  rw [dataOf, BitVec.toNat_setWidth, modeCode_modeOf]
  split
  · rfl
  · exact Nat.mod_eq_of_lt m.isLt

/-- Settles O30: the effects of the two setters, past the test of the `init` bit. -/
theorem ladResonanceAndModeResult : Obligations.LadResonanceAndModeResult := by
  unfold Obligations.LadResonanceAndModeResult
  refine fun s hinit => ⟨?_, fun m => ?_⟩
  · rintro r _ _ hr rfl rfl
    exact ⟨_, exec_accepted hinit hr, accepted_effectOf (.ladSetRes r) s, rfl⟩
  · rw [← dataOf_ladSetMode m s]
    exact ⟨_, exec_accepted hinit rfl, accepted_effectOf (.ladSetMode m) s, rfl, modeCode_modeOf m⟩

/-! ### One pass: four stages in series (R125, R126) -/

/-- A stage reads its own two memory cells, so a store to another stage's does not change its output. -/
theorem stageOut_stageStore_of_ne (l : LadState) (x y : F32) {i j : Fin 4} (h : i ≠ j) :
    stageOut (stageStore l y j) x i = stageOut l x i := by
  simp only [stageOut, stageStore_z0, stageStore_z1, stageStore_alpha, memRead_memWrite_other _ _ _ _ h]

section
variable (l : LadState) (u : F32)

theorem stage1_eq : stage1 l u = stageEquation l.alpha l.z0[0] l.z1[0] u := rfl

theorem stage2_eq : stage2 l u = stageEquation l.alpha l.z0[1] l.z1[1] (stage1 l u) :=
  stageOut_stageStore_of_ne l _ _ (by decide)

theorem stage3_eq : stage3 l u = stageEquation l.alpha l.z0[2] l.z1[2] (stage2 l u) := by
  rw [stage3, after2, after1, stageOut_stageStore_of_ne _ _ _ (by decide), stageOut_stageStore_of_ne _ _ _ (by decide)]
  rfl

theorem stage4_eq : stage4 l u = stageEquation l.alpha l.z0[3] l.z1[3] (stage3 l u) := by
  rw [stage4, after3, after2, after1, stageOut_stageStore_of_ne _ _ _ (by decide),
    stageOut_stageStore_of_ne _ _ _ (by decide), stageOut_stageStore_of_ne _ _ _ (by decide)]
  rfl

end

/-- Writing all four elements leaves nothing of the old array. -/
theorem memWrite_four {α : Type} (v : Vector α 4) (a b c d : α) :
    memWrite (memWrite (memWrite (memWrite v 0 a) 1 b) 2 c) 3 d = #v[a, b, c, d] := by
  ext i hi
  interval_cases i <;> simp [memWrite]

/-- The filter after the four stages: each has left its input and its output. -/
theorem after4_eq (l : LadState) (u : F32) :
    after4 l u = { l with z0 := #v[u, stage1 l u, stage2 l u, stage3 l u],
                          z1 := #v[stage1 l u, stage2 l u, stage3 l u, stage4 l u] } := by
  have hz0 : (after4 l u).z0 = #v[u, stage1 l u, stage2 l u, stage3 l u] := memWrite_four ..
  have hz1 : (after4 l u).z1 = #v[stage1 l u, stage2 l u, stage3 l u, stage4 l u] := memWrite_four ..
  rw [← hz0, ← hz1]
  rfl

/-- The model's pass is a pass in the rules' own words. -/
theorem ladPass_passState (l : LadState) (x k : F32) : LadPass l (passState l x k) x k (passMix l x k) := by
  have hmix {m : FilterMode} (hm : l.mode = m) : passMix l x k = mixTaps m (inputNode l x k)
      (stage1 l (inputNode l x k)) (stage2 l (inputNode l x k)) (stage3 l (inputNode l x k))
      (stage4 l (inputNode l x k)) := by rw [passMix, hm]
  exact ⟨_, _, _, _, _, rfl, stage1_eq l _, stage2_eq l _, stage3_eq l _, stage4_eq l _, after4_eq l _,
    hmix, hmix, hmix, hmix, hmix, hmix⟩

/-! ### The four passes of `LAD_PROCESS` (R126) -/

/-- The last interpolation point. -/
abbrev threeQuarters : F32 := ⟨0x3F400000#32⟩

/-- The interpolation points of the four passes. -/
abbrev interpPoints : List F32 := [.zero, quarter, half, threeQuarters]

theorem zero_add_quarter : F32.zero.add quarter = quarter := by decide +kernel
theorem quarter_add_quarter : quarter.add quarter = half := by decide +kernel
theorem half_add_quarter : half.add quarter = threeQuarters := by decide +kernel

/-- `LAD_PROCESS` leaves the memory of four passes in series. -/
theorem passesState_ladOs (l : LadState) (x : F32) : passesState x cfg.ladOs l .zero =
    passState (passState (passState (passState l x .zero) x quarter) x half) x threeQuarters := by
  rw [← half_add_quarter, ← quarter_add_quarter, ← zero_add_quarter]
  rfl

/-- Its answer is the sum of a quarter of each pass's mix. -/
theorem passesTotal_ladOs (l : LadState) (x : F32) : passesTotal x cfg.ladOs l .zero .zero =
    (((F32.zero.add ((passMix l x .zero).mul quarter)).add
      ((passMix (passState l x .zero) x quarter).mul quarter)).add
      ((passMix (passState (passState l x .zero) x quarter) x half).mul quarter)).add
      ((passMix (passState (passState (passState l x .zero) x quarter) x half) x threeQuarters).mul quarter) := by
  rw [← half_add_quarter, ← quarter_add_quarter, ← zero_add_quarter]
  rfl

/-- Settles O31: the four passes of the model, each a pass in the rules' own words. -/
theorem ladProcessResult : Obligations.LadProcessResult := by
  unfold Obligations.LadProcessResult
  intro s x hinit hx
  exact ⟨_, _, _, _, _, _, _, _, _, _, exec_accepted hinit hx, accepted_effectOf (.ladProcess x) s,
    ladPass_passState .., ladPass_passState .., ladPass_passState .., ladPass_passState .., passesTotal_ladOs s.lad x,
    congrArg (fun l : LadState => { l with oldin := x }) (passesState_ladOs s.lad x)⟩

/-! ### A zero sample into a filter at rest (R128) -/

/-- There are two zeros. -/
theorem eq_zero_or_negZero {x : F32} (h : x.isZero = true) : x = .zero ∨ x = .negZero := by
  rw [F32.isZero_iff] at h
  cases hs : x.sign with
  | false => exact .inl (F32.eq_of_sign_mag hs h)
  | true => exact .inr (F32.eq_of_sign_mag hs h)

/-- A zero times a finite number is a zero, of either sign. -/
theorem isZero_mul {x a : F32} (hx : x.isZero = true) (ha : a.isFinite = true) : (x.mul a).isZero = true := by
  rw [F32.isZero_iff] at hx ⊢
  have hfin : x.isFinite = true := F32.isFinite_iff.2 (by rw [hx]; decide)
  rw [(F32.mul_mag hfin ha).1, hx, magUnits_zero, zero_mul, roundMag_zero _ unitsPerOne_pos]

/-- The stages, the feedback and the interpolation end in a sum or a difference of zeros, which is `+0.0`. -/
theorem isZero_add_zero {x : F32} (h : x.isZero = true) : x.add .zero = .zero := by
  rcases eq_zero_or_negZero h with rfl | rfl <;> decide +kernel

theorem zero_sub_isZero {x : F32} (h : x.isZero = true) : F32.zero.sub x = .zero := by
  rcases eq_zero_or_negZero h with rfl | rfl <;> decide +kernel

/-- A stage with zero memory and zero input. -/
theorem stageEquation_zero {alpha : F32} (h : alpha.isFinite = true) : stageEquation alpha .zero .zero .zero = .zero := by
  have hft : ((F32.zero.mul ⟨0x3F44EC4F#32⟩).add (F32.mul ⟨0x3E6C4EC6#32⟩ .zero)).sub .zero = .zero := by decide +kernel
  rw [stageEquation, hft]
  exact isZero_add_zero (isZero_mul rfl h)

/-- The mix of silent taps, in every mode: no difference of two `+0.0` is `-0.0`. -/
theorem mixTaps_zero (m : FilterMode) : mixTaps m .zero .zero .zero .zero .zero = .zero := by
  cases m <;> decide +kernel

/-- The sample interpolated between two zeros. -/
theorem interpolated_zero {k : F32} (hk : k ∈ interpPoints) :
    (k.mul .zero).add ((F32.one.sub k).mul .zero) = .zero := by
  revert k
  decide +kernel

/-- The filter's memory is at `+0.0`, and the numbers it multiplies by are finite. -/
structure LadState.AtRest (l : LadState) : Prop where
  z0 : l.z0 = .replicate 4 .zero
  z1 : l.z1 = .replicate 4 .zero
  oldin : l.oldin = .zero
  k : l.k.isFinite = true
  alpha : l.alpha.isFinite = true
  qadj : l.qadj.isFinite = true

namespace LadState.AtRest

variable {l : LadState} (h : l.AtRest) {k : F32}
include h

/-- The fed-back fourth stage is a zero of either sign, and `TANH(+0.0) = +0.0`. -/
theorem inputNode_zero (hk : k ∈ interpPoints) : inputNode l .zero k = .zero := by
  have hz1 : memRead l.z1 3 = .zero := by rw [h.z1]; rfl
  rw [inputNode, h.oldin, interpolated_zero hk, hz1, zero_sub_isZero (isZero_mul (isZero_mul rfl h.k) h.qadj)]
  exact Config.num.tanh_zero

/-- Any stage. -/
theorem stage_zero {i : Nat} (hi : i < 4) : stageEquation l.alpha l.z0[i] l.z1[i] .zero = .zero := by
  simp only [h.z0, h.z1, Vector.getElem_replicate]
  exact stageEquation_zero h.alpha

/-- One pass of a zero sample stores the zeros that were there, and mixes to zero. -/
theorem pass_zero (hk : k ∈ interpPoints) :
    passState l .zero k = l ∧ passMix l .zero k = .zero := by
  have h1 : stage1 l .zero = .zero := h.stage_zero (by decide)
  have h2 : stage2 l .zero = .zero := by rw [stage2_eq, h1]; exact h.stage_zero (by decide)
  have h3 : stage3 l .zero = .zero := by rw [stage3_eq, h2]; exact h.stage_zero (by decide)
  have h4 : stage4 l .zero = .zero := by rw [stage4_eq, h3]; exact h.stage_zero (by decide)
  constructor
  · have hz : #v[F32.zero, .zero, .zero, .zero] = .replicate 4 .zero := rfl
    rw [passState, h.inputNode_zero hk, after4_eq, h1, h2, h3, h4, hz]
    nth_rw 1 [← h.z0]
    rw [← h.z1]
  · simp only [passMix, h.inputNode_zero hk, h1, h2, h3, h4, mixTaps_zero]

/-- So do four. -/
theorem passes_zero : passesState .zero cfg.ladOs l .zero = l ∧ passesTotal .zero cfg.ladOs l .zero .zero = .zero := by
  obtain ⟨s1, m1⟩ := h.pass_zero (k := .zero) (by decide)
  obtain ⟨s2, m2⟩ := h.pass_zero (k := quarter) (by decide)
  obtain ⟨s3, m3⟩ := h.pass_zero (k := half) (by decide)
  obtain ⟨s4, m4⟩ := h.pass_zero (k := threeQuarters) (by decide)
  rw [passesState_ladOs, passesTotal_ladOs, s1, s2, s3, s4, m1, m2, m3, m4]
  exact ⟨rfl, by decide +kernel⟩

end LadState.AtRest

/-- The feedback gain of the invariant is finite. -/
theorem finite_of_within_gain {k : F32} (h : k.within .zero ⟨0x40800000#32⟩ = true) : k.isFinite = true := by
  obtain ⟨-, hlo, hhi⟩ := (within_iff (by decide) (by decide)).1 h
  have h0 : F32.zero.key = 0 := by decide
  have h4 : (⟨0x40800000#32⟩ : F32).key = 0x40800000 := by decide
  exact F32.finite_of_key (by unfold infMag; omega) (by unfold infMag; omega)

/-- Settles O32: such a filter is at rest, and four passes of a zero sample leave it there. -/
theorem ladZeroInZeroOut : Obligations.LadZeroInZeroOut := by
  unfold Obligations.LadZeroInZeroOut
  intro s hinit hinv hcoefs hz0 hz1 holdin
  obtain ⟨-, -, -, hk⟩ := hinv hinit
  obtain ⟨halpha, hqadj⟩ := hcoefs hinit
  obtain ⟨hstate, htotal⟩ := LadState.AtRest.passes_zero ⟨hz0, hz1, holdin, finite_of_within_gain hk, halpha, hqadj⟩
  have hdata : dataOf (.ladProcess .zero) s = 0#32 := congrArg F32.bits htotal
  have hlad : (effectOf (.ladProcess .zero) s).lad = s.lad := by
    simp only [effectOf, hstate]
    rw [← holdin]
  exact ⟨_, exec_accepted hinit rfl, hdata ▸ accepted_effectOf (.ladProcess .zero) s, hlad⟩

/-! ### The mode (R124, R127) -/

/-- The recursion does not read the mode. -/
theorem passState_mode (l : LadState) (m : FilterMode) (x k : F32) :
    passState { l with mode := m } x k = { passState l x k with mode := m } := rfl

theorem passesState_mode (l : LadState) (m : FilterMode) (x : F32) (n : Nat) (k : F32) :
    passesState x n { l with mode := m } k = { passesState x n l k with mode := m } := by
  induction n generalizing l k with
  | zero => rfl
  | succ n ih => rw [passesState, passState_mode, ih, passesState]

/-- The filter after `LAD_PROCESS`, accepted or refused. -/
theorem exec_ladProcess_lad {x : F32} {s t : State} (h : exec (.ladProcess x) s = .next t) :
    t.lad = if s.lad.init && x.isFinite then { passesState x cfg.ladOs s.lad .zero with oldin := x } else s.lad := by
  rcases exec_next h with ⟨hinit, rfl⟩ | ⟨-, hx, rfl⟩ | ⟨hinit, hx, rfl⟩
  · have hinit : s.lad.init = false := hinit
    rw [hinit, Bool.false_and]
    rfl
  · have hx : x.isFinite = false := hx
    rw [hx, Bool.and_false]
    rfl
  · have hinit : s.lad.init = true := hinit
    have hx : x.isFinite = true := hx
    rw [hinit, hx]
    rfl

/-- Settles O33: neither the two tests nor the recursion read the mode. -/
theorem ladModeChangesOnlyTheMix : Obligations.LadModeChangesOnlyTheMix := by
  unfold Obligations.LadModeChangesOnlyTheMix
  intro s s' t t' x h ht ht'
  rw [exec_ladProcess_lad ht, exec_ladProcess_lad ht', h, passesState_mode]
  split <;> exact ⟨rfl, rfl⟩

/-! ### The coefficients stay finite (R122) -/

@[simp] theorem passesState_alpha (x : F32) (n : Nat) (l : LadState) (k : F32) :
    (passesState x n l k).alpha = l.alpha := by rw [passesState_keeps]

@[simp] theorem passesState_qadj (x : F32) (n : Nat) (l : LadState) (k : F32) :
    (passesState x n l k).qadj = l.qadj := by rw [passesState_keeps]

/-- Only the two commands that store a clamped cutoff write the coefficients. -/
theorem effectOf_keeps_ladCoefsFinite (i : Instr) (s : State) (hu : unitOf i = .lad)
    (hi : (isInitCommand i || s.initOf (unitOf i)) = true) (ha : operandOk i = true) (hinv : LadInv s.lad)
    (h : LadCoefsFinite s.lad) : LadCoefsFinite (effectOf i s).lad := by
  cases i with
  | ladInit fs => exact fun _ => ladCoefs_finite (rateOk_of_accepts ha) (by decide)
  | ladSetFreq f =>
    obtain ⟨hfs, -⟩ := hinv hi
    exact fun _ => ladCoefs_finite hfs ha
  | ladSetRes r => exact h
  | ladSetMode m => exact h
  | ladProcess x => simpa only [LadCoefsFinite, effectOf, passesState_init, passesState_alpha, passesState_qadj] using h
  | _ => cases hu

/-- Settles O35: the coefficients of a clamped cutoff are finite at a legal rate, so the invariant is carried along. -/
theorem ladCoefsStayFinite : Obligations.LadCoefsStayFinite := by
  unfold Obligations.LadCoefsStayFinite
  intro s t hinv h hs
  have hown (i : Instr) (s : State) (hu : unitOf i = .lad) (hi : (isInitCommand i || s.initOf (unitOf i)) = true)
      (ha : operandOk i = true) (hP : LadInv s.lad ∧ LadCoefsFinite s.lad) :
      LadInv (effectOf i s).lad ∧ LadCoefsFinite (effectOf i s).lad :=
    ⟨effectOf_keeps_ladInv i s hu hi ha hP.1, effectOf_keeps_ladCoefsFinite i s hu hi ha hP.1 hP.2⟩
  exact (step_keeps_unit .lad (fun l => LadInv l ∧ LadCoefsFinite l) State.lad (fun _ _ _ => rfl) ⟨nofun, nofun⟩
    effectOf_lad_of_ne hown s t ⟨hinv, h⟩ hs).2

end Sys2Proof.Machine
end

section
/-! PROOFS. The exponential envelope (42_envelope_exponential.md): its initialisation and control (R140, R141), the knob with
its centre zone (R142), trigger and sample (R143 to R145), and why the value only falls between triggers (R146). -/

namespace Sys2Proof.Machine

/-! ### Initialisation and control (R140, R141) -/

/-- The model's coefficient and direction are `XCOEF` in the rule's own words. -/
theorem xCoef_envxCoef (c fs : F32) : XCoef c fs (envxCoef c fs) (envxDir c) :=
  ⟨ctlClamp c, _, envxTime (ctlClamp c) fs, rfl, rfl, fun h => if_pos h,
    fun h => if_neg (Bool.eq_false_iff.1 h), rfl, Iff.rfl⟩

/-- Settles O36: the effects of the two commands, past their tests. -/
theorem envxInitAndControlResult : Obligations.EnvxInitAndControlResult := by
  unfold Obligations.EnvxInitAndControlResult
  refine ⟨fun s fs hfin hle => ?_, fun s c hinit hc => ?_⟩
  · exact ⟨_, exec_accepted rfl (acceptsRate_iff.2 ⟨hfin, hle⟩), accepted_effectOf (.envxInit fs) s, rfl⟩
  · exact ⟨_, _, _, exec_accepted hinit hc, accepted_effectOf (.envxSetCtl c) s, xCoef_envxCoef c s.envx.fs, rfl⟩

/-! ### Comparisons, and which numbers are below zero (00_scope.md R14 to R16) -/

theorem le_eq_true_of_lt {a b : F32} (h : a.lt b = true) : a.le b = true := by
  obtain ⟨ha, hb, hkey⟩ := F32.lt_iff.1 h
  exact F32.le_iff.2 ⟨ha, hb, hkey.le⟩

theorem lt_eq_false_of_le {a b : F32} (h : a.le b = true) : b.lt a = false := by
  obtain ⟨ha, hb, -⟩ := F32.le_iff.1 h
  exact (F32.lt_eq_false_iff hb ha).2 h

theorem lt_zero_iff {x : F32} (hx : x.isNaN = false) : x.lt .zero = true ↔ x.sign = true ∧ x.mag ≠ 0 := by
  rw [← Bool.not_eq_false, F32.lt_eq_false_iff hx (by decide), nonneg_iff hx, Classical.not_imp]

/-- A value of less than zero units stays below zero when rounded: the unit is the smallest subnormal. -/
theorem roundUnits_units_neg_iff {v : Int} {z : Bool} : (roundUnits v z).units < 0 ↔ v < 0 := by
  refine ⟨fun h => ?_, fun h => ?_⟩
  · by_contra hv
    have hkey : F32.zero.key ≤ (roundUnits v z).key := le_roundUnits (by decide) (by rw [F32.zero_units]; omega)
    rw [← F32.units_le_iff, F32.zero_units] at hkey
    omega
  · have hulp : (⟨0x80000001#32⟩ : F32).units = -1 := by decide +kernel
    have hkey : (roundUnits v z).key ≤ (⟨0x80000001#32⟩ : F32).key := roundUnits_le (by decide) (by omega)
    rw [← F32.units_le_iff, hulp] at hkey
    omega

/-- A difference has the sign of the comparison: it never underflows to zero. -/
theorem sub_lt_zero_iff {p d : F32} (hp : p.isFinite = true) (hd : d.isFinite = true) :
    (p.sub d).lt .zero = true ↔ p.lt d = true := by
  rw [F32.lt_iff_units (sub_not_nan hp hd) (by decide),
    F32.lt_iff_units (F32.not_nan_of_finite hp) (F32.not_nan_of_finite hd), F32.sub_finite hp hd, F32.zero_units,
    roundUnits_units_neg_iff, sub_neg]

/-- Divided by a number of `(0, 1]` a number does not get smaller in magnitude, so the quotient keeps the sign and does not
underflow. -/
theorem div_lt_zero_iff {d z : F32} (hd : d.isFinite = true) (hz : z.within .zero .one = true) (h0 : z.mag ≠ 0) :
    (d.div z).lt .zero = true ↔ d.lt .zero = true := by
  obtain ⟨hzmag, hzsign⟩ := unit_iff.1 hz
  obtain ⟨hmag, hsign⟩ := F32.div_mag hd (unit_finite hz) h0
  have hpos : 0 < magUnits z.mag := magUnits_pos (Nat.pos_of_ne_zero h0)
  have hnan : (d.div z).isNaN = false := F32.not_nan_iff.2 (hmag ▸ roundMag_le_inf _ _)
  have hge : d.mag ≤ (d.div z).mag := by
    rw [hmag]
    refine le_roundMag_of_le hpos (F32.isFinite_iff.1 hd).le (Nat.mul_le_mul_left _ ?_)
    rw [← magUnits_one]
    exact magUnits_mono hzmag
  have hzero (h : d.mag = 0) : (d.div z).mag = 0 := by rw [hmag, h, magUnits_zero, zero_mul, roundMag_zero _ hpos]
  have hzs : z.sign = false := by simpa using mt hzsign h0
  rw [lt_zero_iff hnan, lt_zero_iff (F32.not_nan_of_finite hd), hsign, hzs, Bool.bne_false]
  exact and_congr_right fun _ => ⟨mt hzero, fun h => by omega⟩

/-! ### The knob (R142) -/

theorem zoneLo_unit : cfg.envxZoneLo.within .zero .one = true := by decide
theorem zoneHi_unit : cfg.envxZoneHi.within .zero .one = true := by decide

/-- The closed centre zone. -/
theorem holdOf_of_between {xc : F32} (hlo : cfg.envxZoneLo.le xc = true) (hhi : xc.le cfg.envxZoneHi = true) :
    holdOf xc = true := by
  rw [holdOf, F32.gt, lt_eq_false_of_le hlo, lt_eq_false_of_le hhi]
  rfl

theorem holdOf_of_lt {xc : F32} (h : xc.lt cfg.envxZoneLo = true) : holdOf xc = false := by rw [holdOf, h]; rfl

theorem holdOf_of_gt {xc : F32} (h : cfg.envxZoneHi.lt xc = true) : holdOf xc = false := by
  rw [holdOf, F32.gt, h, Bool.not_true, Bool.and_false]

/-- Above the zone is not below it. -/
theorem not_lt_zoneLo_of_gt {xc : F32} (h : cfg.envxZoneHi.lt xc = true) : xc.lt cfg.envxZoneLo = false := by
  have hzone : cfg.envxZoneLo.le cfg.envxZoneHi = true := by decide
  exact lt_eq_false_of_le (F32.le_trans hzone (le_eq_true_of_lt h))

theorem knobControl_of_lt {xc : F32} (h : xc.lt cfg.envxZoneLo = true) :
    knobControl xc = (xc.sub cfg.envxZoneLo).div cfg.envxZoneLo := if_pos h

theorem knobControl_of_gt {xc : F32} (h : cfg.envxZoneHi.lt xc = true) :
    knobControl xc = (xc.sub cfg.envxZoneHi).div cfg.envxZoneLo :=
  if_neg (Bool.eq_false_iff.1 (not_lt_zoneLo_of_gt h))

/-- The clamp to `[-1, 1]` moves no control across zero. -/
theorem envxDir_eq {c : F32} (hc : c.isNaN = false) : envxDir c = c.lt .zero := by
  unfold envxDir ctlClamp
  rcases clamp_cases c minusOne .one with ⟨hlt, hclamp⟩ | ⟨-, hgt, hclamp⟩ | ⟨-, -, hclamp⟩
  · obtain ⟨-, -, hkey⟩ := F32.lt_iff.1 hlt
    have hminus : minusOne.lt .zero = true := by decide
    have hzero : minusOne.key ≤ F32.zero.key := by decide
    rw [hclamp, hminus, F32.lt_iff.2 ⟨hc, by decide, hkey.trans_le hzero⟩]
  · have hone : F32.zero.le .one = true := by decide
    rw [hclamp, lt_eq_false_of_le hone, lt_eq_false_of_le (F32.le_trans hone (le_eq_true_of_lt hgt))]
  · rw [hclamp]

/-- The distance of two numbers of `[0, 1]` is finite. -/
theorem sub_unit_finite {a b : F32} (ha : a.within .zero .one = true) (hb : b.within .zero .one = true) :
    (a.sub b).isFinite = true := by
  obtain ⟨ha, -⟩ := unit_iff.1 ha
  obtain ⟨hb, -⟩ := unit_iff.1 hb
  have hmag : (a.sub b).mag ≤ 0x40000000 := sub_bounded ha hb (by decide) (by decide) (by decide) (by decide +kernel)
  exact F32.isFinite_iff.2 (lt_of_le_of_lt hmag (by decide))

/-- Rescaling a knob's distance from a bound of the zone gives an attack exactly below the bound. -/
theorem rescaled_lt_zero {xc z : F32} (hxc : xc.within .zero .one = true) (hz : z.within .zero .one = true) :
    ((xc.sub z).div cfg.envxZoneLo).lt .zero = xc.lt z := by
  rw [Bool.eq_iff_iff, div_lt_zero_iff (sub_unit_finite hxc hz) zoneLo_unit (by decide),
    sub_lt_zero_iff (unit_finite hxc) (unit_finite hz)]

/-- The direction of a knob outside the zone: attack below it, decay above. -/
theorem envxDir_knobControl {x : F32} (hx : x.isFinite = true) (hout : holdOf (clampUnit x) = false) :
    envxDir (knobControl (clampUnit x)) = (clampUnit x).lt cfg.envxZoneLo := by
  rw [envxDir_eq (F32.not_nan_of_finite (knobControl_finite hx))]
  have hxc := clampUnit_within hx
  cases hlt : (clampUnit x).lt cfg.envxZoneLo with
  | true => rw [knobControl_of_lt hlt, rescaled_lt_zero hxc zoneLo_unit, hlt]
  | false =>
    have hgt : cfg.envxZoneHi.lt (clampUnit x) = true := by simpa [holdOf, hlt] using hout
    rw [knobControl_of_gt hgt, rescaled_lt_zero hxc zoneHi_unit, lt_eq_false_of_le (le_eq_true_of_lt hgt)]

section
variable {s : State} {x : F32} (hinit : s.envx.init = true) (hx : x.isFinite = true)
include hinit hx

/-- `ENVX_SETKNOB` inside the zone. -/
theorem exec_envxSetKnob_inside (hin : holdOf (clampUnit x) = true) :
    ∃ t, exec (.envxSetKnob x) s = .next t ∧ Accepted .envx s t 0x32 s.envx.coef.bits ∧
      t.envx = { s.envx with hold := true } := by
  have heffect : effectOf (.envxSetKnob x) s = { s with envx := { s.envx with hold := true } } := if_pos hin
  have hdata : dataOf (.envxSetKnob x) s = s.envx.coef.bits := if_pos hin
  exact ⟨_, exec_accepted hinit hx, hdata ▸ accepted_effectOf (.envxSetKnob x) s, congrArg State.envx heffect⟩

/-- `ENVX_SETKNOB` outside it: as `XCOEF` of the knob's control. -/
theorem exec_envxSetKnob_outside (hout : holdOf (clampUnit x) = false) :
    ∃ t coef dir, exec (.envxSetKnob x) s = .next t ∧ Accepted .envx s t 0x32 coef.bits ∧
      XCoef (knobControl (clampUnit x)) s.envx.fs coef dir ∧ dir = (clampUnit x).lt cfg.envxZoneLo ∧
      t.envx = { s.envx with coef := coef, dir := dir, hold := false } := by
  have hif := Bool.eq_false_iff.1 hout
  have heffect : effectOf (.envxSetKnob x) s = { s with envx := { s.envx with
      coef := envxCoef (knobControl (clampUnit x)) s.envx.fs, dir := envxDir (knobControl (clampUnit x)),
      hold := false } } := if_neg hif
  have hdata : dataOf (.envxSetKnob x) s = (envxCoef (knobControl (clampUnit x)) s.envx.fs).bits := if_neg hif
  exact ⟨_, _, _, exec_accepted hinit hx, hdata ▸ accepted_effectOf (.envxSetKnob x) s, xCoef_envxCoef _ _,
    envxDir_knobControl hx hout, congrArg State.envx heffect⟩

end

/-- Settles O37: one case for each zone. -/
theorem envxKnobResult : Obligations.EnvxKnobResult := by
  unfold Obligations.EnvxKnobResult
  rintro s x _ _ _ hinit hx rfl rfl rfl
  refine ⟨fun hlo hhi => ?_, fun hlt => ?_, fun hgt => ?_⟩
  · exact exec_envxSetKnob_inside hinit hx (holdOf_of_between hlo hhi)
  · obtain ⟨t, coef, dir, hexec, hacc, hcoef, hdir, hstate⟩ := exec_envxSetKnob_outside hinit hx (holdOf_of_lt hlt)
    exact ⟨t, coef, dir, hexec, hacc, knobControl_of_lt hlt ▸ hcoef, hdir.trans hlt, hstate⟩
  · obtain ⟨t, coef, dir, hexec, hacc, hcoef, hdir, hstate⟩ := exec_envxSetKnob_outside hinit hx (holdOf_of_gt hgt)
    exact ⟨t, coef, dir, hexec, hacc, knobControl_of_gt hgt ▸ hcoef, hdir.trans (not_lt_zoneLo_of_gt hgt), hstate⟩

/-! ### Trigger and sample (R143 to R145) -/

section
variable {s : State}

theorem effectOf_envxProcess_held (h : s.envx.hold = true) : effectOf .envxProcess s = s := if_pos h

theorem effectOf_envxProcess_running (h : s.envx.hold = false) :
    effectOf .envxProcess s = { s with envx := { s.envx with value := s.envx.value.mul s.envx.coef } } :=
  if_neg (Bool.eq_false_iff.1 h)

theorem dataOf_envxProcess_held (h : s.envx.hold = true) : dataOf .envxProcess s = half.bits := if_pos h

theorem dataOf_envxProcess_running (h : s.envx.hold = false) :
    dataOf .envxProcess s = if s.envx.dir then (F32.one.sub (s.envx.value.mul s.envx.coef)).bits
      else (s.envx.value.mul s.envx.coef).bits :=
  (if_neg (Bool.eq_false_iff.1 h)).trans (apply_ite F32.bits ..)

end

/-- Settles O38: the effects and the data of the two commands, past the test of the `init` bit. -/
theorem envxTriggerAndProcessResult : Obligations.EnvxTriggerAndProcessResult := by
  unfold Obligations.EnvxTriggerAndProcessResult
  intro s hinit
  refine ⟨?_, fun hhold => ?_, ?_⟩
  · exact ⟨_, exec_accepted hinit rfl, accepted_effectOf .envxTrigger s, rfl⟩
  · exact ⟨_, exec_accepted hinit rfl, dataOf_envxProcess_held hhold ▸ accepted_effectOf .envxProcess s,
      by rw [State.answer_envx, effectOf_envxProcess_held hhold]⟩
  · rintro hhold _ rfl
    exact ⟨_, exec_accepted hinit rfl, dataOf_envxProcess_running hhold ▸ accepted_effectOf .envxProcess s,
      by rw [State.answer_envx, effectOf_envxProcess_running hhold]⟩

/-! ### The value between triggers, and the samples (R146) -/

/-- On `[0, 1]` the place of a number is its magnitude. -/
theorem unit_key {x : F32} (h : x.within .zero .one = true) : x.key = x.mag := by
  obtain ⟨-, hsign⟩ := unit_iff.1 h
  unfold F32.key
  split
  case isTrue hs => rw [hsign hs]; rfl
  case isFalse => rfl

/-- A product of two numbers of `[0, 1]` is not above its first factor, rounding included. -/
theorem mul_unit_le {a b : F32} (ha : a.within .zero .one = true) (hb : b.within .zero .one = true) :
    (a.mul b).le a = true := by
  obtain ⟨hab, hmag⟩ := mul_unit ha hb
  refine F32.le_iff.2 ⟨F32.not_nan_of_finite (unit_finite hab), F32.not_nan_of_finite (unit_finite ha), ?_⟩
  rw [unit_key hab, unit_key ha]
  exact_mod_cast hmag

/-- `ENVX_INIT` stores `+0.0`, `ENVX_PROCESS` a product with the coefficient; the rest do not write the value. -/
theorem effectOf_envx_value_le {i : Instr} (hi : i ≠ .envxTrigger) {s : State}
    (hvalue : s.envx.value.within .zero .one = true) (hcoef : s.envx.coef.within .zero .one = true) :
    (effectOf i s).envx.value.le s.envx.value = true := by
  have hself : s.envx.value.le s.envx.value = true :=
    F32.le_refl_of_not_nan _ (F32.not_nan_of_finite (unit_finite hvalue))
  by_cases hu : unitOf i = .envx
  · cases i with
    | envxInit fs => exact (Bool.and_eq_true_iff.1 hvalue).1
    | envxSetCtl c => exact hself
    | envxSetKnob x => simp only [effectOf]; split <;> exact hself
    | envxTrigger => exact absurd rfl hi
    | envxProcess =>
      cases hhold : s.envx.hold with
      | true => rwa [effectOf_envxProcess_held hhold]
      | false => rw [effectOf_envxProcess_running hhold]; exact mul_unit_le hvalue hcoef
    | _ => cases hu
  · rwa [effectOf_envx_of_ne hu]

/-- The sample: one half, the new value, or one minus it. -/
theorem dataOf_envxProcess_unit {s : State} (hvalue : s.envx.value.within .zero .one = true)
    (hcoef : s.envx.coef.within .zero .one = true) :
    F32.within ⟨dataOf .envxProcess s⟩ .zero .one = true := by
  obtain ⟨hprod, -⟩ := mul_unit hvalue hcoef
  cases hhold : s.envx.hold with
  | true => rw [dataOf_envxProcess_held hhold]; decide
  | false =>
    rw [dataOf_envxProcess_running hhold]
    split
    · exact one_sub_unit hprod
    · exact hprod

/-- Settles O39: a refusal leaves the value, an effect does not raise it, and `ENVX_PROCESS` is accepted. -/
theorem envxValueNeverRises : Obligations.EnvxValueNeverRises := by
  unfold Obligations.EnvxValueNeverRises
  intro i s t r hinit hinv h hr
  obtain ⟨-, hvalue, hcoef⟩ := hinv hinit
  refine ⟨fun hi => ?_, ?_⟩
  · rcases exec_next_cases h with ⟨c, -, rfl⟩ | rfl
    · exact F32.le_refl_of_not_nan _ (F32.not_nan_of_finite (unit_finite hvalue))
    · exact effectOf_envx_value_le hi hvalue hcoef
  · rintro rfl
    cases exec_accepted_next h hinit rfl
    cases hr
    rw [rspData_rspWord]
    exact dataOf_envxProcess_unit hvalue hcoef

end Sys2Proof.Machine
end

section
/-! PROOFS. The linear envelope (43_envelope_linear.md): its four commands (R155 to R158), and why the value only falls
between triggers and rests at `+0.0` (R158, R159). -/

namespace Sys2Proof.Machine

/-! ### The rate and the sample by their cases (R156, R158) -/

/-- The rate of a time floored at one sample period. -/
theorem envlRate_eq_of_floored {time fs tc : F32} (hlt : time.lt (F32.one.div fs) = true → tc = F32.one.div fs)
    (hge : time.lt (F32.one.div fs) = false → tc = time) :
    envlRate time fs = F32.one.sub (Config.num.exp (minusOne.div (fs.mul tc))) := by
  have htc : (if time.lt (F32.one.div fs) then F32.one.div fs else time) = tc := by
    cases h : time.lt (F32.one.div fs) with
    | true => exact (hlt h).symm
    | false => exact (hge h).symm
  subst htc
  rfl

theorem envlNext_of_neg {value rate : F32} (h : (value.sub rate).lt .zero = true) : envlNext value rate = .zero :=
  if_pos h

theorem envlNext_of_not_neg {value rate : F32} (h : (value.sub rate).lt .zero = false) :
    envlNext value rate = value.sub rate := if_neg (Bool.eq_false_iff.1 h)

/-- Settles O41: the effects and the data of the four commands, past their tests. -/
theorem envlCommandsResult : Obligations.EnvlCommandsResult := by
  unfold Obligations.EnvlCommandsResult
  refine ⟨fun s fs hfin hle => ?_, ?_, fun s hinit => ?_, ?_⟩
  · exact ⟨_, exec_accepted rfl (acceptsRate_iff.2 ⟨hfin, hle⟩), accepted_effectOf (.envlInit fs) s, rfl⟩
  · rintro s time _ tc _ hinit htime rfl hlt hge rfl
    rw [← envlRate_eq_of_floored hlt hge]
    exact ⟨_, exec_accepted hinit htime, accepted_effectOf (.envlSetTime time) s, rfl⟩
  · exact ⟨_, exec_accepted hinit rfl, accepted_effectOf .envlTrigger s, rfl⟩
  · rintro s _ hinit rfl
    exact ⟨_, _, exec_accepted hinit rfl, accepted_effectOf .envlProcess s, envlNext_of_neg,
      envlNext_of_not_neg, rfl⟩

/-! ### The value between triggers, and the samples (R158, R159) -/

/-- In `[0, 1]` only `+0.0` and `-0.0` are not above `+0.0`. -/
theorem eq_zero_of_unit_of_le_zero {x : F32} (hunit : x.within .zero .one = true) (hneg : x ≠ .negZero)
    (hle : x.le .zero = true) : x = .zero := by
  obtain ⟨-, -, hkey⟩ := F32.le_iff.1 hle
  rw [unit_key hunit] at hkey
  have hmag : x.mag = 0 := Nat.le_zero.1 (Int.ofNat_le.1 hkey)
  exact (eq_zero_or_negZero (F32.isZero_iff.2 hmag)).resolve_right hneg

/-- At rest the envelope stays at rest. -/
theorem envlNext_zero {rate : F32} (hrate : rate.within .zero .one = true) : envlNext .zero rate = .zero := by
  obtain ⟨hunit, hneg, hle⟩ := envlNext_ok zero_within_unit zero_ne_negZero hrate
  exact eq_zero_of_unit_of_le_zero hunit hneg hle

/-- `ENVL_INIT` stores `+0.0`, `ENVL_PROCESS` the value less the rate; the rest do not write the value. -/
theorem effectOf_envl_value_le {i : Instr} (hi : i ≠ .envlTrigger) {s : State}
    (hvalue : s.envl.value.within .zero .one = true) (hneg : s.envl.value ≠ .negZero)
    (hrate : s.envl.rate.within .zero .one = true) :
    (effectOf i s).envl.value.le s.envl.value = true := by
  have hself : s.envl.value.le s.envl.value = true :=
    F32.le_refl_of_not_nan _ (F32.not_nan_of_finite (unit_finite hvalue))
  by_cases hu : unitOf i = .envl
  · cases i with
    | envlInit fs => exact (Bool.and_eq_true_iff.1 hvalue).1
    | envlSetTime time => exact hself
    | envlTrigger => exact absurd rfl hi
    | envlProcess =>
      obtain ⟨-, -, hle⟩ := envlNext_ok hvalue hneg hrate
      exact hle
    | _ => cases hu
  · rwa [effectOf_envl_of_ne hu]

/-- Settles O42: a refusal leaves the value, an effect does not raise it, and `ENVL_PROCESS` is accepted. -/
theorem envlValueNeverRises : Obligations.EnvlValueNeverRises := by
  unfold Obligations.EnvlValueNeverRises
  intro i s t r hinit hinv h hr
  obtain ⟨-, hvalue, hneg, hrate⟩ := hinv hinit
  refine ⟨fun hi => ?_, ?_⟩
  · rcases exec_next_cases h with ⟨c, -, rfl⟩ | rfl
    · exact F32.le_refl_of_not_nan _ (F32.not_nan_of_finite (unit_finite hvalue))
    · exact effectOf_envl_value_le hi hvalue hneg hrate
  · rintro rfl
    cases exec_accepted_next h hinit rfl
    cases hr
    rw [rspData_rspWord]
    obtain ⟨hunit, -, -⟩ := envlNext_ok hvalue hneg hrate
    refine ⟨hunit, fun hzero => ?_⟩
    rw [dataOf, hzero, envlNext_zero hrate]

end Sys2Proof.Machine
end

section
/-! PROOFS. The sequencer's commands (44_sequencer.md R176 to R189): what each stores, which arrays it regenerates, and the
cursor's way round the length (R187, R190). -/

namespace Sys2Proof.Machine

/-! ### `SEQ_INIT` (R177) -/

theorem vectorOf_replicate {α : Type} (n : Nat) (d v : α) : vectorOf n d (.replicate n v) = .replicate n v := by
  ext i hi
  simp [vectorOf, List.getD, hi]

/-- One run fills the 32 steps with the one palette entry. -/
theorem cvsOf_single (pal : Vector F32 32) (cvseed : BitVec 32) : cvsOf pal 1 .zero cvseed = .replicate 32 pal[0] := by
  have hruns : totalRuns 1 .zero = 1 := by decide +kernel
  have hlen : runLength cfg.seqSteps 1 = 32 := by decide
  have hshuffle : shuffledRuns 1 1 cvseed = [0] := rfl
  rw [cvsOf, hruns, hshuffle]
  simp [runValues, hlen]

/-- No gate is set at density `+0.0`. -/
theorem gatesOf_zero : gatesOf .zero = .replicate 32 false := by decide +kernel

/-- Settles O44: the effect of `SEQ_INIT`, with the gates of density 0 and the one run of complexity 1 and spread 0. -/
theorem seqInitResult : Obligations.SeqInitResult := by
  unfold Obligations.SeqInitResult
  refine fun s => ⟨_, exec_accepted rfl rfl, accepted_effectOf .seqInit s, rfl, rfl, rfl, rfl, rfl, ?_, rfl, rfl, rfl,
    rfl, ?_, rfl, ?_⟩
  · change biasMid = _
    decide +kernel
  · change vectorOf 32 false (gatesOf .zero) = _
    rw [gatesOf_zero, vectorOf_replicate]
  · change vectorOf 32 F32.zero (cvsOf _ 1 .zero 0) = _
    rw [cvsOf_single, vectorOf_replicate]
    rfl

/-! ### The setters (R178 to R185) -/

theorem clampCount_eq (n : BitVec 32) : clampCount 1 32 n = Nat.max 1 (Nat.min n.toNat 32) := by
  unfold clampCount
  change _ = max 1 (min n.toNat 32)
  split_ifs <;> omega

/-- A cursor reduced by a length of at most 32 fits its 5-bit register. -/
theorem toNat_cursor (a : Nat) {len : Nat} (h1 : 1 ≤ len) (h32 : len ≤ 32) :
    (BitVec.ofNat 5 (a % len)).toNat = a % len := by
  rw [BitVec.toNat_ofNat]
  exact Nat.mod_eq_of_lt ((Nat.mod_lt a h1).trans_le h32)

/-- Settles O45: the clamped length and the reduced cursor fit their registers. -/
theorem seqSetLenResult : Obligations.SeqSetLenResult := by
  unfold Obligations.SeqSetLenResult
  intro s n hinit
  obtain ⟨h1, h32⟩ := clampCount_range n
  refine ⟨_, clampCount 1 32 n, exec_accepted hinit rfl, accepted_effectOf (.seqSetLen n) s, clampCount_eq n, rfl,
    toNat_clampCount n, toNat_cursor _ h1 h32, ?_⟩
  exact (toNat_cursor_lt _ h1 h32).trans_eq (toNat_clampCount n).symm

/-- The control voltages are the function of the other registers already. -/
theorem regenCv_of_seqInv {q : SeqState} (hinit : q.init = true) (h : SeqInv q) : regenCv q = q := by
  obtain ⟨-, -, -, hcv⟩ := seqInv_iff.1 h hinit
  rw [regenCv, ← hcv]

/-- Settles O46: each setter's effect is its register, then the regeneration that R176 gives it. -/
theorem seqRegenerationTable : Obligations.SeqRegenerationTable := by
  unfold Obligations.SeqRegenerationTable
  refine fun s hinit => ⟨fun n => ?_, ?_, ?_, ?_, fun n => ?_, fun n => ?_, ?_⟩
  · refine ⟨_, clampCount 1 32 n, _, exec_accepted hinit rfl, accepted_effectOf (.seqSetComplexity n) s, clampCount_eq n,
      rfl, toNat_clampCount n, ?_⟩
    rw [← toNat_clampCount n]
    rfl
  · rintro d _ hd rfl
    exact ⟨_, exec_accepted hinit hd, accepted_effectOf (.seqSetDensity d) s, rfl⟩
  · rintro x _ hx rfl
    exact ⟨_, exec_accepted hinit hx, accepted_effectOf (.seqSetSpread x) s, rfl⟩
  · rintro b _ hb rfl
    exact ⟨_, _, exec_accepted hinit hb, accepted_effectOf (.seqSetBias b) s, rfl, rfl⟩
  · exact ⟨_, exec_accepted hinit rfl, accepted_effectOf (.seqSetCvSeed n) s, rfl⟩
  · exact ⟨_, _, exec_accepted hinit rfl, accepted_effectOf (.seqSetPalSeed n) s, rfl, rfl⟩
  · exact ⟨_, exec_accepted hinit rfl, accepted_effectOf .seqRegenCv s, rfl, regenCv_of_seqInv hinit⟩

/-! ### The pure reads (R188, R189) -/

/-- Bit `k` of the mask is gate `k`. -/
theorem getLsbD_gateMask (gate : Vector Bool 32) (k : Fin 32) : (gateMask gate).getLsbD k = gate[k] := by
  have hbits := (testBit_sum_pow (fun i => gate.toList.getD i false) 32).2 k k.isLt
  rw [gateMask, BitVec.getLsbD_ofNat, hbits]
  simp

/-- Settles O48: the accepted index is its own remainder by 32; the mask by `getLsbD_gateMask`. -/
theorem seqReadsResult : Obligations.SeqReadsResult := by
  unfold Obligations.SeqReadsResult
  refine fun s hinit => ⟨fun idx h => ?_, fun idx h => ?_, ?_⟩
  · have hdata : dataOf (.seqReadCv idx) s = s.seq.cv[idx.toNat].bits := by
      simp [dataOf, memRead, Nat.mod_eq_of_lt h]
    rw [← hdata]
    exact ⟨_, exec_accepted hinit (decide_eq_true (Nat.le_of_lt_succ h)), accepted_effectOf (.seqReadCv idx) s, rfl⟩
  · exact exec_refused_badArg (i := .seqReadCv idx) hinit (decide_eq_false (not_le.2 h))
  · exact ⟨_, _, exec_accepted hinit rfl, accepted_effectOf .seqReadGates s, rfl, getLsbD_gateMask s.seq.gate⟩

/-! ### `SEQ_PROCESS` and the way of the cursor (R187, R190) -/

/-- Settles O47: the effect of `SEQ_PROCESS`; the advanced cursor fits its register. -/
theorem seqProcessResult : Obligations.SeqProcessResult := by
  unfold Obligations.SeqProcessResult
  intro s hinit h1 h32
  exact ⟨_, exec_accepted hinit rfl, accepted_effectOf .seqProcess s, rfl, toNat_cursor _ h1 h32⟩

theorem KeepsUnitsBut.trans {u : UnitId} {s t v : State} (hst : KeepsUnitsBut u s t) (htv : KeepsUnitsBut u t v) :
    KeepsUnitsBut u s v := by
  obtain ⟨a1, a2, a3, a4, a5, a6⟩ := hst
  obtain ⟨b1, b2, b3, b4, b5, b6⟩ := htv
  exact ⟨fun h => (b1 h).trans (a1 h), fun h => (b2 h).trans (a2 h), fun h => (b3 h).trans (a3 h),
    fun h => (b4 h).trans (a4 h), fun h => (b5 h).trans (a5 h), fun h => (b6 h).trans (a6 h)⟩

/-- `n` commands `SEQ_PROCESS` move the cursor `n` on modulo the length; GATE apart, they write nothing else. -/
theorem runWords_seqProcess (n : Nat) (s : State) (hinit : s.seq.init = true) (hcur : s.seq.cur.toNat < s.seq.len.toNat)
    (h32 : s.seq.len.toNat ≤ 32) :
    ∃ t, runWords s (.replicate n (encode .seqProcess)) = .next t ∧
      t.seq = { s.seq with gateflag := t.seq.gateflag, cur := t.seq.cur } ∧
      t.seq.cur.toNat = (s.seq.cur.toNat + n) % s.seq.len.toNat ∧ KeepsUnitsBut .seq s t ∧ t.err = s.err := by
  induction n generalizing s with
  | zero =>
    refine ⟨_, runWords_nil s, rfl, (Nat.mod_eq_of_lt hcur).symm, ?_, rfl⟩
    simp [KeepsUnitsBut]
  | succ n ih =>
    have h1 : 1 ≤ s.seq.len.toNat := Nat.one_le_of_lt hcur
    obtain ⟨u, hexec, ⟨-, hkeeps, herr⟩, hseq, hadv⟩ := seqProcessResult s hinit h1 h32
    obtain ⟨u', hu', hrun⟩ := runWords_cons s (encode .seqProcess) (.replicate n (encode .seqProcess))
    rw [stepOnWord_encode, hexec] at hu'
    cases hu'
    have hlen : u.seq.len = s.seq.len := by rw [hseq]
    obtain ⟨t, ht, htseq, htcur, htkeeps, hterr⟩ := ih u (by rw [hseq]; exact hinit)
      (by rw [hadv, hlen]; exact Nat.mod_lt _ h1) (by rw [hlen]; exact h32)
    refine ⟨t, hrun.trans ht, ?_, ?_, hkeeps.trans htkeeps, hterr.trans herr⟩
    · rw [htseq, hseq]
    · rw [htcur, hlen, hadv, Nat.mod_add_mod, Nat.add_assoc, Nat.add_comm 1]

/-- Settles O54: the length's worth of commands moves the cursor by the length. -/
theorem cursorReturns : Obligations.CursorReturns := by
  unfold Obligations.CursorReturns
  intro s hinit hinv
  obtain ⟨⟨⟨-, h32⟩, -, hcur, -⟩, -⟩ := seqInv_iff.1 hinv hinit
  obtain ⟨t, hrun, hseq, htcur, hkeeps, herr⟩ := runWords_seqProcess s.seq.len.toNat s hinit hcur h32
  rw [Nat.add_mod_right, Nat.mod_eq_of_lt hcur] at htcur
  refine ⟨t, hrun, ?_, hkeeps, herr⟩
  rw [hseq, BitVec.eq_of_toNat_eq htcur]

end Sys2Proof.Machine
end

section
/-! PROOFS. The pseudo-random generator (44_sequencer.md R166, R167) and the gates (R170). -/

namespace Sys2Proof.Machine

/-! ### The generator step and the seeding (R166, R167) -/

/-- The step is three words xored with themselves shifted, and each of these determines its word. -/
theorem xorshift_injective : Function.Injective xorshift := fun _ _ h =>
  xor_shl_injective (by decide : 0 < 13)
    (xor_shr_injective (by decide : 0 < 17) (xor_shl_injective (by decide : 0 < 5) h))

theorem xorshift_zero : xorshift 0#32 = 0#32 := by decide

theorem xorshift_eq_zero {x : BitVec 32} : xorshift x = 0#32 ↔ x = 0#32 :=
  ⟨fun h => xorshift_injective (h.trans xorshift_zero.symm), fun h => h ▸ xorshift_zero⟩

theorem xorshifts_injective (n : Nat) : Function.Injective (xorshifts n) := by
  induction n with
  | zero => exact fun _ _ h => h
  | succ n ih => exact fun _ _ h => xorshift_injective (ih h)

theorem xorshifts_zero (n : Nat) : xorshifts n 0#32 = 0#32 := by
  induction n with
  | zero => rfl
  | succ n ih => rw [xorshifts, xorshift_zero, ih]

/-- The whitened seed, before the warm-up. -/
def whitened (sd : BitVec 32) : BitVec 32 := if sd = 0x9E3779B9#32 then 0x9E3779B9#32 else sd ^^^ 0x9E3779B9#32

theorem seedState_eq (sd : BitVec 32) : seedState sd = xorshifts 4 (whitened sd) := by
  have hmix : cfg.prngMix = 0x9E3779B9#32 := rfl
  simp only [seedState, whitened, hmix, BitVec.xor_eq_zero_iff]
  rfl

theorem whitened_ne_zero (sd : BitVec 32) : whitened sd ≠ 0#32 := by
  unfold whitened
  split
  · decide
  · rwa [ne_eq, BitVec.xor_eq_zero_iff]

/-- The mixing constant is whitened like the seed 0. -/
theorem whitened_eq_xor (sd : BitVec 32) : whitened sd = (if sd = 0x9E3779B9#32 then 0#32 else sd) ^^^ 0x9E3779B9#32 := by
  unfold whitened
  split <;> simp

/-- So only 0 and the mixing constant meet. -/
theorem whitened_eq_iff (a b : BitVec 32) : whitened a = whitened b ↔
    a = b ∨ (a = 0#32 ∧ b = 0x9E3779B9#32) ∨ (a = 0x9E3779B9#32 ∧ b = 0#32) := by
  rw [whitened_eq_xor, whitened_eq_xor, BitVec.xor_left_inj]
  split_ifs with ha hb hb
  · simp [ha, hb]
  · simp [ha, hb, Ne.symm hb, @eq_comm _ 0#32 b]
  · simp [ha, hb]
  · simp [ha, hb]

/-- Settles O53: the step and the warm-up are one-to-one and fix 0; the whitened seed is never 0. -/
theorem generatorNeverSticks : Obligations.GeneratorNeverSticks := by
  unfold Obligations.GeneratorNeverSticks
  refine ⟨?_, ?_, xorshift_injective, fun x => xorshift_eq_zero, fun sd h => ?_, fun a b => ?_, by decide, by decide⟩
  · rintro x _ _ rfl rfl
    rfl
  · rintro sd _ rfl
    exact seedState_eq sd
  · rw [seedState_eq, ← xorshifts_zero 4] at h
    exact whitened_ne_zero sd (xorshifts_injective 4 h)
  · rw [seedState_eq, seedState_eq, (xorshifts_injective 4).eq_iff, whitened_eq_iff]

/-! ### The gates (R170, R190) -/

/-- The count of a density in range is `ROUNDI(density * 32)` itself. -/
theorem gateCount_eq {density : F32} (h : density.within .zero .one = true) :
    (gateCount density : Int) = (density.mul thirtyTwo).roundi := Int.toNat_of_nonneg (gateCount_range h).1

theorem gateCount_le {density : F32} (h : density.within .zero .one = true) : gateCount density ≤ 32 := by
  have hle := (gateCount_range h).2
  rw [← gateCount_eq h] at hle
  exact_mod_cast hle

/-- Of at most 32 gates none has its place past the last step. -/
theorem gatePos_eq {n i : Nat} (hn : n ≤ 32) (hi : i < n) : gatePos n i = (64 * i + n) / (2 * n) := by
  refine Nat.mod_eq_of_lt ((Nat.div_lt_iff_lt_mul (by omega)).2 ?_)
  omega

/-- The next gate is at least one step on: `64 >= 2 n`. -/
theorem gatePos_strictMonoOn {n : Nat} (hn : n ≤ 32) : StrictMonoOn (gatePos n) (Set.Iio n) := by
  intro i hi j hj hij
  rw [gatePos_eq hn hi, gatePos_eq hn hj, ← Nat.succ_le_iff, Nat.succ_eq_add_one,
    ← Nat.add_div_right _ (Nat.mul_pos two_pos (Nat.zero_lt_of_lt hi))]
  exact Nat.div_le_div_right (by omega)

/-- The places of the gates, in order. -/
def gatePlaces (n : Nat) : List Nat := (List.range n).map (gatePos n)

theorem mem_gatePlaces {n k : Nat} : k ∈ gatePlaces n ↔ ∃ i, i < n ∧ gatePos n i = k := by simp [gatePlaces]

theorem gatePlaces_nodup {n : Nat} (hn : n ≤ 32) : (gatePlaces n).Nodup :=
  List.Nodup.map_on (fun _ hi _ hj h =>
    (gatePos_strictMonoOn hn).injOn (List.mem_range.1 hi) (List.mem_range.1 hj) h) List.nodup_range

theorem gatesOf_eq (density : F32) :
    gatesOf density = (List.range 32).map fun k => decide (k ∈ gatePlaces (gateCount density)) := by
  refine List.map_congr_left fun k _ => ?_
  rw [Bool.eq_iff_iff, decide_eq_true_iff, mem_gatePlaces]
  simp

/-- The steps with a gate are the gates' places: as many as there are gates. -/
theorem count_gatesOf {density : F32} (h : density.within .zero .one = true) :
    (gatesOf density).count true = gateCount density := by
  have hperm : ((List.range 32).filter fun k => decide (k ∈ gatePlaces (gateCount density))).Perm
      (gatePlaces (gateCount density)) := by
    refine (List.perm_ext_iff_of_nodup (List.nodup_range.filter _) (gatePlaces_nodup (gateCount_le h))).2 fun k => ?_
    rw [List.mem_filter, decide_eq_true_iff, List.mem_range, and_iff_right_iff_imp, mem_gatePlaces]
    rintro ⟨i, -, rfl⟩
    exact Nat.mod_lt _ (by norm_num)
  calc (gatesOf density).count true
      = ((List.range 32).filter fun k => decide (k ∈ gatePlaces (gateCount density))).length := by
        rw [gatesOf_eq, List.count, List.countP_map, List.countP_eq_length_filter]
        congr 2
        funext k
        simp
    _ = (gatePlaces (gateCount density)).length := hperm.length_eq
    _ = gateCount density := by simp [gatePlaces]

theorem gatesOf_getElem? {density : F32} {k : Nat} (hk : k < 32) :
    (gatesOf density)[k]? = some true ↔ ∃ i, i < gateCount density ∧ gatePos (gateCount density) i = k := by
  rw [gatesOf_eq, ← mem_gatePlaces]
  simp [hk]

/-- The first gate stands at step 0. -/
theorem gatesOf_head? {density : F32} (h : density.within .zero .one = true) :
    (gatesOf density).head? = some true ↔ 1 ≤ gateCount density := by
  rw [List.head?_eq_getElem?, gatesOf_getElem? (by norm_num)]
  refine ⟨fun ⟨i, hi, _⟩ => Nat.one_le_of_lt hi, fun h1 => ⟨0, h1, ?_⟩⟩
  rw [gatePos_eq (gateCount_le h) h1]
  exact Nat.div_eq_of_lt (by omega)

/-- Settles O49: no two of the at most 32 gates share a place. -/
theorem gateCountIsExact : Obligations.GateCountIsExact := by
  unfold Obligations.GateCountIsExact
  intro density h
  exact ⟨gateCount density, gateCount_eq h, gateCount_le h, by simp [gatesOf_eq], count_gatesOf h,
    fun _ hk => gatesOf_getElem? hk, gatesOf_head? h⟩

end Sys2Proof.Machine
end

section
/-! PROOFS. The palette (44_sequencer.md R168 to R173, R190): its draws in their order, and the sort. -/

namespace Sys2Proof.Machine

/-! ### The draws (R172, R173) -/

/-- The generator state before draw `j`: two steps for each draw before it. -/
def drawState (st : BitVec 32) (j : Nat) : BitVec 32 := (fun x => xorshift (xorshift x))^[j] st

theorem drawState_succ (st : BitVec 32) (j : Nat) : drawState st (j + 1) = xorshift (xorshift (drawState st j)) :=
  Function.iterate_succ_apply' ..

/-- Draw `j` from the state `st`. -/
def draw (bias : F32) (st : BitVec 32) (j : Nat) : F32 :=
  paletteValue bias (xorshift (drawState st j)) (xorshift (xorshift (drawState st j)))

theorem paletteDraws_eq (bias : F32) (n : Nat) (st : BitVec 32) :
    paletteDraws bias n st = (List.range n).map (draw bias st) := by
  induction n generalizing st with
  | zero => rfl
  | succ n ih =>
    rw [paletteDraws, ih, List.range_succ_eq_map, List.map_cons, List.map_map]
    rfl

theorem length_paletteDraws (bias : F32) (n : Nat) (st : BitVec 32) : (paletteDraws bias n st).length = n := by
  simp [paletteDraws_eq]

/-- `clamp` passes a NaN through and brings any number into `[0, 1]`. -/
theorem clampUnit_nan_or_within (x : F32) : (clampUnit x).isNaN = true ∨ (clampUnit x).within .zero .one = true := by
  cases hx : x.isNaN with
  | true =>
    have hkeeps : clampUnit x = x := by simp [clampUnit, F32.clamp, F32.gt, F32.lt, hx]
    exact .inl (hkeeps.symm ▸ hx)
  | false => exact .inr (clamp_within hx (by decide))

/-! ### The sort (R173) -/

theorem sortAscending_perm (vs : List F32) : (sortAscending vs).Perm vs := by
  have hperm := (List.reverse_perm _).trans (foldl_insert_perm vs [])
  rwa [List.append_nil] at hperm

/-- Insertions of numbers keep the descending order. -/
theorem foldl_insert_sorted (vs p : List F32) (hvs : ∀ v ∈ vs, v.isNaN = false) (hp : ∀ v ∈ p, v.isNaN = false)
    (hsorted : p.Pairwise fun x y => y.le x = true) :
    (vs.foldl (fun p v => insertFromTop v p) p).Pairwise fun x y => y.le x = true := by
  induction vs generalizing p with
  | nil => exact hsorted
  | cons v vs ih =>
    obtain ⟨hv, hrest⟩ := List.forall_mem_cons.1 hvs
    refine ih _ hrest (fun x hx => ?_) (insertFromTop_sorted v p hv hp hsorted)
    rcases List.mem_cons.1 ((insertFromTop_perm v p).mem_iff.1 hx) with rfl | hx
    · exact hv
    · exact hp x hx

theorem sortAscending_sorted {vs : List F32} (hvs : ∀ v ∈ vs, v.isNaN = false) :
    (sortAscending vs).Pairwise fun x y => x.le y = true :=
  List.pairwise_reverse.2 (foldl_insert_sorted vs [] hvs (by simp) List.Pairwise.nil)

theorem sortAscending_concat (vs : List F32) (v : F32) :
    sortAscending (vs ++ [v]) = (insertFromTop v (sortAscending vs).reverse).reverse := by
  simp [sortAscending]

/-- One value more goes past exactly the top entries that it is below. -/
theorem sortAscending_insert (vs : List F32) (v : F32) :
    ∃ below above, sortAscending vs = below ++ above ∧ sortAscending (vs ++ [v]) = below ++ v :: above ∧
      (∀ x ∈ above, v.lt x = true) ∧ (∀ x, below.getLast? = some x → v.lt x = false) := by
  obtain ⟨above, below, hsplit, hinsert, habove, hbelow⟩ := insertFromTop_split v (sortAscending vs).reverse
  refine ⟨below.reverse, above.reverse, ?_, ?_, fun x hx => habove x (List.mem_reverse.1 hx), fun x hx => ?_⟩
  · rw [← List.reverse_append, ← hsplit, List.reverse_reverse]
  · rw [sortAscending_concat, hinsert]
    simp
  · rw [List.getLast?_reverse] at hx
    exact hbelow x hx

/-- Settles O50: the sort by its lemmas; the draws by `paletteDraws_eq`, which names draw `j` whatever their number. -/
theorem paletteSorted : Obligations.PaletteSorted := by
  unfold Obligations.PaletteSorted
  refine ⟨fun seed cpx bias => ⟨sortAscending_perm _, sortAscending_sorted, ?_, fun v hv => ?_, rfl⟩,
    fun vs => ⟨sortAscending_perm vs, sortAscending_sorted, sortAscending_insert vs⟩,
    fun seed cpx bias => ⟨drawState (seedState seed), rfl, fun j hj => ⟨drawState_succ _ j, ?_⟩⟩,
    fun bias st c d hcd => ?_⟩
  · exact (sortAscending_perm _).length_eq.trans (length_paletteDraws ..)
  · have hdraw := (sortAscending_perm _).mem_iff.1 hv
    rw [paletteDraws_eq] at hdraw
    obtain ⟨j, -, rfl⟩ := List.mem_map.1 hdraw
    exact clampUnit_nan_or_within _
  · rintro _ _ _ _ _ rfl rfl rfl rfl rfl
    rw [paletteDraws_eq, List.getElem?_map, List.getElem?_range hj]
    rfl
  · rw [paletteDraws_eq, paletteDraws_eq, ← List.map_take, List.take_range, Nat.min_eq_left hcd]

end Sys2Proof.Machine
end

section
/-! PROOFS. The runs of the control voltages (44_sequencer.md R174, R175, R190): their number, their shuffled order and
their lengths. -/

namespace Sys2Proof.Machine

/-! ### The run count (R174) -/

/-- `toF32` gives 0 and every positive number the sign plus. -/
theorem ofInt_sign {n : Int} (h : 0 ≤ n) : (F32.ofInt n).sign = false :=
  roundUnits_sign_of_nonneg (Int.mul_nonneg h (Int.natCast_nonneg _))

/-- `ROUNDI` undoes `toF32`. -/
theorem roundi_ofInt {n : Nat} (h : n ≤ 2 ^ 24) : (F32.ofInt n).roundi = n := by
  obtain ⟨-, hunits⟩ := F32.ofInt_exact (n := n) (by simpa using h)
  have hsign := ofInt_sign (Int.natCast_nonneg n)
  have hmag : magUnits (F32.ofInt n).mag = n * unitsPerOne := by
    have hvalue : (F32.ofInt n).units = (magUnits (F32.ofInt n).mag : Int) := by simp [F32.units, hsign]
    exact_mod_cast hvalue.symm.trans hunits
  have hsmall : (F32.ofInt n).mag < magTwo31 := by
    have htwo31 : magUnits magTwo31 = 2 ^ 31 * unitsPerOne := by decide +kernel
    rw [← not_le, ← magUnits_le_iff, hmag, htwo31, not_le]
    exact Nat.mul_lt_mul_of_pos_right (by omega) unitsPerOne_pos
  obtain ⟨hle, hge⟩ := roundi_range (m := n) (n := n) (by simp [hsign]) hsmall hmag.ge hmag.le
  exact le_antisymm hge hle

theorem one_mul_of_finite {x : F32} (hx : x.isFinite = true) : F32.one.mul x = x := by
  obtain ⟨hmag, hsign⟩ := F32.mul_mag F32.one_finite hx
  have hone : magUnits F32.one.mag = unitsPerOne := by decide +kernel
  refine F32.eq_of_sign_mag (hsign.trans (Bool.false_bne _)) ?_
  rw [hmag, hone, Nat.mul_comm]
  exact roundMag_exact _ _ unitsPerOne_pos (F32.isFinite_iff.1 hx).le

/-- `toF32` turns small sums into sums. -/
theorem ofInt_add_ofInt {m n : Nat} (hm : m ≤ 2 ^ 24) (hn : n ≤ 2 ^ 24) :
    (F32.ofInt m).add (F32.ofInt n) = F32.ofInt (m + n : Nat) := by
  obtain ⟨hmfin, hmunits⟩ := F32.ofInt_exact (n := m) (by simpa using hm)
  obtain ⟨hnfin, hnunits⟩ := F32.ofInt_exact (n := n) (by simpa using hn)
  rw [F32.add_finite hmfin hnfin, hmunits, hnunits, ofInt_sign (Int.natCast_nonneg m), Bool.false_and, ← add_mul,
    Nat.cast_add]
  rfl

section
variable {cpx : Nat} {spread : F32} (h1 : 1 ≤ cpx) (h32 : cpx ≤ 32)
include h1 h32

/-- The count is positive, so the rule's number is not negative. -/
theorem totalRuns_eq (hs : spread.within .zero .one = true) :
    (totalRuns cpx spread : Int) = ((F32.ofInt cpx).add (spread.mul (F32.ofInt (32 - cpx)))).roundi := by
  obtain ⟨hlo, -⟩ := totalRuns_range h1 h32 hs
  have hpos := Int.lt_toNat.1 (Nat.zero_lt_of_lt (h1.trans hlo))
  exact Int.toNat_of_nonneg hpos.le

theorem totalRuns_of_isZero (hz : spread.isZero = true) : totalRuns cpx spread = cpx := by
  obtain ⟨hfin, -⟩ := F32.ofInt_exact (n := cpx) (by simp; omega)
  obtain ⟨hrestfin, -⟩ := F32.ofInt_exact (n := 32 - cpx) (by omega)
  have hprod := isZero_mul hz hrestfin
  have hprodfin : (spread.mul (F32.ofInt (32 - cpx))).isFinite = true :=
    F32.isFinite_iff.2 (by rw [F32.isZero_iff.1 hprod]; decide)
  change ((F32.ofInt cpx).add (spread.mul (F32.ofInt (32 - cpx)))).roundi.toNat = cpx
  rw [add_of_isZero hfin (ofInt_sign (Int.natCast_nonneg _)) hprodfin hprod, roundi_ofInt (by omega), Int.toNat_natCast]

theorem totalRuns_one : totalRuns cpx .one = 32 := by
  obtain ⟨hrestfin, -⟩ := F32.ofInt_exact (n := (32 - cpx : Nat)) (by simp; omega)
  change ((F32.ofInt cpx).add (F32.one.mul (F32.ofInt ((32 : Nat) - cpx)))).roundi.toNat = 32
  rw [← Nat.cast_sub h32, one_mul_of_finite hrestfin, ofInt_add_ofInt (by omega) (by omega), Nat.add_sub_cancel' h32,
    roundi_ofInt (by norm_num), Int.toNat_natCast]

end

/-! ### The shuffle (R174) -/

/-- The generator state after `n` steps from the seed's. -/
def cvState (cvseed : BitVec 32) (n : Nat) : BitVec 32 := xorshift^[n] (seedState cvseed)

/-- The list after `n` of the exchanges that begin at entry `k` with the generator state `st`. -/
def shuffleTrace (k : Nat) (st : BitVec 32) (l : List Nat) : Nat → List Nat
  | 0 => l
  | n + 1 => swapAt (shuffleTrace k st l n) (k - n) (top24 (xorshift^[n + 1] st) % (k - n + 1))

/-- After its first exchange a shuffle goes on as the shuffle one entry lower. -/
theorem shuffleTrace_succ (k : Nat) (st : BitVec 32) (l : List Nat) (n : Nat) :
    shuffleTrace (k + 1) st l (n + 1) =
      shuffleTrace k (xorshift st) (swapAt l (k + 1) (top24 (xorshift st) % (k + 2))) n := by
  induction n with
  | zero => rfl
  | succ n ih =>
    rw [shuffleTrace, ih, shuffleTrace, Nat.add_sub_add_right, Function.iterate_succ_apply]

theorem shuffleDown_eq (k : Nat) (st : BitVec 32) (l : List Nat) : shuffleDown k st l = shuffleTrace k st l k := by
  induction k generalizing st l with
  | zero => rfl
  | succ k ih => rw [shuffleDown, ih, shuffleTrace_succ]

theorem length_shuffleTrace (k : Nat) (st : BitVec 32) (l : List Nat) (n : Nat) :
    (shuffleTrace k st l n).length = l.length := by
  induction n with
  | zero => rfl
  | succ n ih => simp [shuffleTrace, swapAt, ih]

/-- The indices before the shuffle cycle through the palette. -/
def cycledIndices (tr cpx : Nat) : List Nat := (List.range tr).map fun k => k % cpx

theorem shuffledRuns_perm (tr cpx : Nat) (cvseed : BitVec 32) :
    (shuffledRuns tr cpx cvseed).Perm (cycledIndices tr cpx) := by
  refine shuffleDown_perm _ _ _ ?_
  rcases Nat.eq_zero_or_pos tr with rfl | htr
  · exact .inr rfl
  · left
    simp only [List.length_map, List.length_range]
    omega

theorem length_shuffledRuns (tr cpx : Nat) (cvseed : BitVec 32) : (shuffledRuns tr cpx cvseed).length = tr := by
  simp [(shuffledRuns_perm tr cpx cvseed).length_eq, cycledIndices]

theorem mem_shuffledRuns_iff {tr cpx : Nat} (h1 : 1 ≤ cpx) (hle : cpx ≤ tr) (cvseed : BitVec 32) (k : Nat) :
    k ∈ shuffledRuns tr cpx cvseed ↔ k < cpx := by
  rw [(shuffledRuns_perm tr cpx cvseed).mem_iff, cycledIndices, List.mem_map]
  constructor
  · rintro ⟨i, -, rfl⟩
    exact Nat.mod_lt i h1
  · exact fun hk => ⟨k, List.mem_range.2 (hk.trans_le hle), Nat.mod_eq_of_lt hk⟩

/-- Settles O51: the shuffle runs through `shuffleTrace`, exchange by exchange. -/
theorem shufflePermutes : Obligations.ShufflePermutes := by
  unfold Obligations.ShufflePermutes
  intro tr cpx cvseed
  refine ⟨⟨shuffleTrace (tr - 1) (seedState cvseed) (cycledIndices tr cpx), cvState cvseed, rfl, rfl, ?_,
    (shuffleDown_eq ..).symm⟩, shuffledRuns_perm tr cpx cvseed,
    fun h1 hle k hk => (mem_shuffledRuns_iff h1 hle cvseed k).2 hk⟩
  rintro n hn k j rfl rfl
  have hlen : (shuffleTrace (tr - 1) (seedState cvseed) (cycledIndices tr cpx) n).length = tr := by
    simp [length_shuffleTrace, cycledIndices]
  have hj := Nat.mod_lt (top24 (cvState cvseed (n + 1))) (Nat.succ_pos (tr - 1 - n))
  exact ⟨Function.iterate_succ_apply' .., fun m =>
    swapAt_getElem? m (by omega) (by rw [hlen]; exact hj.trans_le (by omega))⟩

/-! ### The runs (R175) -/

/-- The step at which run `r` of `total` begins. -/
def runStart (total : Nat) : Nat → Nat
  | 0 => 0
  | r + 1 => runStart total r + runLength (32 - runStart total r) (total - r)

/-- Where a step is left for each remaining run, the next of them takes one and leaves one for each after it. -/
theorem runLength_of_room {start total r : Nat} (hr : r < total) (hroom : start + (total - r) ≤ 32) :
    1 ≤ runLength (32 - start) (total - r) ∧
      start + runLength (32 - start) (total - r) + (total - (r + 1)) ≤ 32 := by
  obtain ⟨hpos, hleft, -⟩ := runLength_spec (steps := 32 - start) (runs := total - (r + 1)) (by omega)
  rw [show total - (r + 1) + 1 = total - r by omega] at hpos hleft
  omega

theorem runStart_add_le {total : Nat} (h32 : total ≤ 32) {r : Nat} (hr : r ≤ total) :
    runStart total r + (total - r) ≤ 32 := by
  induction r with
  | zero => simpa [runStart] using h32
  | succ r ih => exact (runLength_of_room hr (ih (Nat.le_of_succ_le hr))).2

/-- No run is empty. -/
theorem runStart_lt_succ {total : Nat} (h32 : total ≤ 32) {r : Nat} (hr : r < total) :
    runStart total r < runStart total (r + 1) :=
  Nat.lt_add_of_pos_right (runLength_of_room hr (runStart_add_le h32 hr.le)).1

/-- The last run takes the steps that remain. -/
theorem runStart_total {total : Nat} (h1 : 1 ≤ total) (h32 : total ≤ 32) : runStart total total = 32 := by
  obtain ⟨r, rfl⟩ := Nat.exists_eq_add_of_le' h1
  have hroom := runStart_add_le h32 (Nat.le_add_right r 1)
  obtain ⟨-, -, hlast⟩ := runLength_spec (steps := 32 - runStart (r + 1) r) (runs := 0) (by omega)
  rw [runStart, Nat.add_sub_cancel_left, hlast rfl]
  omega

/-- The runs from run `r` on are that run and the runs after it. -/
theorem runValues_drop (pal : Vector F32 32) (idx : List Nat) {r : Nat} (hr : r < idx.length) :
    runValues pal (idx.drop r) (runStart idx.length r) =
      .replicate (runLength (32 - runStart idx.length r) (idx.length - r)) (pal.toList.getD idx[r] .zero) ++
        runValues pal (idx.drop (r + 1)) (runStart idx.length (r + 1)) := by
  have hremain : (idx.drop (r + 1)).length + 1 = idx.length - r := by
    rw [List.length_drop]
    omega
  rw [List.drop_eq_getElem_cons hr, runValues, hremain]
  rfl

/-- The runs before run `r` fill the steps up to its start. -/
theorem runValues_split (pal : Vector F32 32) (idx : List Nat) {r : Nat} (hr : r ≤ idx.length) :
    ∃ before : List F32, before.length = runStart idx.length r ∧
      runValues pal idx 0 = before ++ runValues pal (idx.drop r) (runStart idx.length r) := by
  induction r with
  | zero => exact ⟨[], rfl, rfl⟩
  | succ r ih =>
    obtain ⟨before, hlen, hsplit⟩ := ih (Nat.le_of_succ_le hr)
    rw [runValues_drop pal idx hr, ← List.append_assoc] at hsplit
    refine ⟨_, ?_, hsplit⟩
    rw [List.length_append, hlen, List.length_replicate, runStart]

/-- Every step of run `r` holds the palette entry of the run's index. -/
theorem runValues_getElem? (pal : Vector F32 32) (idx : List Nat) {r k : Nat} (hr : r < idx.length)
    (hlo : runStart idx.length r ≤ k) (hhi : k < runStart idx.length (r + 1)) :
    (runValues pal idx 0)[k]? = some (pal.toList.getD idx[r] .zero) := by
  obtain ⟨before, hlen, hsplit⟩ := runValues_split pal idx hr.le
  have hin : k - before.length < runLength (32 - runStart idx.length r) (idx.length - r) := by
    rw [runStart] at hhi
    omega
  rw [hsplit, List.getElem?_append_right (hlen.trans_le hlo), runValues_drop pal idx hr,
    List.getElem?_append_left (by rwa [List.length_replicate]), List.getElem?_replicate, if_pos hin]

/-- From step 0 on, the runs of a list of indices fill the 32 steps with the entries of these indices. -/
theorem runValues_fill (pal : Vector F32 32) {idx : List Nat} (h0 : idx ≠ []) (h32 : idx.length ≤ 32) :
    (runValues pal idx 0).length = 32 ∧
      ∀ v, v ∈ runValues pal idx 0 ↔ ∃ i ∈ idx, v = pal.toList.getD i .zero :=
  runValues_spec pal idx 0 h0 h32

theorem getD_palette (pal : Vector F32 32) (k : Fin 32) : pal.toList.getD k .zero = pal[k] := by simp

section
variable (pal : Vector F32 32) {cpx : Nat} {spread : F32} (cvseed : BitVec 32) (h1 : 1 ≤ cpx) (h32 : cpx ≤ 32)
  (hs : spread.within .zero .one = true)
include h1 h32 hs

/-- The runs fill the array of control voltages. -/
theorem length_cvsOf : (cvsOf pal cpx spread cvseed).length = 32 := by
  obtain ⟨hlo, hhi⟩ := totalRuns_range h1 h32 hs
  have hlen := length_shuffledRuns (totalRuns cpx spread) cpx cvseed
  obtain ⟨hfill, -⟩ := runValues_fill pal (List.ne_nil_of_length_pos (by omega)) (hlen.trans_le hhi)
  exact hfill

/-- The control voltages are the palette entries below the complexity. -/
theorem mem_cvsOf_iff (v : F32) : v ∈ cvsOf pal cpx spread cvseed ↔ ∃ k : Fin 32, k.val < cpx ∧ v = pal[k] := by
  obtain ⟨hlo, hhi⟩ := totalRuns_range h1 h32 hs
  have hlen := length_shuffledRuns (totalRuns cpx spread) cpx cvseed
  obtain ⟨-, hmem⟩ := runValues_fill pal (List.ne_nil_of_length_pos (by omega)) (hlen.trans_le hhi)
  refine (hmem v).trans ⟨?_, ?_⟩
  · rintro ⟨i, hi, rfl⟩
    have hcpx := (mem_shuffledRuns_iff h1 hlo cvseed i).1 hi
    exact ⟨⟨i, hcpx.trans_le h32⟩, hcpx, getD_palette pal ⟨i, hcpx.trans_le h32⟩⟩
  · rintro ⟨k, hk, rfl⟩
    exact ⟨k, (mem_shuffledRuns_iff h1 hlo cvseed k).2 hk, (getD_palette pal k).symm⟩

/-- Run `r` has an index below the complexity, and holds its palette entry. -/
theorem cvsOf_run {r : Nat} (hr : r < totalRuns cpx spread) :
    ∃ i, i < cpx ∧ (shuffledRuns (totalRuns cpx spread) cpx cvseed)[r]? = some i ∧
      ∀ k, runStart (totalRuns cpx spread) r ≤ k → k < runStart (totalRuns cpx spread) (r + 1) →
        (cvsOf pal cpx spread cvseed)[k]? = pal[i]? := by
  obtain ⟨hlo, -⟩ := totalRuns_range h1 h32 hs
  have hlen := length_shuffledRuns (totalRuns cpx spread) cpx cvseed
  have hr' : r < (shuffledRuns (totalRuns cpx spread) cpx cvseed).length := hr.trans_eq hlen.symm
  have hcpx := (mem_shuffledRuns_iff h1 hlo cvseed _).1 (List.getElem_mem hr')
  refine ⟨_, hcpx, List.getElem?_eq_getElem hr', fun k hfrom hto => ?_⟩
  rw [cvsOf, runValues_getElem? pal _ hr' (by rwa [hlen]) (by rwa [hlen]),
    getD_palette pal ⟨_, hcpx.trans_le h32⟩, Vector.getElem?_eq_getElem (hcpx.trans_le h32)]
  rfl

end

/-- Settles O52: the runs begin at `runStart`; what each holds is `cvsOf_run`, what all hold is `mem_cvsOf_iff`. -/
theorem runsCoverAllSteps : Obligations.RunsCoverAllSteps := by
  unfold Obligations.RunsCoverAllSteps
  intro pal cpx spread cvseed h1 h32 hs
  obtain ⟨hlo, hhi⟩ := totalRuns_range h1 h32 hs
  refine ⟨⟨totalRuns_eq h1 h32 hs, totalRuns_of_isZero h1 h32, fun h => h ▸ totalRuns_one h1 h32, hlo, hhi⟩,
    length_cvsOf pal cvseed h1 h32 hs,
    ⟨runStart (totalRuns cpx spread), rfl, runStart_total (h1.trans hlo) hhi, ?_⟩,
    fun v hv => (mem_cvsOf_iff pal cvseed h1 h32 hs v).1 hv,
    fun k hk => (mem_cvsOf_iff pal cvseed h1 h32 hs _).2 ⟨k, hk, rfl⟩⟩
  rintro r hr _ _ rfl rfl
  exact ⟨rfl, runStart_lt_succ hhi hr, cvsOf_run pal cvseed h1 h32 hs hr⟩

end Sys2Proof.Machine
end

section
/-! PROOFS. The metronome (45_metronome.md): its commands (R195 to R197, R200), the tick and the remainder of `MET_PROCESS`
(R198), and why a stopped metronome stays silent (R196, R199). -/

namespace Sys2Proof.Machine

/-- Settles O56: the effects and the data of the four commands, past their tests. -/
theorem metCommandsResult : Obligations.MetCommandsResult := by
  unfold Obligations.MetCommandsResult
  refine ⟨fun s fs hfin hle => ?_, fun s hinit => ⟨?_, ?_, ?_⟩⟩
  · exact ⟨_, exec_accepted rfl (acceptsRate_iff.2 ⟨hfin, hle⟩), accepted_effectOf (.metInit fs) s, rfl⟩
  · rintro f _ hf rfl
    exact ⟨_, exec_accepted hinit hf, accepted_effectOf (.metSetFreq f) s, rfl⟩
  · exact ⟨_, exec_accepted hinit rfl, accepted_effectOf .metReset s, rfl⟩
  · exact ⟨_, exec_accepted hinit rfl, accepted_effectOf .metGetPhase s, rfl⟩

/-! ### The remainder of a tick, by value (R198) -/

/-- Between 1 and 2, taking 1 off leaves the fractional part, which has no more bits than the number: nothing is rounded. -/
theorem sub_one_exact {x : F32} (hx : x.isFinite = true) (h1 : (unitsPerOne : Int) ≤ x.units)
    (h2 : x.units < 2 * (unitsPerOne : Int)) : (x.sub .one).units = x.units - (unitsPerOne : Int) := by
  obtain ⟨a, j, ha, hj, hv⟩ := magUnits_mod_representable x.mag
  have hmag : x.units = (magUnits x.mag : Int) := units_of_nonneg (by omega)
  have hmod : magUnits x.mag % unitsPerOne = magUnits x.mag - unitsPerOne := by
    rw [Nat.mod_eq_sub_mod (by omega), Nat.mod_eq_of_lt (by omega)]
  rw [F32.sub_finite hx F32.one_finite, F32.one_units]
  exact (roundUnits_representable ha hj (by omega) _).2

/-- A tick under the invariant: the sum is at most 3/2, so the remainder is exact and at most one half. -/
theorem tick_remainder {p d : F32} (hp : IsPhase p) (hd : d.isFinite = true) (hd' : d.within .zero half = true)
    (htick : F32.one.le (p.add d) = true) :
    ((p.add d).sub .one).units = (p.add d).units - (unitsPerOne : Int) ∧ ((p.add d).sub .one).le half = true := by
  have hx := hp.add_finite hd
  obtain ⟨-, hupper⟩ := phase_add_inc_units hp hd hd'
  rw [F32.le_iff_units (by decide) (F32.not_nan_of_finite hx), F32.one_units] at htick
  have hone := unitsPerOne_pos
  have hexact := sub_one_exact hx htick (by omega)
  refine ⟨hexact, ?_⟩
  rw [F32.le_iff_units (sub_not_nan hx F32.one_finite) (by decide), hexact]
  have hhalf := half_units
  omega

/-! ### `MET_PROCESS` by its cases (R198) -/

section
variable {s : State} (hinit : s.met.init = true)
include hinit

theorem exec_metProcess_tick (h : F32.one.le (s.met.phase.add s.met.inc) = true) :
    ∃ t, exec .metProcess s = .next t ∧ Accepted .met s t 0x64 1#32 ∧
      t.met = { s.met with phase := (s.met.phase.add s.met.inc).sub .one, tick := true } := by
  have heffect : effectOf .metProcess s =
      { s with met := { s.met with phase := (s.met.phase.add s.met.inc).sub .one, tick := true } } := if_pos h
  have hdata : dataOf .metProcess s = 1#32 := if_pos h
  exact ⟨_, exec_accepted hinit rfl, hdata ▸ accepted_effectOf .metProcess s, congrArg State.met heffect⟩

theorem exec_metProcess_no_tick (h : F32.one.le (s.met.phase.add s.met.inc) = false) :
    ∃ t, exec .metProcess s = .next t ∧ Accepted .met s t 0x64 0#32 ∧
      t.met = { s.met with phase := s.met.phase.add s.met.inc, tick := false } := by
  have hif := Bool.eq_false_iff.1 h
  have heffect : effectOf .metProcess s =
      { s with met := { s.met with phase := s.met.phase.add s.met.inc, tick := false } } := if_neg hif
  have hdata : dataOf .metProcess s = 0#32 := if_neg hif
  exact ⟨_, exec_accepted hinit rfl, hdata ▸ accepted_effectOf .metProcess s, congrArg State.met heffect⟩

end

/-- Settles O57: the two cases of the tick; the invariant bounds the sum, so that the remainder is exact. -/
theorem metProcessResult : Obligations.MetProcessResult := by
  unfold Obligations.MetProcessResult
  rintro s _ hinit rfl
  refine ⟨fun htick => ?_, exec_metProcess_no_tick hinit⟩
  obtain ⟨t, hexec, hacc, hmet⟩ := exec_metProcess_tick hinit htick
  refine ⟨t, hexec, hacc, hmet, fun hinv => ?_⟩
  obtain ⟨-, -, -, hinc, hinc', hphase⟩ := hinv hinit
  exact tick_remainder hphase hinc hinc' htick

/-! ### A stopped metronome (R196, R199) -/

/-- A number not above zero is clamped to a zero: to the lower bound, or it is `-0.0` or `+0.0` itself. -/
theorem clamp_isZero_of_le_zero {x hi : F32} (hx : x.le .zero = true) (hhi : F32.zero.le hi = true) :
    (x.clamp .zero hi).isZero = true := by
  rcases clamp_cases x .zero hi with ⟨-, hclamp⟩ | ⟨-, hgt, -⟩ | ⟨hge, -, hclamp⟩
  · rw [hclamp]
    decide
  · exact absurd hgt (Bool.eq_false_iff.1 (lt_eq_false_of_le (F32.le_trans hx hhi)))
  · obtain ⟨hnan, -, hle⟩ := F32.le_iff.1 hx
    obtain ⟨-, -, hge⟩ := F32.le_iff.1 ((F32.lt_eq_false_iff hnan (by decide)).1 hge)
    rw [hclamp, F32.isZero_iff, ← F32.key_eq_zero]
    exact le_antisymm hle hge

/-- A zero over a finite number other than zero is a zero, of either sign. -/
theorem isZero_div {x a : F32} (hx : x.isZero = true) (ha : a.isFinite = true) (h0 : a.mag ≠ 0) :
    (x.div a).isZero = true := by
  rw [F32.isZero_iff] at hx ⊢
  have hfin : x.isFinite = true := F32.isFinite_iff.2 (by rw [hx]; decide)
  obtain ⟨hmag, -⟩ := F32.div_mag hfin ha h0
  rw [hmag, hx, magUnits_zero, zero_mul, roundMag_zero _ (magUnits_pos (Nat.pos_of_ne_zero h0))]

/-- A frequency not above zero gives a zero frequency and a zero increment. -/
theorem metClamp_isZero_of_le_zero {f fs : F32} (hfs : RateOk fs) (hf : f.le .zero = true) :
    (metClamp f fs).isZero = true ∧ ((metClamp f fs).div fs).isZero = true := by
  obtain ⟨hfin, hsign, -⟩ := half_rate hfs
  obtain ⟨-, -, -, h0, -⟩ := period_range hfs
  have hnonneg : F32.zero.le (fs.mul half) = true :=
    (nonneg_iff (F32.not_nan_of_finite hfin)).2 fun h => absurd (hsign.symm.trans h) Bool.false_ne_true
  have hfreq : (metClamp f fs).isZero = true := clamp_isZero_of_le_zero hf hnonneg
  exact ⟨hfreq, isZero_div hfreq hfs.1 h0⟩

/-- Settles O58: the clamp stops the metronome; a zero increment adds nothing to a phase, which is below 1. -/
theorem stoppedMetronomeNeverTicks : Obligations.StoppedMetronomeNeverTicks := by
  unfold Obligations.StoppedMetronomeNeverTicks
  refine ⟨fun s f hinit hinv hf hle => ?_, fun s hinit hinv hzero hsign => ?_⟩
  · obtain ⟨hfs, -⟩ := hinv hinit
    obtain ⟨hfreq, hinc⟩ := metClamp_isZero_of_le_zero hfs hle
    exact ⟨_, exec_accepted hinit hf, hfreq, hinc, rfl⟩
  · obtain ⟨-, -, -, hinc, -, hphase, -, hlt⟩ := hinv hinit
    have hsum : s.met.phase.add s.met.inc = s.met.phase := add_of_isZero hphase hsign hinc hzero
    have hnot : F32.one.le (s.met.phase.add s.met.inc) = false := by
      rw [hsum]
      exact (F32.le_eq_false_iff (by decide) (F32.not_nan_of_finite hphase)).2 hlt
    obtain ⟨t, hexec, hacc, hmet⟩ := exec_metProcess_no_tick hinit hnot
    exact ⟨t, hexec, hacc, by rw [hmet, hsum]⟩

end Sys2Proof.Machine
end

section
/-! PROOFS. The exceptions (60_exceptions.md): the words that are no commands (R223), the order of the tests, which gives
every word its one code (R224 to R226), and what a refusal leaves (R221). -/

namespace Sys2Proof.Machine

/-! ### Listed opcodes (R223 (a); 30_encoding.md R80) -/

theorem opcodeListed_iff {w : CmdWord} :
    opcodeListed w = true ↔ w.op ∈ noneOpcodes ++ f32Opcodes ++ u32Opcodes := by
  simp only [opcodeListed, Bool.or_eq_true, List.contains_iff_mem, List.mem_append]

theorem opcodeOf_mem_opcodes (i : Instr) : opcodeOf i ∈ noneOpcodes ++ f32Opcodes ++ u32Opcodes := by
  cases i <;> simp [opcodeOf, noneOpcodes, f32Opcodes, u32Opcodes]

theorem opcodeOf_mem_noneOpcodes_iff {i : Instr} : opcodeOf i ∈ noneOpcodes ↔ operandTypeOf i = .none := by
  cases i <;> simp [opcodeOf, operandTypeOf, noneOpcodes]

/-- The opcode map has a command for the opcodes of the three lists and for no other. -/
theorem exists_instrOf_iff {op : BitVec 8} {arg : BitVec 32} :
    (∃ i, instrOf op arg = some i) ↔ op ∈ noneOpcodes ++ f32Opcodes ++ u32Opcodes := by
  constructor
  · rintro ⟨i, hi⟩
    exact opcodeOf_instrOf hi ▸ opcodeOf_mem_opcodes i
  · intro hop
    have hzero : ∀ o ∈ noneOpcodes ++ f32Opcodes ++ u32Opcodes, (instrOf o 0#32).isSome = true := by decide
    obtain ⟨i, hi⟩ := Option.isSome_iff_exists.1 (hzero op hop)
    obtain ⟨j, hj, -⟩ := instrOf_opcodeOf_any i arg
    exact ⟨j, opcodeOf_instrOf hi ▸ hj⟩

/-! ### The three checks of the decoder (R223) -/

theorem wellFormed_iff {w : CmdWord} :
    wellFormed w = true ↔ opcodeListed w = true ∧ w.rsv = 0#24 ∧ (w.op ∈ noneOpcodes → w.arg = 0#32) := by
  simp only [wellFormed, reservedClear, operandClear, Bool.and_eq_true, beq_iff_eq, Bool.or_eq_true,
    Bool.not_eq_true', ← Bool.not_eq_true, List.contains_iff_mem, and_assoc, imp_iff_not_or]

/-- The decoder's four ends, each by the fields of the word that lead to it. -/
theorem decode_cases (w : CmdWord) :
    (opcodeListed w = false ∧ decode w = .error .reservedOpcode) ∨
    (opcodeListed w = true ∧ w.rsv ≠ 0#24 ∧ decode w = .error .reservedField) ∨
    (opcodeListed w = true ∧ w.rsv = 0#24 ∧ (w.op ∈ noneOpcodes ∧ w.arg ≠ 0#32) ∧ decode w = .error .strayOperand) ∨
    (opcodeListed w = true ∧ w.rsv = 0#24 ∧ (w.op ∈ noneOpcodes → w.arg = 0#32) ∧ ∃ i, decode w = .ok i) := by
  rcases hi : instrOf w.op w.arg with _ | i
  · refine .inl ⟨?_, by simp [decode, hi]⟩
    rw [← Bool.not_eq_true, opcodeListed_iff, ← exists_instrOf_iff (arg := w.arg), hi]
    exact nofun
  have hlisted : opcodeListed w = true := opcodeListed_iff.2 (exists_instrOf_iff.1 ⟨i, hi⟩)
  have hnone : w.op ∈ noneOpcodes ↔ operandTypeOf i = .none := opcodeOf_instrOf hi ▸ opcodeOf_mem_noneOpcodes_iff
  refine .inr ?_
  by_cases hrsv : w.rsv = 0#24
  · refine .inr ?_
    by_cases hstray : w.op ∈ noneOpcodes ∧ w.arg ≠ 0#32
    · exact .inl ⟨hlisted, hrsv, hstray, by simp [decode, hi, hrsv, hnone.1 hstray.1, hstray.2]⟩
    · exact .inr ⟨hlisted, hrsv, fun hop => not_not.1 fun harg => hstray ⟨hop, harg⟩, i,
        by simp only [decode, hi, hrsv, ← hnone, if_neg hstray, ne_eq, not_true_eq_false, if_false]⟩
  · exact .inl ⟨hlisted, hrsv, by simp [decode, hi, hrsv]⟩

/-- Settles O3: at each of the decoder's four ends the fields decide all four equivalences. -/
theorem decodeAcceptsExactlyWellFormed : Obligations.DecodeAcceptsExactlyWellFormed := by
  unfold Obligations.DecodeAcceptsExactlyWellFormed
  intro w
  rw [wellFormed_iff]
  rcases decode_cases w with ⟨hlisted, hd⟩ | ⟨hlisted, hrsv, hd⟩ | ⟨hlisted, hrsv, ⟨hop, harg⟩, hd⟩ |
    ⟨hlisted, hrsv, harg, i, hd⟩
  · have hop : w.op ∉ noneOpcodes := fun h => by simp [opcodeListed, h] at hlisted
    simp [hd, hlisted, hop]
  · simp [hd, hlisted, hrsv]
  · simp [hd, hlisted, hrsv, hop, harg]
  · simpa [hd, hlisted, hrsv] using harg

/-- A word is no well-formed command just when the decoder reports an error. -/
theorem wellFormed_eq_false_iff {w : CmdWord} : wellFormed w = false ↔ ∃ e, decode w = .error e := by
  obtain ⟨hok, -⟩ := decodeAcceptsExactlyWellFormed w
  rw [← Bool.not_eq_true, ← hok]
  rcases decode w with e | i <;> simp

/-- The three causes of `BADCMD` are the three ways not to be well-formed. -/
theorem malformed_iff {w : CmdWord} :
    (w.op ∉ noneOpcodes ++ f32Opcodes ++ u32Opcodes ∨ w.rsv ≠ 0#24 ∨ (w.op ∈ noneOpcodes ∧ w.arg ≠ 0#32)) ↔
      wellFormed w = false := by
  rw [← Bool.not_eq_true, wellFormed_iff, opcodeListed_iff, not_and_or, not_and_or, Classical.not_imp]

/-! ### The order of tests (R226) -/

/-- The high four bits of a command's opcode select its unit (30_encoding.md R79). -/
theorem selectedInit_opcodeOf (s : State) (i : Instr) : selectedInit s (opcodeOf i) = s.initOf (unitOf i) := by
  cases i <;> simp [selectedInit, opcodeOf, State.initOf, unitOf]

theorem opcodeOf_mem_initOpcodes_iff {i : Instr} : opcodeOf i ∈ initOpcodes ↔ isInitCommand i = true := by
  cases i <;> simp [opcodeOf, initOpcodes, isInitCommand]

theorem outcomeOf_of_malformed {w : CmdWord} (h : wellFormed w = false) (s : State) : outcomeOf s w = 0x01 :=
  if_pos h

/-- The tests that a word's code stands for are those of its command. -/
theorem outcomeOf_encode (s : State) (i : Instr) :
    outcomeOf s (encode i) =
      if (isInitCommand i || s.initOf (unitOf i)) = false then 0x02 else if operandOk i = false then 0x03 else 0x00 := by
  obtain ⟨hop, -, -⟩ := Laws.encode_fields i
  obtain ⟨hok, -⟩ := decodeAcceptsExactlyWellFormed (encode i)
  have hwf : wellFormed (encode i) = true := hok.1 ⟨i, decode_encode i⟩
  simp only [outcomeOf, hwf, hop, selectedInit_opcodeOf, opcodeOf_mem_initOpcodes_iff, operandRejected_encode,
    Bool.or_eq_false_iff, Bool.not_eq_true, Bool.not_eq_true', Bool.true_eq_false, if_false, and_comm]

/-- A word is refused with the code that the order of tests gives, or it is a command, accepted. -/
theorem stepOnWord_outcome (s : State) (w : CmdWord) :
    (∃ c, c ≠ .ok ∧ outcomeOf s w = codeByte c ∧ stepOnWord s w = refuse w.op c s) ∨
    (outcomeOf s w = 0x00 ∧ ∃ i, encode i = w ∧
      stepOnWord s w = .next ((effectOf i s).answer (opcodeOf i) .ok (dataOf i s))) := by
  rcases hd : decode w with e | i
  · exact .inl ⟨.badCmd, nofun, outcomeOf_of_malformed (wellFormed_eq_false_iff.2 ⟨e, hd⟩) s, stepOnWord_badCmd hd s⟩
  obtain rfl := encode_of_decode hd
  obtain ⟨hop, -, -⟩ := Laws.encode_fields i
  rw [stepOnWord_encode, outcomeOf_encode, hop]
  rcases hi : isInitCommand i || s.initOf (unitOf i) with _ | _
  · exact .inl ⟨.notInit, nofun, rfl, exec_not_init hi⟩
  rcases ha : operandOk i with _ | _
  · exact .inl ⟨.badArg, nofun, rfl, exec_bad_arg hi ha⟩
  · exact .inr ⟨rfl, i, rfl, exec_accepted hi ha⟩

/-- Settles O8: the two ends of `stepOnWord_outcome`. -/
theorem orderOfTests : Obligations.OrderOfTests := by
  unfold Obligations.OrderOfTests
  intro s w
  rcases stepOnWord_outcome s w with ⟨c, -, hcode, hstep⟩ | ⟨hcode, i, rfl, hstep⟩
  · obtain ⟨t, ht, hanswered, -, herr⟩ := refuse_spec s w.op c
    obtain ⟨-, -, -, -, -, -, -, hbit⟩ := status_bits t
    exact ⟨t, 0#32, hstep.trans ht, hcode ▸ hanswered, fun _ => ⟨rfl, hbit.trans herr⟩⟩
  · obtain ⟨hop, -, -⟩ := Laws.encode_fields i
    obtain ⟨hanswered, -, -⟩ := accepted_effectOf i s
    exact ⟨_, _, hstep, by rw [hop, hcode]; exact hanswered, fun h => absurd hcode h⟩

/-! ### `BADCMD` and its three causes (R223) -/

theorem outcomeOf_eq_badCmd_iff {s : State} {w : CmdWord} : outcomeOf s w = 0x01 ↔ wellFormed w = false := by
  refine ⟨fun h => ?_, fun h => outcomeOf_of_malformed h s⟩
  unfold outcomeOf at h
  split_ifs at h with hwf
  · exact hwf
  all_goals exact absurd h (by decide)

/-- Settles O7: a malformed word is refused with code 1, and no other word has that code. -/
theorem malformedWordAnswersBadCmd : Obligations.MalformedWordAnswersBadCmd := by
  unfold Obligations.MalformedWordAnswersBadCmd
  refine ⟨fun s w => ?_, rfl, ⟨_, rfl, rfl⟩, ⟨_, rfl, rfl⟩, ⟨_, rfl, rfl⟩, ⟨_, rfl, rfl⟩⟩
  rw [malformed_iff]
  constructor
  · intro hwf
    obtain ⟨e, hd⟩ := wellFormed_eq_false_iff.1 hwf
    obtain ⟨t, ht, hrefused⟩ := refuse_spec s w.op .badCmd
    have ⟨⟨_, r, hr, _, _, hcode, _⟩, _⟩ := hrefused
    exact ⟨t, r, (stepOnWord_badCmd hd s).trans ht, hr, hcode, hrefused⟩
  · rintro ⟨t, r, ht, hr, hcode, -⟩
    obtain ⟨t', data, ht', ⟨-, r', hr', -, -, hcode', -⟩, -⟩ := orderOfTests s w
    cases ht.symm.trans ht'
    cases hr.symm.trans hr'
    exact outcomeOf_eq_badCmd_iff.1 (hcode'.symm.trans hcode)

/-! ### What a refusal leaves (R221) -/

theorem codeByte_of_ne_ok {c : OutcomeCode} (h : c ≠ .ok) :
    codeByte c = 0x01 ∨ codeByte c = 0x02 ∨ codeByte c = 0x03 := by
  cases c with
  | ok => exact absurd rfl h
  | badCmd => exact .inl rfl
  | notInit => exact .inr (.inl rfl)
  | badArg => exact .inr (.inr rfl)

/-- Settles O9: a refusal is the old state with `ERR` set, answered; the next command is taken there by
`stepOnWord_encode`. -/
theorem refusalChangesOnlyErr : Obligations.RefusalChangesOnlyErr := by
  unfold Obligations.RefusalChangesOnlyErr
  intro s w
  rcases stepOnWord_outcome s w with ⟨c, hc, -, hstep⟩ | ⟨-, i, -, hstep⟩
  · obtain ⟨-, -, -, -, -, -, -, hbit⟩ := status_bits { s with err := true }
    refine ⟨_, _, hstep, State.answer_rsp .., .inr ⟨?_, rfl, ?_, ?_, ?_, ?_, ?_, fun i => stepOnWord_encode _ i⟩⟩
    · rw [rspCode_rspWord]
      exact codeByte_of_ne_ok hc
    · exact rspOp_rspWord ..
    · rw [rspStatus_rspWord, State.answer_status]
    · rw [State.answer_status, hbit]
    · exact rspZero_rspWord ..
    · exact rspData_rspWord ..
  · exact ⟨_, _, hstep, State.answer_rsp .., .inl (rspCode_rspWord ..)⟩

end Sys2Proof.Machine
end

section
/-! PROOFS. Reset and hazards (70_reset_and_hazards.md): what a host can observe of the reset state (R240), `rst` and the
step with nothing presented (R241), and why commands of different units commute (R244). -/

namespace Sys2Proof.Machine

/-! ### What two states agree on, unit by unit -/

theorem SameUnit.symm {u : UnitId} {s t : State} (h : SameUnit u s t) : SameUnit u t s := by
  cases u with
  | control => trivial
  | _ => exact Eq.symm h

theorem SameUnit.trans {u : UnitId} {s t v : State} (hst : SameUnit u s t) (htv : SameUnit u t v) : SameUnit u s v := by
  cases u with
  | control => trivial
  | _ => exact Eq.trans hst htv

theorem KeepsUnitsBut.sameUnit {u v : UnitId} {s t : State} (h : KeepsUnitsBut u s t) (hv : u ≠ v) : SameUnit v s t := by
  obtain ⟨hosc, hlad, henvx, henvl, hseq, hmet⟩ := h
  cases v with
  | control => trivial
  | osc => exact (hosc hv).symm
  | lad => exact (hlad hv).symm
  | envx => exact (henvx hv).symm
  | envl => exact (henvl hv).symm
  | seq => exact (hseq hv).symm
  | met => exact (hmet hv).symm

theorem sameUnits_of_sameUnit {s t : State} (h : ∀ u, SameUnit u s t) : SameUnits s t :=
  ⟨fun _ => (h .osc).symm, fun _ => (h .lad).symm, fun _ => (h .envx).symm, fun _ => (h .envl).symm,
    fun _ => (h .seq).symm, fun _ => (h .met).symm⟩

/-! ### Commands of different units (R244; 20_memory.md R68) -/

/-- What a command shows from outside its unit: it keeps the other units, gives one response, and sets `ERR` just when
that response is a refusal's. -/
theorem exec_outside (i : Instr) (s : State) :
    ∃ t r, exec i s = .next t ∧ KeepsUnitsBut (unitOf i) s t ∧ t.port.rsp = some r ∧
      t.err = (s.err || rspCode r != 0x00) := by
  obtain ⟨t, ht, hkeeps, -⟩ := commandsWriteOnlyTheirUnit i s
  obtain ⟨r, hr, -, -, hok, hbad⟩ := stepOnWord_err ((stepOnWord_encode s i).trans ht)
  refine ⟨t, r, ht, hkeeps, hr, ?_⟩
  by_cases hcode : rspCode r = 0x00
  · simp [hok hcode, hcode]
  · rw [hbad hcode, bne_iff_ne.2 hcode, Bool.or_true]

/-- Settles O17: each command finds its unit as the other one found it, so it leaves the same unit and answers the same
(`commandsReadOnlyTheirUnit`); the other command keeps that unit; and `ERR` is set by the same two codes. -/
theorem differentUnitsCommute : Obligations.DifferentUnitsCommute := by
  unfold Obligations.DifferentUnitsCommute
  intro i j s hi hj hij
  obtain ⟨a, ri, ha, hsa, hri, hea⟩ := exec_outside i s
  obtain ⟨ab, rj', hab, haab, hrj', heab⟩ := exec_outside j a
  obtain ⟨b, rj, hb, hsb, hrj, heb⟩ := exec_outside j s
  obtain ⟨ba, ri', hba, hbba, hri', heba⟩ := exec_outside i b
  obtain ⟨hunitI, hcodeI, hdataI⟩ := commandsReadOnlyTheirUnit i s b a ba ri ri' hi (hsb.sameUnit hij.symm) ha hba hri hri'
  obtain ⟨hunitJ, hcodeJ, hdataJ⟩ := commandsReadOnlyTheirUnit j s a b ab rj rj' hj (hsa.sameUnit hij) hb hab hrj hrj'
  have hunits (u : UnitId) : SameUnit u ab ba := by
    by_cases hui : unitOf i = u
    · subst hui
      exact (haab.sameUnit hij.symm).symm.trans hunitI
    by_cases huj : unitOf j = u
    · subst huj
      exact hunitJ.symm.trans (hbba.sameUnit hij)
    · have hsab : SameUnit u s ab := (hsa.sameUnit hui).trans (haab.sameUnit huj)
      have hsba : SameUnit u s ba := (hsb.sameUnit huj).trans (hbba.sameUnit hui)
      exact hsab.symm.trans hsba
  have herr : ab.err = ba.err := by
    rw [heab, hea, heba, heb, hcodeI, hcodeJ, Bool.or_right_comm]
  exact ⟨a, ab, b, ba, ri, rj, ri', rj', ha, hab, hb, hba, sameUnits_of_sameUnit hunits, herr,
    hri, hri', hcodeI, hdataI, hrj, hrj', hcodeJ, hdataJ⟩

/-! ### The reset state (R240) -/

theorem unitOf_eq_control_iff {i : Instr} : unitOf i = .control ↔ i = .nop ∨ i = .getStatus := by
  cases i <;> simp [unitOf]

theorem reset_initOf {u : UnitId} (h : u ≠ .control) : State.reset.initOf u = false :=
  initBitLifecycle.1 u h

/-- From reset every command of a unit but its `*_INIT` is refused. -/
theorem exec_reset_notInit {i : Instr} (hi : isInitCommand i = false) (hu : unitOf i ≠ .control) :
    ∃ t, exec i .reset = .next t ∧ Refused .reset t (opcodeOf i) 0x02 :=
  exec_refused_notInit (by rw [hi, reset_initOf hu]; rfl)

/-- From reset both global commands answer with data 0, for `STATUS` is 0. -/
theorem exec_reset_global {i : Instr} (h : i = .nop ∨ i = .getStatus) :
    ∃ t, exec i .reset = .next t ∧ Accepted .control .reset t (opcodeOf i) 0#32 := by
  rcases h with rfl | rfl
  · exact ⟨_, exec_accepted rfl rfl, accepted_effectOf .nop .reset⟩
  · exact ⟨_, exec_accepted rfl rfl, accepted_effectOf .getStatus .reset⟩

/-- Settles O12: the registers are `State.reset`'s own; of the commands, the global ones and the `*_INIT` are accepted. -/
theorem resetState : Obligations.ResetState := by
  unfold Obligations.ResetState
  refine ⟨rfl, rfl, rfl, rfl, rfl, rfl, rfl, rfl, rfl, rfl, fun i => ⟨exec_reset_global, fun hinit hop => ?_,
    fun hnop hstatus hinit => ?_⟩⟩
  · exact ⟨_, _, exec_init hinit hop .reset, accepted_effectOf i .reset⟩
  · exact exec_reset_notInit hinit fun hu => (unitOf_eq_control_iff.1 hu).elim hnop hstatus

/-! ### `rst`, and nothing presented (R241; 60_exceptions.md R233) -/

theorem hardwareReset_status (s : State) : (hardwareReset s).status = 0x00 := by
  have hreset : State.reset.status = 0x00 := by decide
  exact hreset

/-- Settles O13: `step_reset` and `step_idle`; neither touches a unit but by putting it into the reset state. -/
theorem resetAndIdleSteps : Obligations.ResetAndIdleSteps := by
  unfold Obligations.ResetAndIdleSteps
  refine ⟨fun s c rest h => ?_, fun s h => ?_⟩
  · exact ⟨_, step_reset s c rest h, sameUnits_port_err .reset _ false, rfl, hardwareReset_status _, rfl, rfl, rfl⟩
  · exact ⟨_, step_idle s h, sameUnits_port_err s _ s.err, rfl, rfl, rfl, rfl, h⟩

end Sys2Proof.Machine
end
